-- ==== Sys2Proof/Word.lean ====
section
/-! DEFINITION. The word types: a 64-bit slot for an XLEN-bit value, a byte, a register number. -/

namespace Sys2Proof

/-- One byte of memory (20_memory.md R82). -/
abbrev Byte := BitVec 8

/-- The slot that holds an XLEN-bit value: the register is its low XLEN bits (notes/assumptions/19.md). -/
abbrev Word := BitVec 64

/-- A register field of an instruction (30_encoding.md R172): a 5-bit index into `x`. -/
abbrev Reg := BitVec 5

end Sys2Proof
end

