-- ==== Sys2Proof/Syntax.lean ====
section
/-! DEFINITION. The instructions: one constructor for each row of spec/opcode_table.json. -/

namespace Sys2Proof

/-- The nine operations of the AMOs (R87, R204 to R221). -/
inductive AmoOp where
  | amoswap
  | amoadd
  | amoxor
  | amoand
  | amoor
  | amomin
  | amomax
  | amominu
  | amomaxu
deriving DecidableEq, Repr

/-- A predecessor or successor set of `fence` (R177): `I` device input, `O` device output, `R` memory reads,
`W` memory writes. -/
structure FenceSet where
  i : Bool
  o : Bool
  r : Bool
  w : Bool
deriving DecidableEq, Repr

/-- The instructions in scope (30_encoding.md R178), every field of the word an operand. Immediates are the 12 bits
of the word, sign-extended where they are used (R174, R175); `csr` is unsigned (R176). -/
inductive Instr where
  | amoswapW (aq rl : Bool) (rd rs1 rs2 : Reg)
  | amoswapD (aq rl : Bool) (rd rs1 rs2 : Reg)
  | amoaddW (aq rl : Bool) (rd rs1 rs2 : Reg)
  | amoaddD (aq rl : Bool) (rd rs1 rs2 : Reg)
  | amoxorW (aq rl : Bool) (rd rs1 rs2 : Reg)
  | amoxorD (aq rl : Bool) (rd rs1 rs2 : Reg)
  | amoandW (aq rl : Bool) (rd rs1 rs2 : Reg)
  | amoandD (aq rl : Bool) (rd rs1 rs2 : Reg)
  | amoorW (aq rl : Bool) (rd rs1 rs2 : Reg)
  | amoorD (aq rl : Bool) (rd rs1 rs2 : Reg)
  | amominW (aq rl : Bool) (rd rs1 rs2 : Reg)
  | amominD (aq rl : Bool) (rd rs1 rs2 : Reg)
  | amomaxW (aq rl : Bool) (rd rs1 rs2 : Reg)
  | amomaxD (aq rl : Bool) (rd rs1 rs2 : Reg)
  | amominuW (aq rl : Bool) (rd rs1 rs2 : Reg)
  | amominuD (aq rl : Bool) (rd rs1 rs2 : Reg)
  | amomaxuW (aq rl : Bool) (rd rs1 rs2 : Reg)
  | amomaxuD (aq rl : Bool) (rd rs1 rs2 : Reg)
  | lrW (aq rl : Bool) (rd rs1 : Reg)
  | lrD (aq rl : Bool) (rd rs1 : Reg)
  | scW (aq rl : Bool) (rd rs1 rs2 : Reg)
  | scD (aq rl : Bool) (rd rs1 rs2 : Reg)
  | lb (rd rs1 : Reg) (imm : BitVec 12)
  | lh (rd rs1 : Reg) (imm : BitVec 12)
  | lw (rd rs1 : Reg) (imm : BitVec 12)
  | ld (rd rs1 : Reg) (imm : BitVec 12)
  | lbu (rd rs1 : Reg) (imm : BitVec 12)
  | lhu (rd rs1 : Reg) (imm : BitVec 12)
  | lwu (rd rs1 : Reg) (imm : BitVec 12)
  | sb (rs1 rs2 : Reg) (imm : BitVec 12)
  | sh (rs1 rs2 : Reg) (imm : BitVec 12)
  | sw (rs1 rs2 : Reg) (imm : BitVec 12)
  | sd (rs1 rs2 : Reg) (imm : BitVec 12)
  | flw (fd rs1 : Reg) (imm : BitVec 12)
  | fld (fd rs1 : Reg) (imm : BitVec 12)
  | flq (fd rs1 : Reg) (imm : BitVec 12)
  | fsw (rs1 fs2 : Reg) (imm : BitVec 12)
  | fsd (rs1 fs2 : Reg) (imm : BitVec 12)
  | fsq (rs1 fs2 : Reg) (imm : BitVec 12)
  | fence (fm : BitVec 4) (pred succ : FenceSet) (rd rs1 : Reg)
  | sfenceVma (rs1 rs2 : Reg)
  | csrrw (rd : Reg) (csr : BitVec 12) (rs1 : Reg)
  | csrrs (rd : Reg) (csr : BitVec 12) (rs1 : Reg)
  | csrrc (rd : Reg) (csr : BitVec 12) (rs1 : Reg)
  | csrrwi (rd : Reg) (csr : BitVec 12) (uimm : BitVec 5)
  | csrrsi (rd : Reg) (csr : BitVec 12) (uimm : BitVec 5)
  | csrrci (rd : Reg) (csr : BitVec 12) (uimm : BitVec 5)
deriving DecidableEq, Repr

/-- The row of spec/opcode_table.json a constructor stands for, by its mnemonic. -/
def Instr.mnemonic : Instr → String
  | .amoswapW .. => "amoswap.w"
  | .amoswapD .. => "amoswap.d"
  | .amoaddW .. => "amoadd.w"
  | .amoaddD .. => "amoadd.d"
  | .amoxorW .. => "amoxor.w"
  | .amoxorD .. => "amoxor.d"
  | .amoandW .. => "amoand.w"
  | .amoandD .. => "amoand.d"
  | .amoorW .. => "amoor.w"
  | .amoorD .. => "amoor.d"
  | .amominW .. => "amomin.w"
  | .amominD .. => "amomin.d"
  | .amomaxW .. => "amomax.w"
  | .amomaxD .. => "amomax.d"
  | .amominuW .. => "amominu.w"
  | .amominuD .. => "amominu.d"
  | .amomaxuW .. => "amomaxu.w"
  | .amomaxuD .. => "amomaxu.d"
  | .lrW .. => "lr.w"
  | .lrD .. => "lr.d"
  | .scW .. => "sc.w"
  | .scD .. => "sc.d"
  | .lb .. => "lb"
  | .lh .. => "lh"
  | .lw .. => "lw"
  | .ld .. => "ld"
  | .lbu .. => "lbu"
  | .lhu .. => "lhu"
  | .lwu .. => "lwu"
  | .sb .. => "sb"
  | .sh .. => "sh"
  | .sw .. => "sw"
  | .sd .. => "sd"
  | .flw .. => "flw"
  | .fld .. => "fld"
  | .flq .. => "flq"
  | .fsw .. => "fsw"
  | .fsd .. => "fsd"
  | .fsq .. => "fsq"
  | .fence .. => "fence"
  | .sfenceVma .. => "sfence.vma"
  | .csrrw .. => "csrrw"
  | .csrrs .. => "csrrs"
  | .csrrc .. => "csrrc"
  | .csrrwi .. => "csrrwi"
  | .csrrsi .. => "csrrsi"
  | .csrrci .. => "csrrci"

end Sys2Proof
end

