-- ==== Sys2Proof/Decode.lean ====
section
/-! DEFINITION. Decoding (30_encoding.md), total on words and on bytes: the fields of a word, the decoder, the decoder
on bytes, the encoder, and the opcode table as masks and matches (R179). -/

namespace Sys2Proof

/-! ## Fields of a word (R171 to R177) -/

def opcodeOf (w : BitVec 32) : BitVec 7 := w.extractLsb' 0 7
def rdOf (w : BitVec 32) : Reg := w.extractLsb' 7 5
def funct3Of (w : BitVec 32) : BitVec 3 := w.extractLsb' 12 3
def rs1Of (w : BitVec 32) : Reg := w.extractLsb' 15 5
def rs2Of (w : BitVec 32) : Reg := w.extractLsb' 20 5
def funct7Of (w : BitVec 32) : BitVec 7 := w.extractLsb' 25 7
def funct5Of (w : BitVec 32) : BitVec 5 := w.extractLsb' 27 5
def aqOf (w : BitVec 32) : Bool := w.getLsbD 26
def rlOf (w : BitVec 32) : Bool := w.getLsbD 25
/-- The twelve bits of an I-type immediate (R174) or of a CSR number (R176). -/
def immIOf (w : BitVec 32) : BitVec 12 := w.extractLsb' 20 12
/-- The twelve bits of an S-type immediate (R175). -/
def immSOf (w : BitVec 32) : BitVec 12 := funct7Of w ++ rdOf w
def fmOf (w : BitVec 32) : BitVec 4 := w.extractLsb' 28 4
/-- The predecessor set of a `fence` word (R177). -/
def predOf (w : BitVec 32) : FenceSet :=
  { i := w.getLsbD 27, o := w.getLsbD 26, r := w.getLsbD 25, w := w.getLsbD 24 }
/-- The successor set of a `fence` word (R177). -/
def succOf (w : BitVec 32) : FenceSet :=
  { i := w.getLsbD 23, o := w.getLsbD 22, r := w.getLsbD 21, w := w.getLsbD 20 }

/-! ## The decoder (R178): major opcode, then `funct3`, then `funct5` or `funct7` -/

/-- LOAD, opcode `0000011`. -/
def decodeLoad (w : BitVec 32) : Option Instr :=
  match (funct3Of w).toNat with
  | 0 => some (.lb (rdOf w) (rs1Of w) (immIOf w))
  | 1 => some (.lh (rdOf w) (rs1Of w) (immIOf w))
  | 2 => some (.lw (rdOf w) (rs1Of w) (immIOf w))
  | 3 => some (.ld (rdOf w) (rs1Of w) (immIOf w))
  | 4 => some (.lbu (rdOf w) (rs1Of w) (immIOf w))
  | 5 => some (.lhu (rdOf w) (rs1Of w) (immIOf w))
  | 6 => some (.lwu (rdOf w) (rs1Of w) (immIOf w))
  | _ => none

/-- LOAD-FP, opcode `0000111`. -/
def decodeLoadFp (w : BitVec 32) : Option Instr :=
  match (funct3Of w).toNat with
  | 2 => some (.flw (rdOf w) (rs1Of w) (immIOf w))
  | 3 => some (.fld (rdOf w) (rs1Of w) (immIOf w))
  | 4 => some (.flq (rdOf w) (rs1Of w) (immIOf w))
  | _ => none

/-- MISC-MEM, opcode `0001111`; the reserved forms of `fence` decode too (R180 item 7). -/
def decodeMiscMem (w : BitVec 32) : Option Instr :=
  match (funct3Of w).toNat with
  | 0 => some (.fence (fmOf w) (predOf w) (succOf w) (rdOf w) (rs1Of w))
  | _ => none

/-- STORE, opcode `0100011`. -/
def decodeStore (w : BitVec 32) : Option Instr :=
  match (funct3Of w).toNat with
  | 0 => some (.sb (rs1Of w) (rs2Of w) (immSOf w))
  | 1 => some (.sh (rs1Of w) (rs2Of w) (immSOf w))
  | 2 => some (.sw (rs1Of w) (rs2Of w) (immSOf w))
  | 3 => some (.sd (rs1Of w) (rs2Of w) (immSOf w))
  | _ => none

/-- STORE-FP, opcode `0100111`. -/
def decodeStoreFp (w : BitVec 32) : Option Instr :=
  match (funct3Of w).toNat with
  | 2 => some (.fsw (rs1Of w) (rs2Of w) (immSOf w))
  | 3 => some (.fsd (rs1Of w) (rs2Of w) (immSOf w))
  | 4 => some (.fsq (rs1Of w) (rs2Of w) (immSOf w))
  | _ => none

/-- AMO with `funct3 = 010` (R173); `lr` needs `rs2 = 00000` (R180 item 5). -/
def decodeAmoW (w : BitVec 32) : Option Instr :=
  match (funct5Of w).toNat with
  | 0b00000 => some (.amoaddW (aqOf w) (rlOf w) (rdOf w) (rs1Of w) (rs2Of w))
  | 0b00001 => some (.amoswapW (aqOf w) (rlOf w) (rdOf w) (rs1Of w) (rs2Of w))
  | 0b00010 => if rs2Of w = 0 then some (.lrW (aqOf w) (rlOf w) (rdOf w) (rs1Of w)) else none
  | 0b00011 => some (.scW (aqOf w) (rlOf w) (rdOf w) (rs1Of w) (rs2Of w))
  | 0b00100 => some (.amoxorW (aqOf w) (rlOf w) (rdOf w) (rs1Of w) (rs2Of w))
  | 0b01000 => some (.amoorW (aqOf w) (rlOf w) (rdOf w) (rs1Of w) (rs2Of w))
  | 0b01100 => some (.amoandW (aqOf w) (rlOf w) (rdOf w) (rs1Of w) (rs2Of w))
  | 0b10000 => some (.amominW (aqOf w) (rlOf w) (rdOf w) (rs1Of w) (rs2Of w))
  | 0b10100 => some (.amomaxW (aqOf w) (rlOf w) (rdOf w) (rs1Of w) (rs2Of w))
  | 0b11000 => some (.amominuW (aqOf w) (rlOf w) (rdOf w) (rs1Of w) (rs2Of w))
  | 0b11100 => some (.amomaxuW (aqOf w) (rlOf w) (rdOf w) (rs1Of w) (rs2Of w))
  | _ => none

/-- AMO with `funct3 = 011` (R173). -/
def decodeAmoD (w : BitVec 32) : Option Instr :=
  match (funct5Of w).toNat with
  | 0b00000 => some (.amoaddD (aqOf w) (rlOf w) (rdOf w) (rs1Of w) (rs2Of w))
  | 0b00001 => some (.amoswapD (aqOf w) (rlOf w) (rdOf w) (rs1Of w) (rs2Of w))
  | 0b00010 => if rs2Of w = 0 then some (.lrD (aqOf w) (rlOf w) (rdOf w) (rs1Of w)) else none
  | 0b00011 => some (.scD (aqOf w) (rlOf w) (rdOf w) (rs1Of w) (rs2Of w))
  | 0b00100 => some (.amoxorD (aqOf w) (rlOf w) (rdOf w) (rs1Of w) (rs2Of w))
  | 0b01000 => some (.amoorD (aqOf w) (rlOf w) (rdOf w) (rs1Of w) (rs2Of w))
  | 0b01100 => some (.amoandD (aqOf w) (rlOf w) (rdOf w) (rs1Of w) (rs2Of w))
  | 0b10000 => some (.amominD (aqOf w) (rlOf w) (rdOf w) (rs1Of w) (rs2Of w))
  | 0b10100 => some (.amomaxD (aqOf w) (rlOf w) (rdOf w) (rs1Of w) (rs2Of w))
  | 0b11000 => some (.amominuD (aqOf w) (rlOf w) (rdOf w) (rs1Of w) (rs2Of w))
  | 0b11100 => some (.amomaxuD (aqOf w) (rlOf w) (rdOf w) (rs1Of w) (rs2Of w))
  | _ => none

/-- AMO, opcode `0101111`. -/
def decodeAmo (w : BitVec 32) : Option Instr :=
  match (funct3Of w).toNat with
  | 2 => decodeAmoW w
  | 3 => decodeAmoD w
  | _ => none

/-- SYSTEM, opcode `1110011`: the CSR instructions (R176) and `sfence.vma` (R272). -/
def decodeSystem (w : BitVec 32) : Option Instr :=
  match (funct3Of w).toNat with
  | 0 => if funct7Of w = 0b0001001#7 ∧ rdOf w = 0 then some (.sfenceVma (rs1Of w) (rs2Of w)) else none
  | 1 => some (.csrrw (rdOf w) (immIOf w) (rs1Of w))
  | 2 => some (.csrrs (rdOf w) (immIOf w) (rs1Of w))
  | 3 => some (.csrrc (rdOf w) (immIOf w) (rs1Of w))
  | 5 => some (.csrrwi (rdOf w) (immIOf w) (rs1Of w))
  | 6 => some (.csrrsi (rdOf w) (immIOf w) (rs1Of w))
  | 7 => some (.csrrci (rdOf w) (immIOf w) (rs1Of w))
  | _ => none

/-- The decoder (R178, R179): `none` is a word that matches no row, `Refused(NotInScope)` at the step. -/
def decode (w : BitVec 32) : Option Instr :=
  match (opcodeOf w).toNat with
  | 0b0000011 => decodeLoad w
  | 0b0000111 => decodeLoadFp w
  | 0b0001111 => decodeMiscMem w
  | 0b0100011 => decodeStore w
  | 0b0100111 => decodeStoreFp w
  | 0b0101111 => decodeAmo w
  | 0b1110011 => decodeSystem w
  | _ => none

/-! ## Bytes: an instruction is four bytes, little-endian (R83, R170) -/

/-- The 32-bit word of the first four bytes, the byte at the lowest address in bits 7:0. -/
def wordOfBytes : List Byte → Option (BitVec 32)
  | b0 :: b1 :: b2 :: b3 :: _ => some (b3 ++ b2 ++ b1 ++ b0)
  | _ => none

/-- The bytes of a word as they lie in memory. -/
def bytesOfWord (w : BitVec 32) : List Byte :=
  [w.extractLsb' 0 8, w.extractLsb' 8 8, w.extractLsb' 16 8, w.extractLsb' 24 8]

/-- Decoding from bytes: the instruction and the bytes after it. -/
def decodeBytes (bs : List Byte) : Option (Instr × List Byte) :=
  match wordOfBytes bs with
  | none => none
  | some w => (decode w).map fun i => (i, bs.drop 4)

/-- The decoder on an instruction numbered as spec/opcode_table.json numbers its bits. -/
def decodeTableWord (nbits w : Nat) : Option Instr :=
  (decodeBytes (bytesOfWord (BitVec.ofNat 32 (w % 2 ^ nbits)))).map Prod.fst

/-! ## The encoder, from the same formats (R171 to R177) -/

/-- R-type (R171). -/
def encodeR (funct7 : BitVec 7) (rs2 rs1 : Reg) (funct3 : BitVec 3) (rd : Reg) (opcode : BitVec 7) : BitVec 32 :=
  funct7 ++ rs2 ++ rs1 ++ funct3 ++ rd ++ opcode

/-- I-type (R171, R174, R176). -/
def encodeI (imm : BitVec 12) (rs1 : Reg) (funct3 : BitVec 3) (rd : Reg) (opcode : BitVec 7) : BitVec 32 :=
  imm ++ rs1 ++ funct3 ++ rd ++ opcode

/-- S-type (R171, R175). -/
def encodeS (imm : BitVec 12) (rs2 rs1 : Reg) (funct3 : BitVec 3) (opcode : BitVec 7) : BitVec 32 :=
  encodeR (imm.extractLsb' 5 7) rs2 rs1 funct3 (imm.extractLsb' 0 5) opcode

/-- The atomic format (R173). -/
def encodeAtomic (funct5 : BitVec 5) (aq rl : Bool) (rs2 rs1 : Reg) (funct3 : BitVec 3) (rd : Reg) : BitVec 32 :=
  encodeR (funct5 ++ BitVec.ofBool aq ++ BitVec.ofBool rl) rs2 rs1 funct3 rd 0b0101111#7

/-- The four bits of a fence set (R177). -/
def encodeFenceSet (f : FenceSet) : BitVec 4 :=
  BitVec.ofBool f.i ++ BitVec.ofBool f.o ++ BitVec.ofBool f.r ++ BitVec.ofBool f.w

/-- The word of an instruction. -/
def encode : Instr → BitVec 32
  | .amoaddW aq rl rd rs1 rs2 => encodeAtomic 0b00000#5 aq rl rs2 rs1 0b010#3 rd
  | .amoaddD aq rl rd rs1 rs2 => encodeAtomic 0b00000#5 aq rl rs2 rs1 0b011#3 rd
  | .amoswapW aq rl rd rs1 rs2 => encodeAtomic 0b00001#5 aq rl rs2 rs1 0b010#3 rd
  | .amoswapD aq rl rd rs1 rs2 => encodeAtomic 0b00001#5 aq rl rs2 rs1 0b011#3 rd
  | .amoxorW aq rl rd rs1 rs2 => encodeAtomic 0b00100#5 aq rl rs2 rs1 0b010#3 rd
  | .amoxorD aq rl rd rs1 rs2 => encodeAtomic 0b00100#5 aq rl rs2 rs1 0b011#3 rd
  | .amoandW aq rl rd rs1 rs2 => encodeAtomic 0b01100#5 aq rl rs2 rs1 0b010#3 rd
  | .amoandD aq rl rd rs1 rs2 => encodeAtomic 0b01100#5 aq rl rs2 rs1 0b011#3 rd
  | .amoorW aq rl rd rs1 rs2 => encodeAtomic 0b01000#5 aq rl rs2 rs1 0b010#3 rd
  | .amoorD aq rl rd rs1 rs2 => encodeAtomic 0b01000#5 aq rl rs2 rs1 0b011#3 rd
  | .amominW aq rl rd rs1 rs2 => encodeAtomic 0b10000#5 aq rl rs2 rs1 0b010#3 rd
  | .amominD aq rl rd rs1 rs2 => encodeAtomic 0b10000#5 aq rl rs2 rs1 0b011#3 rd
  | .amomaxW aq rl rd rs1 rs2 => encodeAtomic 0b10100#5 aq rl rs2 rs1 0b010#3 rd
  | .amomaxD aq rl rd rs1 rs2 => encodeAtomic 0b10100#5 aq rl rs2 rs1 0b011#3 rd
  | .amominuW aq rl rd rs1 rs2 => encodeAtomic 0b11000#5 aq rl rs2 rs1 0b010#3 rd
  | .amominuD aq rl rd rs1 rs2 => encodeAtomic 0b11000#5 aq rl rs2 rs1 0b011#3 rd
  | .amomaxuW aq rl rd rs1 rs2 => encodeAtomic 0b11100#5 aq rl rs2 rs1 0b010#3 rd
  | .amomaxuD aq rl rd rs1 rs2 => encodeAtomic 0b11100#5 aq rl rs2 rs1 0b011#3 rd
  | .lrW aq rl rd rs1 => encodeAtomic 0b00010#5 aq rl 0 rs1 0b010#3 rd
  | .lrD aq rl rd rs1 => encodeAtomic 0b00010#5 aq rl 0 rs1 0b011#3 rd
  | .scW aq rl rd rs1 rs2 => encodeAtomic 0b00011#5 aq rl rs2 rs1 0b010#3 rd
  | .scD aq rl rd rs1 rs2 => encodeAtomic 0b00011#5 aq rl rs2 rs1 0b011#3 rd
  | .lb rd rs1 imm => encodeI imm rs1 0b000#3 rd 0b0000011#7
  | .lh rd rs1 imm => encodeI imm rs1 0b001#3 rd 0b0000011#7
  | .lw rd rs1 imm => encodeI imm rs1 0b010#3 rd 0b0000011#7
  | .ld rd rs1 imm => encodeI imm rs1 0b011#3 rd 0b0000011#7
  | .lbu rd rs1 imm => encodeI imm rs1 0b100#3 rd 0b0000011#7
  | .lhu rd rs1 imm => encodeI imm rs1 0b101#3 rd 0b0000011#7
  | .lwu rd rs1 imm => encodeI imm rs1 0b110#3 rd 0b0000011#7
  | .sb rs1 rs2 imm => encodeS imm rs2 rs1 0b000#3 0b0100011#7
  | .sh rs1 rs2 imm => encodeS imm rs2 rs1 0b001#3 0b0100011#7
  | .sw rs1 rs2 imm => encodeS imm rs2 rs1 0b010#3 0b0100011#7
  | .sd rs1 rs2 imm => encodeS imm rs2 rs1 0b011#3 0b0100011#7
  | .flw fd rs1 imm => encodeI imm rs1 0b010#3 fd 0b0000111#7
  | .fld fd rs1 imm => encodeI imm rs1 0b011#3 fd 0b0000111#7
  | .flq fd rs1 imm => encodeI imm rs1 0b100#3 fd 0b0000111#7
  | .fsw rs1 fs2 imm => encodeS imm fs2 rs1 0b010#3 0b0100111#7
  | .fsd rs1 fs2 imm => encodeS imm fs2 rs1 0b011#3 0b0100111#7
  | .fsq rs1 fs2 imm => encodeS imm fs2 rs1 0b100#3 0b0100111#7
  | .fence fm pred succ rd rs1 =>
      encodeI (fm ++ encodeFenceSet pred ++ encodeFenceSet succ) rs1 0b000#3 rd 0b0001111#7
  | .sfenceVma rs1 rs2 => encodeR 0b0001001#7 rs2 rs1 0b000#3 0 0b1110011#7
  | .csrrw rd csr rs1 => encodeI csr rs1 0b001#3 rd 0b1110011#7
  | .csrrs rd csr rs1 => encodeI csr rs1 0b010#3 rd 0b1110011#7
  | .csrrc rd csr rs1 => encodeI csr rs1 0b011#3 rd 0b1110011#7
  | .csrrwi rd csr uimm => encodeI csr uimm 0b101#3 rd 0b1110011#7
  | .csrrsi rd csr uimm => encodeI csr uimm 0b110#3 rd 0b1110011#7
  | .csrrci rd csr uimm => encodeI csr uimm 0b111#3 rd 0b1110011#7

/-! ## The opcode table as the spec writes it (R179) -/

/-- One row: a word `w` matches it when `w &&& mask = value`. -/
structure OpcodeRow where
  mnemonic : String
  value : BitVec 32
  mask : BitVec 32
deriving DecidableEq, Repr

/-- R179: "A row of `opcode_table.json` matches a word `w` when `w & mask == match`". -/
def OpcodeRow.accepts (r : OpcodeRow) (w : BitVec 32) : Bool := w &&& r.mask == r.value

/-- The 47 rows of spec/opcode_table.json, in its order. -/
def opcodeTable : List OpcodeRow :=
  [⟨"amoswap.w", 0x0800202F, 0xF800707F⟩,
   ⟨"amoswap.d", 0x0800302F, 0xF800707F⟩,
   ⟨"amoadd.w", 0x0000202F, 0xF800707F⟩,
   ⟨"amoadd.d", 0x0000302F, 0xF800707F⟩,
   ⟨"amoxor.w", 0x2000202F, 0xF800707F⟩,
   ⟨"amoxor.d", 0x2000302F, 0xF800707F⟩,
   ⟨"amoand.w", 0x6000202F, 0xF800707F⟩,
   ⟨"amoand.d", 0x6000302F, 0xF800707F⟩,
   ⟨"amoor.w", 0x4000202F, 0xF800707F⟩,
   ⟨"amoor.d", 0x4000302F, 0xF800707F⟩,
   ⟨"amomin.w", 0x8000202F, 0xF800707F⟩,
   ⟨"amomin.d", 0x8000302F, 0xF800707F⟩]
  ++ [⟨"amomax.w", 0xA000202F, 0xF800707F⟩,
   ⟨"amomax.d", 0xA000302F, 0xF800707F⟩,
   ⟨"amominu.w", 0xC000202F, 0xF800707F⟩,
   ⟨"amominu.d", 0xC000302F, 0xF800707F⟩,
   ⟨"amomaxu.w", 0xE000202F, 0xF800707F⟩,
   ⟨"amomaxu.d", 0xE000302F, 0xF800707F⟩,
   ⟨"lr.w", 0x1000202F, 0xF9F0707F⟩,
   ⟨"lr.d", 0x1000302F, 0xF9F0707F⟩,
   ⟨"sc.w", 0x1800202F, 0xF800707F⟩,
   ⟨"sc.d", 0x1800302F, 0xF800707F⟩,
   ⟨"lb", 0x00000003, 0x0000707F⟩,
   ⟨"lh", 0x00001003, 0x0000707F⟩]
  ++ [⟨"lw", 0x00002003, 0x0000707F⟩,
   ⟨"ld", 0x00003003, 0x0000707F⟩,
   ⟨"lbu", 0x00004003, 0x0000707F⟩,
   ⟨"lhu", 0x00005003, 0x0000707F⟩,
   ⟨"lwu", 0x00006003, 0x0000707F⟩,
   ⟨"sb", 0x00000023, 0x0000707F⟩,
   ⟨"sh", 0x00001023, 0x0000707F⟩,
   ⟨"sw", 0x00002023, 0x0000707F⟩,
   ⟨"sd", 0x00003023, 0x0000707F⟩,
   ⟨"flw", 0x00002007, 0x0000707F⟩,
   ⟨"fld", 0x00003007, 0x0000707F⟩,
   ⟨"flq", 0x00004007, 0x0000707F⟩]
  ++ [⟨"fsw", 0x00002027, 0x0000707F⟩,
   ⟨"fsd", 0x00003027, 0x0000707F⟩,
   ⟨"fsq", 0x00004027, 0x0000707F⟩,
   ⟨"fence", 0x0000000F, 0x0000707F⟩,
   ⟨"sfence.vma", 0x12000073, 0xFE007FFF⟩,
   ⟨"csrrw", 0x00001073, 0x0000707F⟩,
   ⟨"csrrs", 0x00002073, 0x0000707F⟩,
   ⟨"csrrc", 0x00003073, 0x0000707F⟩,
   ⟨"csrrwi", 0x00005073, 0x0000707F⟩,
   ⟨"csrrsi", 0x00006073, 0x0000707F⟩,
   ⟨"csrrci", 0x00007073, 0x0000707F⟩]

end Sys2Proof
end

