-- ==== Sys2Proof/Config.lean ====
section
/-! DEFINITION. What an implementation fixes (the record `Cfg` of 00_scope.md R7 to R14, plain data) and the
free values (opaque constants with no body). -/

namespace Sys2Proof

/-- `MXLEN` (R7, D1). `XLEN = MXLEN` at all times (D2). -/
inductive Mxlen where
  | rv32
  | rv64
deriving DecidableEq, Repr

/-- `NPMP`, the number of implemented PMP entries (R8, D3): "zero, 16, or 64". -/
inductive PmpCount where
  | zero
  | sixteen
  | sixtyFour
deriving DecidableEq, Repr

/-- `Cfg.FLEN` (R13, R259, D33): the widest floating-point extension present. -/
inductive Flen where
  | absent
  | f32
  | f64
  | f128
deriving DecidableEq, Repr

/-- The two classes of region (R106). -/
inductive RegionKind where
  | mainMemory
  | io
deriving DecidableEq, Repr

/-- The four levels of AMO support, each including the one before (R86). -/
inductive AmoLevel where
  | amoNone
  | amoSwap
  | amoLogical
  | amoArithmetic
deriving DecidableEq, Repr

/-- The three levels of LR/SC support (R90). -/
inductive RsrvLevel where
  | rsrvNone
  | rsrvNonEventual
  | rsrvEventual
deriving DecidableEq, Repr

/-- The memory model of a main-memory region (R107). -/
inductive MemModel where
  | rvwmo
  | rvtso
  | implDefined
deriving DecidableEq, Repr

/-- The ordering of an I/O region (R108 to R112): relaxed, or strong with a numbered channel. -/
inductive IoOrder where
  | relaxed
  | strong (channel : Nat)
deriving DecidableEq, Repr

/-- Which exception a refused misaligned access raises in a region (`Cfg.misalignedExcKind`, R100, D18). -/
inductive MisalignedExc where
  | addressMisaligned
  | accessFault
deriving DecidableEq, Repr

/-- What a misaligned regular load or store outside one granule does (`Cfg.misalignedLdSt`, R101, D19). -/
inductive MisalignedLdSt where
  | trap
  | split
deriving DecidableEq, Repr

/-- One region of the PMA table (R84). `misalignedExc` is `Cfg.misalignedExcKind` at this region (R100). -/
structure PmaRegion where
  base : Nat
  size : Nat
  kind : RegionKind
  readWidths : List Nat
  writeWidths : List Nat
  exec : Bool
  amo : AmoLevel
  rsrv : RsrvLevel
  mag : Option Nat
  coherent : Bool
  memModel : MemModel
  ioOrder : IoOrder
  cacheable : Bool
  readIdempotent : Bool
  writeIdempotent : Bool
  misalignedExc : MisalignedExc
deriving DecidableEq, Repr

/-- The platform record (R7 to R14). Every field is OPEN in the spec; `hardwired` lists the PMP entries whose
privileges the platform hardwires (R50 (d), U12), none by default. -/
structure Cfg where
  mxlen : Mxlen
  npmp : PmpCount
  grain : Nat
  pabits : Nat
  pma : List PmaRegion
  hardwired : List Nat
  misalignedLdSt : MisalignedLdSt
  misalignedFirst : Bool
  scFailChecks : Bool
  implicitReadRegionLog2 : Nat
  hasPagedVM : Bool
  flen : Flen
  resetVector : Word
deriving DecidableEq, Repr

/-! ## Free values (93_implementation_defined.md Part 1, K3; notes/assumptions/5.md)

Each is applied to a counter the step advances, so that two draws of one run are independent: `State.scDraws` for the
booleans of store-conditionals, `State.draws` for every other value. -/

/-- `ok` of a store-conditional (R232, R233), by the address it stores to, so that a promise may be made of one location
and not of another (R91, R235), and by how many such booleans have been drawn. -/
opaque Config.scOk : Nat → Nat → Bool

/-- Whether a held reservation survives a store, an AMO or a trap (R233). -/
opaque Config.keepReservation : Nat → Bool

/-- The value a read of a non-idempotent region returns (R120); its low `8n` bits are used. -/
opaque Config.deviceValue : Nat → BitVec 128

/-- The value a floating-point store writes (R259); its low `8n` bits are used. -/
opaque Config.fpStoreValue : Nat → BitVec 128

/-- The choices that fix the partition and the order of an access made in parts (R101, R262). -/
opaque Config.splitChoices : Nat → List Nat

/-- Whether an access wider than XLEN is made as one operation (R262). -/
opaque Config.wideAsOne : Nat → Bool

/-- Which of the current PMP registers and the stale snapshots a cached check uses (R147). -/
opaque Config.pmpView : Nat → Nat

/-- The chip's choice of the lane stored for an illegal `pmpcfg` write, by entry, old and written value (R50). -/
opaque Config.legalizedLane : Nat → Byte → Byte → Byte

/-! ## The platform of `State.reset` (notes/assumptions/2.md) -/

/-- The region `RAM` of 95_test_vectors.md section 0. -/
def PmaRegion.vectorRam : PmaRegion :=
  { base := 0x80000000, size := 0x10000, kind := .mainMemory
    readWidths := [1, 2, 4, 8, 16], writeWidths := [1, 2, 4, 8, 16], exec := true
    amo := .amoArithmetic, rsrv := .rsrvEventual, mag := none
    coherent := true, memModel := .rvwmo, ioOrder := .relaxed, cacheable := true
    readIdempotent := true, writeIdempotent := true, misalignedExc := .addressMisaligned }

/-- The region `RAMG` of 95_test_vectors.md section 0: as `RAM`, with MAG16. -/
def PmaRegion.vectorRamG : PmaRegion :=
  { PmaRegion.vectorRam with base := 0x80010000, mag := some 16 }

/-- The region `IO` of 95_test_vectors.md section 0. -/
def PmaRegion.vectorIo : PmaRegion :=
  { base := 0x10000000, size := 0x1000, kind := .io
    readWidths := [1, 2, 4], writeWidths := [1, 2, 4], exec := false
    amo := .amoLogical, rsrv := .rsrvNone, mag := none
    coherent := true, memModel := .rvwmo, ioOrder := .strong 1, cacheable := false
    readIdempotent := false, writeIdempotent := false, misalignedExc := .accessFault }

/-- The test platform `TP` of 95_test_vectors.md section 0, for a given `MXLEN` and `FLEN`. -/
def Cfg.vectors (mxlen : Mxlen) (flen : Flen) : Cfg :=
  { mxlen := mxlen, npmp := .sixteen, grain := 0
    pabits := match mxlen with | .rv32 => 34 | .rv64 => 56
    pma := [PmaRegion.vectorRam, PmaRegion.vectorRamG, PmaRegion.vectorIo]
    hardwired := [], misalignedLdSt := .trap, misalignedFirst := true, scFailChecks := false
    implicitReadRegionLog2 := 6, hasPagedVM := false, flen := flen, resetVector := 0x80000000 }

end Sys2Proof
end

