-- ==== Sys2Proof/Machine/State.lean ====
section
/-! DEFINITION. The state of the hart as plain data (10_state.md), the exceptions, faults and refusals, and reset. -/

namespace Sys2Proof.Machine

/-- The privilege modes (R34, R307). -/
inductive Priv where
  | machine
  | supervisor
  | user
deriving DecidableEq, Repr

/-- The type of an access as the PMP sees it (R17): read, write, execute. -/
inductive AccessType where
  | read
  | write
  | execute
deriving DecidableEq, Repr

/-- The exceptions the rules raise (R290, R292): an access fault or an address-misaligned exception of an access
type, and the illegal-instruction exception. -/
inductive Exc where
  | accessFault (t : AccessType)
  | addrMisaligned (t : AccessType)
  | illegalInstruction
deriving DecidableEq, Repr

/-- `Trap(cause, tval)`, the outcome of a step in which a rule raised (R19, R302, R303). -/
structure Trap where
  exc : Exc
  tval : Word
deriving DecidableEq, Repr

/-- Physical memory: (address, byte) pairs in the canonical form of Machine/Memory.lean (R66). -/
abbrev Memory := List Host.Cell

/-- The PMP registers: the 64 configuration bytes and the 64 stored address values (R38, R45, R53, R54). -/
structure PmpRegs where
  cfg : Vector Byte 64
  addr : Vector Word 64
deriving DecidableEq, Repr

/-- A reservation: the physical address and the width in bytes of the load-reserved that set it (R63, R231). -/
structure Reservation where
  addr : Nat
  width : Nat
deriving DecidableEq, Repr

/-- One access to a non-idempotent device, recorded for the environment (R120): address, width in bytes, and the value
written, or `none` for a read. -/
structure DeviceEvent where
  addr : Nat
  width : Nat
  written : Option Nat
deriving DecidableEq, Repr

/-- The state of the machine. `cfg` is the platform record, which no step changes (notes/assumptions/2.md); `draws` and
`scDraws` are the model's own counters of free values drawn (notes/assumptions/5.md). -/
structure State where
  /-- The platform (R7 to R14). -/
  cfg : Cfg
  /-- `x0` to `x31` (R30); read and written through `readReg` and `writeReg` only (R31). -/
  x : Vector Word 32
  /-- The program counter (R32). -/
  pc : Word
  /-- The current privilege mode (R34). -/
  priv : Priv
  /-- `mstatus.MPRV` (R35). -/
  mprv : Bool
  /-- `mstatus.MPP` (R35). -/
  mpp : Priv
  /-- `pmpcfg[i]` and `pmpaddr[i]` (R38). -/
  pmp : PmpRegs
  /-- The reservation (R63). -/
  resv : Option Reservation
  /-- The PMP snapshots a cached check may still use (R64), oldest first. -/
  stale : List PmpRegs
  /-- Physical memory (R66). -/
  mem : Memory
  /-- The byte addresses the hart has stored to, strictly rising (R151). -/
  stored : List Nat
  /-- The device accesses recorded for the environment, oldest first (R120). -/
  events : List DeviceEvent
  /-- The trap handed to the environment, if the last step trapped (R303). -/
  trap : Option Trap
  /-- How many free values have been drawn, but for those `scDraws` counts. -/
  draws : Nat
  /-- How many booleans `ok` of store-conditionals have been drawn (R232). -/
  scDraws : Nat
deriving DecidableEq, Repr

/-- Why the machine stops. -/
inductive Fault where
  /-- Raised by `step` in a state whose last step trapped: what the hart does next is the environment's (R303, R308).
  Safe: the model stops where a hart with a handler goes on. -/
  | trapHandedToEnvironment
deriving DecidableEq, Repr

/-- Situations the spec gives no meaning (R311). Safe, all of them: the model stops where a chip may go on. -/
inductive Refusal where
  /-- An instruction rejected by name in `exec`; no arm uses it. Safe. -/
  | notModelled (mnemonic : String)
  /-- Raised by `step`: the fetched word matches no row of the opcode table (R179). Safe. -/
  | notInScope
  /-- Raised by the CSR instructions: the CSR is not a PMP CSR (R58, R281). Safe. -/
  | csrOutOfScope (csr : Nat)
  /-- Raised by an access to a main-memory region with an implementation-defined memory model (R107, R140). Safe. -/
  | implDefinedMemoryModel
  /-- Raised by the fetch of a byte the hart has stored to (R151). Safe. -/
  | selfModifyingCode
  /-- Raised by `step` in a state whose pc is not a multiple of 4 (R32). Safe. -/
  | misalignedPc
deriving DecidableEq, Repr

/-- The PMP registers after reset: `L = 0` and `A = OFF` (R67); the bits and addresses the spec leaves unspecified are zero
(DESIGN CHOICE, notes/assumptions/3.md). -/
def PmpRegs.reset : PmpRegs := { cfg := Vector.replicate 64 0, addr := Vector.replicate 64 0 }

/-- The state after reset on a platform (R67, R331): the values the spec gives, and the values of
notes/assumptions/3.md and notes/assumptions/4.md where it gives none. -/
def State.resetOn (c : Cfg) : State :=
  { cfg := c, x := Vector.replicate 32 0, pc := c.resetVector, priv := .machine, mprv := false, mpp := .user
    pmp := PmpRegs.reset, resv := none, stale := [], mem := [], stored := [], events := []
    trap := none, draws := 0, scDraws := 0 }

/-- The state after reset, on the platform of notes/assumptions/2.md. -/
def State.reset : State := State.resetOn (Cfg.vectors .rv64 .f128)

end Sys2Proof.Machine
end

