-- ==== Sys2Proof/Machine/Memory.lean ====
section
/-! DEFINITION. Physical memory as a canonical list of cells, little-endian values (20_memory.md R80 to R83), and the
set of stored addresses (R151). -/

namespace Sys2Proof.Machine

/-- What an address no write has touched reads as (DESIGN CHOICE, notes/assumptions/4.md). -/
def unlistedByte : Byte := 0

/-- The canonical form: addresses strictly rising, no entry equal to what an unlisted address reads as. -/
abbrev Memory.wf (m : Memory) : Prop :=
  m.Pairwise (fun c d => c.1 < d.1) ∧ ∀ c ∈ m, c.2 ≠ unlistedByte

/-- The byte at an address. -/
def Memory.get : Memory → Nat → Byte
  | [], _ => unlistedByte
  | (a, b) :: rest, i => if i = a then b else Memory.get rest i

/-- One cell in front of a list, left out when its byte is what an unlisted address reads as. -/
def Memory.cons (i : Nat) (v : Byte) (m : Memory) : Memory :=
  if v = unlistedByte then m else (i, v) :: m

/-- Store one byte, keeping the canonical form. -/
def Memory.set : Memory → Nat → Byte → Memory
  | [], i, v => Memory.cons i v []
  | (a, b) :: rest, i, v =>
    if i < a then Memory.cons i v ((a, b) :: rest)
    else if i = a then Memory.cons i v rest
    else (a, b) :: Memory.set rest i v

/-- The value of a little-endian list of bytes. -/
def leNat : List Byte → Nat
  | [] => 0
  | b :: rest => b.toNat + 256 * leNat rest

/-- The `n` bytes of an `8n`-bit value, least significant first (R82). -/
def leBytes (n : Nat) (v : BitVec (8 * n)) : List Byte :=
  (List.range n).map fun k => v.extractLsb' (8 * k) 8

/-- `MemRead(pa, n)` (R82): no check is made here. -/
def Memory.read (m : Memory) (pa n : Nat) : BitVec (8 * n) :=
  BitVec.ofNat (8 * n) (leNat ((List.range n).map fun k => Memory.get m (pa + k)))

/-- Store bytes at rising addresses. -/
def Memory.setBytes : Memory → Nat → List Byte → Memory
  | m, _, [] => m
  | m, pa, b :: rest => Memory.setBytes (Memory.set m pa b) (pa + 1) rest

/-- `MemWrite(pa, n, v)` (R82): no check is made here. -/
def Memory.write (m : Memory) (pa n : Nat) (v : BitVec (8 * n)) : Memory :=
  Memory.setBytes m pa (leBytes n v)

/-- Insert an address into a strictly rising list. -/
def insertAddr : List Nat → Nat → List Nat
  | [], i => [i]
  | a :: rest, i => if i < a then i :: a :: rest else if i = a then a :: rest else a :: insertAddr rest i

/-- Insert the addresses `pa .. pa + n - 1`. -/
def insertAddrs (l : List Nat) (pa : Nat) : Nat → List Nat
  | 0 => l
  | n + 1 => insertAddr (insertAddrs l pa n) (pa + n)

end Sys2Proof.Machine
end

