-- ==== Sys2Proof/Machine/Ops.lean ====
section
/-! DEFINITION. The named operations every meaning is written with: widths, registers, the pc, free values, raising and
taking an exception, and the result of an access. -/

namespace Sys2Proof.Machine

/-! ## Widths (00_scope.md R7, R10, R13, R15) -/

/-- `MXLEN`, which is `XLEN` (R7, D2). -/
def xlen (c : Cfg) : Nat :=
  match c.mxlen with
  | .rv32 => 32
  | .rv64 => 64

/-- `PALEN` (R10). -/
def palen (c : Cfg) : Nat :=
  match c.mxlen with
  | .rv32 => 34
  | .rv64 => 56

/-- `NPMP` (R8). -/
def npmp (c : Cfg) : Nat :=
  match c.npmp with
  | .zero => 0
  | .sixteen => 16
  | .sixtyFour => 64

/-- `Cfg.FLEN` (R13). -/
def flen (c : Cfg) : Nat :=
  match c.flen with
  | .absent => 0
  | .f32 => 32
  | .f64 => 64
  | .f128 => 128

/-- The low XLEN bits of a slot, the rest zero. -/
def truncX (c : Cfg) (v : Word) : Word :=
  match c.mxlen with
  | .rv32 => (v.setWidth 32).setWidth 64
  | .rv64 => v

/-- `sext_XLEN` (R15). -/
def sextX {k : Nat} (c : Cfg) (v : BitVec k) : Word := truncX c (v.signExtend 64)

/-- `zext_XLEN` (R15). -/
def zextX {k : Nat} (c : Cfg) (v : BitVec k) : Word := truncX c (v.setWidth 64)

/-! ## Registers and the pc (10_state.md R30 to R33) -/

/-- `x[i]`: `x0` reads zero (R31). -/
def readReg (s : State) (r : Reg) : Word :=
  if r = 0 then 0 else truncX s.cfg (s.x[r.toNat]'r.isLt)

/-- `x[i] <- v`: a write to `x0` is discarded (R31). -/
def writeReg (r : Reg) (v : Word) (s : State) : State :=
  if r = 0 then s else { s with x := s.x.set r.toNat (truncX s.cfg v) r.isLt }

/-- The address of the instruction being executed (R32). -/
def curPc (s : State) : Word := truncX s.cfg s.pc

/-- `pc <- pc + 4` modulo `2^XLEN` (R19, R32, R33). -/
def advance (s : State) : State := { s with pc := truncX s.cfg (curPc s + 4) }

/-! ## Free values (notes/assumptions/5.md) -/

/-- One free value has been drawn. -/
def tick (s : State) : State := { s with draws := s.draws + 1 }

/-- The boolean `ok` of a store-conditional has been drawn (R232). -/
def tickSc (s : State) : State := { s with scDraws := s.scDraws + 1 }

/-- `resv <- either resv or None`, the choice free (R233). -/
def freeResv (s : State) : State :=
  match s.resv with
  | none => s
  | some _ =>
    { s with resv := if Config.keepReservation s.draws then s.resv else none, draws := s.draws + 1 }

/-! ## Exceptions (60_exceptions.md) -/

/-- The cause code of an exception (R290). -/
def Exc.code : Exc → Nat
  | .addrMisaligned .execute => 0
  | .accessFault .execute => 1
  | .illegalInstruction => 2
  | .addrMisaligned .read => 4
  | .accessFault .read => 5
  | .addrMisaligned .write => 6
  | .accessFault .write => 7

/-- TAKING AN EXCEPTION (R303, R304, D21): the outcome `Trap(cause, tval)` is handed to the environment. The state is
the one at the raise: `pc` stays at the instruction that raised, no register is written, the reservation is kept or
dropped, the choice free (R233). -/
def takeTrap (t : Trap) (s : State) : State := { freeResv s with trap := some t }

/-- What an access or an instruction body gives: a value, an exception with the state at the raise, or a refusal. -/
inductive Res (α : Type) where
  | ok (a : α) (s : State)
  | raise (t : Trap) (s : State)
  | refuse (q : Refusal)
deriving DecidableEq, Repr

/-- Sequencing: a raise or a refusal ends the instruction (R16). -/
def Res.bind {α β : Type} (r : Res α) (f : α → State → Res β) : Res β :=
  match r with
  | .ok a s => f a s
  | .raise t s => .raise t s
  | .refuse q => .refuse q

/-- The outcome of an instruction (R19): the next state, the state that holds the trap, or the refusal. -/
def Res.finish (r : Res Unit) : Host.Outcome State Fault Refusal :=
  match r with
  | .ok _ s => .next s
  | .raise t s => .next (takeTrap t s)
  | .refuse q => .refused q

/-- Completion: the pc moves past the instruction (R19 (4)). -/
def complete (s : State) : Res Unit := .ok () (advance s)

/-- `raise IllegalInstruction`: the trap value is the instruction word, zero-extended (R296, R302). -/
def illegal (i : Instr) (s : State) : Host.Outcome State Fault Refusal :=
  .next (takeTrap ⟨.illegalInstruction, (encode i).setWidth 64⟩ s)

end Sys2Proof.Machine
end

