-- ==== Sys2Proof/Machine/Pma.lean ====
section
/-! DEFINITION. Physical memory attributes (20_memory.md sections 2 to 7): the region of an address, the atomicity,
reservability, width and execute checks, the misaligned atomicity granule, idempotency, and the implicit reads a chip
may add. -/

namespace Sys2Proof.Machine

/-- `PmaOf(pa)` (R11, R16): the region that holds the address, `none` for a vacant address. -/
def pmaOf (c : Cfg) (pa : Nat) : Option PmaRegion :=
  c.pma.find? fun r => decide (r.base ≤ pa) && decide (pa < r.base + r.size)

/-- `SameRegion(q, m)` (R145) for the region `r` that holds `q`. -/
def sameRegion (r : PmaRegion) (q m : Nat) : Bool := decide (q + m ≤ r.base + r.size)

/-- The kinds of access (R17). `ptw` is the implicit page-table access, never generated here (D14). -/
inductive AccessKind where
  | fetch
  | load
  | store
  | lr
  | sc
  | amo (op : AmoOp)
  | ptw (writes : Bool)
deriving DecidableEq, Repr

/-- The access type of a kind (R17, R141): what the PMP is asked for and whose exception a failure raises. -/
def kindType : AccessKind → AccessType
  | .fetch => .execute
  | .load | .lr => .read
  | .store | .sc | .amo _ => .write
  | .ptw writes => if writes then .write else .read

/-- The order of the AMO levels (R84, R86). -/
def amoRank : AmoLevel → Nat
  | .amoNone => 0
  | .amoSwap => 1
  | .amoLogical => 2
  | .amoArithmetic => 3

/-- The class an AMO needs (R87). -/
def amoClass : AmoOp → AmoLevel
  | .amoswap => .amoSwap
  | .amoand | .amoor | .amoxor => .amoLogical
  | .amoadd | .amomin | .amomax | .amominu | .amomaxu => .amoArithmetic

/-- `AmoPmaOk` (R88, R89). -/
def amoPmaOk (r : PmaRegion) (op : AmoOp) (n : Nat) : Bool :=
  decide (amoRank (amoClass op) ≤ amoRank r.amo) && r.readWidths.contains n && r.writeWidths.contains n

/-- `RsrvPmaOk` (R92). -/
def rsrvPmaOk (r : PmaRegion) (n : Nat) : Bool :=
  r.rsrv != .rsrvNone && r.readWidths.contains n && r.writeWidths.contains n

/-- `PmaOk` (R141). -/
def pmaOk (kind : AccessKind) (r : PmaRegion) (m : Nat) : Bool :=
  match kind with
  | .fetch => r.exec
  | .load => r.readWidths.contains m
  | .store => r.writeWidths.contains m
  | .lr | .sc => rsrvPmaOk r m
  | .amo op => amoPmaOk r op m
  | .ptw writes => if writes then r.writeWidths.contains m else r.readWidths.contains m

/-- `InOneGranule(pa, n)` (R97). -/
def inOneGranule (c : Cfg) (pa n : Nat) : Bool :=
  match pmaOf c pa with
  | none => false
  | some r =>
    match r.mag with
    | none => false
    | some g => pa / g == (pa + n - 1) / g

/-- The region refuses its accesses: main memory with an implementation-defined memory model (R107, R140). -/
def refusesModel (r : PmaRegion) : Bool := r.kind == .mainMemory && r.memModel == .implDefined

/-- Reads of the region are idempotent (R118): main memory always is. -/
def readsIdempotent (r : PmaRegion) : Bool := r.kind == .mainMemory || r.readIdempotent

/-- Writes of the region are idempotent (R118). -/
def writesIdempotent (r : PmaRegion) : Bool := r.kind == .mainMemory || r.writeIdempotent

/-- A non-idempotent device stands behind the address (R120). -/
def isDevice (c : Cfg) (pa : Nat) : Bool :=
  match pmaOf c pa with
  | none => false
  | some r => !(readsIdempotent r && writesIdempotent r)

/-- A read at the address returns a free value (R120). -/
def readIsFree (c : Cfg) (pa : Nat) : Bool :=
  match pmaOf c pa with
  | none => false
  | some r => !readsIdempotent r

/-- The bytes a chip may additionally read when it fetches at `pc` (R122, R123). The model reads none of them (R124,
notes/assumptions/23.md). -/
def mayAlsoRead (c : Cfg) (pc b : Nat) : Bool :=
  let k := c.implicitReadRegionLog2
  b >>> k == pc >>> k || b >>> k == (pc >>> k + 1) % 2 ^ (xlen c - k)

end Sys2Proof.Machine
end

