-- ==== Sys2Proof/Machine/Pmp.lean ====
section
/-! DEFINITION. Physical memory protection (20_memory.md section 8) and its registers (10_state.md section 6): fields,
legalisation, locks, the values read, address matching, priority and permission. -/

namespace Sys2Proof.Machine

/-! ## The configuration byte (R45 to R49) -/

/-- `L` (R49). -/
def laneL (v : Byte) : Bool := v.getLsbD 7
/-- `X` (R46). -/
def laneX (v : Byte) : Bool := v.getLsbD 2
/-- `W` (R46). -/
def laneW (v : Byte) : Bool := v.getLsbD 1
/-- `R` (R46). -/
def laneR (v : Byte) : Bool := v.getLsbD 0

/-- The address-matching modes (R48). -/
inductive MatchMode where
  | off
  | tor
  | na4
  | napot
deriving DecidableEq, Repr

/-- The `A` field (R48): OFF 0, TOR 1, NA4 2, NAPOT 3. -/
def laneMode (v : Byte) : MatchMode :=
  match v.getLsbD 4, v.getLsbD 3 with
  | false, false => .off
  | false, true => .tor
  | true, false => .na4
  | true, true => .napot

/-- `A[1]` (R55). -/
def laneA1 (v : Byte) : Bool := v.getLsbD 4

/-- A legal configuration byte (R50 (a) to (c)): bits 6:5 zero, not `R = 0` with `W = 1`, not NA4 when `G ≥ 1` (C1). -/
def legalLane (c : Cfg) (v : Byte) : Bool :=
  !v.getLsbD 6 && !v.getLsbD 5 && (laneR v || !laneW v) && (c.grain == 0 || laneMode v != .na4)

/-- `Cfg.legalizeCfg` (R50): a hardwired entry keeps its value; a legal value is stored; for an illegal one the chip
chooses a legal value (free, notes/assumptions/13.md). -/
def legalizeCfg (c : Cfg) (i : Nat) (old written : Byte) : Byte :=
  if c.hardwired.contains i then old
  else
    let v := written &&& 0x9F
    if legalLane c v then v
    else
      let d := Config.legalizedLane i old written
      if legalLane c d then d else 0

/-- `Cfg.legalizeAddr` (R56, D5): the low `PABITS - 2` bits are stored. -/
def legalizeAddr (c : Cfg) (v : Word) : Word := BitVec.ofNat 64 (v.toNat % 2 ^ (c.pabits - 2))

/-! ## Reading the registers (R52, R55, R60) -/

/-- The configuration byte of entry `i` as it reads: zero for an unimplemented entry (R52, R60). -/
def readLane (c : Cfg) (p : PmpRegs) (i : Nat) : Byte :=
  if h : i < 64 then (if i < npmp c then p.cfg[i] else 0) else 0

/-- The stored address value of entry `i`, an address without its two low bits: `PALEN - 2` bits (R53, R54), zero for an
unimplemented entry (R60). -/
def storedAddr (c : Cfg) (p : PmpRegs) (i : Nat) : Nat :=
  if h : i < 64 then (if i < npmp c then p.addr[i].toNat % 2 ^ (palen c - 2) else 0) else 0

/-- `ReadAddr(i)` as a number (R55): NAPOT and NA4 read bits `[G-2:0]` as ones when `G ≥ 2`, OFF and TOR read bits
`[G-1:0]` as zeros when `G ≥ 1` (C1). -/
def readAddrNat (c : Cfg) (p : PmpRegs) (i : Nat) : Nat :=
  if npmp c ≤ i then 0
  else if laneA1 (readLane c p i) then
    (if 2 ≤ c.grain then storedAddr c p i ||| (2 ^ (c.grain - 1) - 1) else storedAddr c p i)
  else
    (if 1 ≤ c.grain then (storedAddr c p i >>> c.grain) <<< c.grain else storedAddr c p i)

/-- `ReadAddr(i)` (R55). -/
def readAddr (c : Cfg) (p : PmpRegs) (i : Nat) : Word := truncX c (BitVec.ofNat 64 (readAddrNat c p i))

/-! ## Writing the registers (R51, R57) -/

/-- `WriteCfg(i, w)` (R51): an unimplemented or locked entry ignores the write. -/
def writeLane (c : Cfg) (i : Nat) (w : Byte) (p : PmpRegs) : PmpRegs :=
  if h : i < 64 then
    (if npmp c ≤ i then p
     else if laneL p.cfg[i] then p
     else { p with cfg := p.cfg.set i (legalizeCfg c i p.cfg[i] w) })
  else p

/-- A write to `pmpaddr[i]` is ignored (R57): entry unimplemented, locked, hardwired (U12), or the next entry is a locked
TOR entry. -/
def addrFrozen (c : Cfg) (p : PmpRegs) (i : Nat) : Bool :=
  decide (npmp c ≤ i) || laneL (readLane c p i) || c.hardwired.contains i
    || (decide (i + 1 < npmp c) && laneL (readLane c p (i + 1)) && laneMode (readLane c p (i + 1)) == .tor)

/-- `WriteAddr(i, v)` (R57). -/
def writeAddr (c : Cfg) (i : Nat) (v : Word) (p : PmpRegs) : PmpRegs :=
  if h : i < 64 then
    (if addrFrozen c p i then p else { p with addr := p.addr.set i (legalizeAddr c v) })
  else p

/-! ## Address matching (R126 to R130), for a byte address `y` -/

/-- `torval(j)` (R126): the low `G` bits do not take part. -/
def torval (c : Cfg) (p : PmpRegs) (j : Nat) : Nat := (storedAddr c p j >>> c.grain) <<< c.grain

/-- The bottom of a TOR range (R126): the preceding entry's value, zero for entry 0. -/
def torBottom (c : Cfg) (p : PmpRegs) (i : Nat) : Nat :=
  match i with
  | 0 => 0
  | j + 1 => torval c p j

/-- `MatchTOR(i, y)` (R126, C13). -/
def matchTor (c : Cfg) (p : PmpRegs) (i y : Nat) : Bool :=
  decide (torBottom c p i ≤ y / 4) && decide (y / 4 < torval c p i)

/-- `ctz1(v)` (R15): the number of consecutive one bits from bit 0 upward, at most `fuel`. -/
def ctz1 : Nat → Nat → Nat
  | 0, _ => 0
  | fuel + 1, v => if v % 2 = 1 then ctz1 fuel (v / 2) + 1 else 0

/-- `MatchNA4(i, y)` (R128). -/
def matchNa4 (c : Cfg) (p : PmpRegs) (i y : Nat) : Bool := y / 4 == (readAddr c p i).toNat

/-- `MatchNAPOT(i, y)` (R128), on the value as read. -/
def matchNapot (c : Cfg) (p : PmpRegs) (i y : Nat) : Bool :=
  let a := (readAddr c p i).toNat
  let t := ctz1 (xlen c) a
  y >>> (t + 3) == a >>> (t + 1)

/-- `Match(i, y)` (R129). -/
def matchEntry (c : Cfg) (p : PmpRegs) (i y : Nat) : Bool :=
  match laneMode (readLane c p i) with
  | .off => false
  | .tor => matchTor c p i y
  | .na4 => matchNa4 c p i y
  | .napot => matchNapot c p i y

/-! ## Priority and permission (R134 to R139) -/

/-- `Permit(c, t, p)` (R137, R138). -/
def permit (v : Byte) (t : AccessType) (p : Priv) : Bool :=
  if !laneL v && p == .machine then true
  else
    match t with
    | .read => laneR v
    | .write => laneW v
    | .execute => laneX v

/-- `NoMatch(p)` (R139). -/
def noMatch (c : Cfg) (p : Priv) : Bool := p == .machine || npmp c == 0

/-- Entry `i` matches some byte of the access. -/
def hitsSome (c : Cfg) (p : PmpRegs) (i pa n : Nat) : Bool := (List.range n).any fun k => matchEntry c p i (pa + k)

/-- Entry `i` matches every byte of the access. -/
def hitsAll (c : Cfg) (p : PmpRegs) (i pa n : Nat) : Bool := (List.range n).all fun k => matchEntry c p i (pa + k)

/-- The loop of `PmpCheck` (R136) over the entries still to be tried, in order. -/
def pmpScan (c : Cfg) (p : PmpRegs) (pa n : Nat) (t : AccessType) (mode : Priv) : List Nat → Bool
  | [] => noMatch c mode
  | i :: rest =>
    if !hitsSome c p i pa n then pmpScan c p pa n t mode rest
    else if !hitsAll c p i pa n then false
    else permit (readLane c p i) t mode

/-- `PmpCheck(pa, n, t, p)` (R136): the lowest-numbered entry that matches any byte decides (R135). -/
def pmpCheck (c : Cfg) (p : PmpRegs) (pa n : Nat) (t : AccessType) (mode : Priv) : Bool :=
  pmpScan c p pa n t mode (List.range (npmp c))

end Sys2Proof.Machine
end

