-- ==== Sys2Proof/Machine/Access.lean ====
section
/-! DEFINITION. The access pipeline (20_memory.md sections 4 and 9): effective privilege, the alignment stage, the check
stage, `Access`, reads and writes with their device side, and accesses made in parts. -/

namespace Sys2Proof.Machine

/-- `EffPriv(kind)` (R134). -/
def effPriv (s : State) : AccessKind → Priv
  | .fetch => s.priv
  | .ptw _ => .supervisor
  | _ => if s.priv == .machine && s.mprv then s.mpp else s.priv

/-- `Translatable(va, n)` (R81, R145): no carry out of XLEN bits, and for RV64 no byte above `2^PALEN`. -/
def translatable (c : Cfg) (va : Word) (n : Nat) : Bool :=
  decide (va.toNat + n ≤ 2 ^ xlen c) && decide (va.toNat + n ≤ 2 ^ palen c)

/-! ## Alignment (R93 to R103) -/

/-- `Misaligned(kind, va)` (R100): the region's choice of exception; an access fault at a vacant address. -/
def misalignedExc (c : Cfg) (kind : AccessKind) (va : Word) : Exc :=
  match pmaOf c va.toNat with
  | none => .accessFault (kindType kind)
  | some r =>
    match r.misalignedExc with
    | .addressMisaligned => .addrMisaligned (kindType kind)
    | .accessFault => .accessFault (kindType kind)

/-- What the alignment stage decides: one memory operation, several parts, or an exception. -/
inductive Shape where
  | whole
  | parts
  | misaligned (e : Exc)
deriving DecidableEq, Repr

/-- `AlignStage(kind, va, pa, n)` (R103). The granule helps loads and stores of at most MXLEN bits only (R96). A
misaligned fetch does not arise (R105). -/
def alignStage (c : Cfg) (kind : AccessKind) (va : Word) (n : Nat) : Shape :=
  if va.toNat % n = 0 then .whole
  else
    match kind with
    | .amo _ => if inOneGranule c va.toNat n then .whole else .misaligned (misalignedExc c kind va)
    | .load | .store =>
      if decide (8 * n ≤ xlen c) && inOneGranule c va.toNat n then .whole
      else
        match c.misalignedLdSt with
        | .trap => .misaligned (misalignedExc c kind va)
        | .split => .parts
    | .lr | .sc | .fetch | .ptw _ => .misaligned (misalignedExc c kind va)

/-! ## The check stage (R140, R147) -/

/-- The PMP registers a check may use (R64, R147): the current ones and, on a hart with paged virtual memory, every stale
snapshot. -/
def pmpViews (s : State) : List PmpRegs := s.pmp :: (if s.cfg.hasPagedVM then s.stale else [])

/-- The view this check uses: the choice is free when there is more than one (R147). -/
def chosenView (s : State) : PmpRegs :=
  let vs := pmpViews s
  if vs.length ≤ 1 then s.pmp else vs.getD (Config.pmpView s.draws % vs.length) s.pmp

/-- The state after the choice of a view: one free value drawn when there was a choice. -/
def afterView (s : State) : State := if (pmpViews s).length ≤ 1 then s else tick s

/-- `PmpCheckAny(q, m, t, p)` (R147, R150). -/
def pmpCheckAny (s : State) (q m : Nat) (t : AccessType) (p : Priv) : Bool :=
  pmpCheck s.cfg (chosenView s) q m t p

/-- One part of `CheckStage` (R140): the `m` bytes at `va`, all of whose failures raise the access fault of the type with
trap value `va` (R141, R145). -/
def checkPart (kind : AccessKind) (va : Word) (m : Nat) (s : State) : Res Unit :=
  let fail : Trap := ⟨.accessFault (kindType kind), va⟩
  match pmaOf s.cfg va.toNat with
  | none => .raise fail s
  | some r =>
    if !sameRegion r va.toNat m then .raise fail s
    else if refusesModel r then .refuse .implDefinedMemoryModel
    else if !pmpCheckAny s va.toNat m (kindType kind) (effPriv s kind) then .raise fail (afterView s)
    else if !pmaOk kind r m then .raise fail (afterView s)
    else .ok () (afterView s)

/-- `Access(kind, va, n)` (R140). It answers `whole`, or `parts` for a misaligned load or store that is to be made in
parts, each of which is then checked as it is performed. -/
def access (kind : AccessKind) (va : Word) (n : Nat) (s : State) : Res Shape :=
  if !translatable s.cfg va n then .raise ⟨.accessFault (kindType kind), va⟩ s
  else if s.cfg.misalignedFirst then
    match alignStage s.cfg kind va n with
    | .misaligned e => .raise ⟨e, va⟩ s
    | .parts => .ok .parts s
    | .whole => (checkPart kind va n s).bind fun _ s1 => .ok .whole s1
  else
    (checkPart kind va n s).bind fun _ s1 =>
      match alignStage s.cfg kind va n with
      | .misaligned e => .raise ⟨e, va⟩ s1
      | .parts => .ok .parts s1
      | .whole => .ok .whole s1

/-! ## One memory operation (R82, R120) -/

/-- The value a read of `n` bytes at `pa` returns: a free value from a region whose reads are not idempotent (R120). -/
def readValue (s : State) (pa n : Nat) : BitVec (8 * n) :=
  if readIsFree s.cfg pa then (Config.deviceValue s.draws).setWidth (8 * n) else Memory.read s.mem pa n

/-- Record an access for the environment when a device stands behind the address (R120). -/
def recordEvent (pa n : Nat) (written : Option Nat) (s : State) : State :=
  if isDevice s.cfg pa then { s with events := s.events ++ [⟨pa, n, written⟩] } else s

/-- The state after a read of `n` bytes at `pa`. -/
def afterRead (pa n : Nat) (s : State) : State :=
  recordEvent pa n none (if readIsFree s.cfg pa then tick s else s)

/-- A write of `n` bytes at `pa`: the bytes, their record as stored (R151), and the device event (R120). -/
def memWrite (pa n : Nat) (v : BitVec (8 * n)) (s : State) : State :=
  recordEvent pa n (some v.toNat)
    { s with mem := Memory.write s.mem pa n v, stored := insertAddrs s.stored pa n }

/-! ## Accesses made in parts (R101, R143, R262) -/

/-- The size of the next part with `left` bytes to go: one of the access widths (R93) that fits, the choice free. -/
def pickSize (fits : Nat → Bool) (choice left : Nat) : Nat :=
  let sizes := [1, 2, 4, 8].filter fun m => fits m && decide (m ≤ left)
  sizes.getD (choice % sizes.length) 1

/-- A partition of `pa + off .. pa + n - 1` into parts (offset, size) that fit their addresses, by the choices given. -/
def partsFrom : Nat → List Nat → (Nat → Nat → Bool) → Nat → Nat → Nat → List (Nat × Nat)
  | 0, _, _, _, _, _ => []
  | fuel + 1, choices, fits, pa, off, n =>
    if n ≤ off then []
    else
      let m := pickSize (fits (pa + off)) (choices.headD 0) (n - off)
      (off, m) :: partsFrom fuel choices.tail fits pa (off + m) n

/-- A permutation of a list, by the choices given. -/
def reorder {α : Type} : Nat → List Nat → List α → List α
  | 0, _, l => l
  | fuel + 1, choices, l =>
    match l[choices.headD 0 % l.length]? with
    | none => l
    | some a => a :: reorder fuel choices.tail (l.eraseIdx (choices.headD 0 % l.length))

/-- The parts of an access of `n` bytes at `pa` in the order they are performed: every partition into parts that fit, and
every order, is a choice (R101, R262). -/
def splitPlan (fits : Nat → Nat → Bool) (choices : List Nat) (pa n : Nat) : List (Nat × Nat) :=
  let ps := partsFrom n choices fits pa 0 n
  reorder ps.length (choices.drop n) ps

/-- The address of a part. -/
def partAddr (c : Cfg) (va : Word) (off : Nat) : Word := truncX c (va + BitVec.ofNat 64 off)

/-- Perform the parts of a load in order, each by `one`; the value is assembled little-endian (R245). -/
def loadParts (one : Word → (m : Nat) → State → Res (BitVec (8 * m))) (va : Word) (n : Nat) :
    List (Nat × Nat) → BitVec (8 * n) → State → Res (BitVec (8 * n))
  | [], acc, s => .ok acc s
  | (off, m) :: rest, acc, s =>
    (one (partAddr s.cfg va off) m s).bind fun v s1 =>
      loadParts one va n rest (acc ||| (v.setWidth (8 * n) <<< (8 * off))) s1

/-- Perform the parts of a store in order, each by `one`, so that each is written before the next is checked (R143,
R246). -/
def storeParts (one : Word → (m : Nat) → BitVec (8 * m) → State → Res Unit) (va : Word) (n : Nat) (v : BitVec (8 * n)) :
    List (Nat × Nat) → State → Res Unit
  | [], s => .ok () s
  | (off, m) :: rest, s =>
    (one (partAddr s.cfg va off) m (v.extractLsb' (8 * off) (8 * m)) s).bind fun _ s1 => storeParts one va n v rest s1

/-- The access and the read of a part that is made whole. -/
def readWhole (va : Word) (n : Nat) (s : State) : Res (BitVec (8 * n)) :=
  (access .load va n s).bind fun _ s1 => .ok (readValue s1 va.toNat n) (afterRead va.toNat n s1)

/-- The access and the write of a part that is made whole. -/
def writeWhole (va : Word) (n : Nat) (v : BitVec (8 * n)) (s : State) : Res Unit :=
  (access .store va n s).bind fun _ s1 => .ok () (memWrite va.toNat n v s1)

/-- The parts of a misaligned load or store are naturally aligned (R101). -/
def naturalPart (a m : Nat) : Bool := decide (a % m = 0)

/-- The access and the read of a load of `n` bytes (R245). -/
def readData (va : Word) (n : Nat) (s : State) : Res (BitVec (8 * n)) :=
  (access .load va n s).bind fun shape s1 =>
    if shape = .parts then
      loadParts readWhole va n (splitPlan naturalPart (Config.splitChoices s1.draws) va.toNat n) 0 (tick s1)
    else .ok (readValue s1 va.toNat n) (afterRead va.toNat n s1)

/-- The access and the write of a store of `n` bytes (R246). -/
def writeData (va : Word) (n : Nat) (v : BitVec (8 * n)) (s : State) : Res Unit :=
  (access .store va n s).bind fun shape s1 =>
    if shape = .parts then
      storeParts writeWhole va n v (splitPlan naturalPart (Config.splitChoices s1.draws) va.toNat n) (tick s1)
    else .ok () (memWrite va.toNat n v s1)

/-- Alignment stops the access (R103). -/
def stopsAlignment (c : Cfg) (kind : AccessKind) (va : Word) (n : Nat) : Bool :=
  match alignStage c kind va n with
  | .misaligned _ => true
  | .whole | .parts => false

/-- The parts of an access wider than XLEN (R262): XLEN/8 bytes or smaller, aligned or not, but not stopped by alignment,
for "The exception of a failing part is the access-fault of the access type" (notes/assumptions/9.md). -/
def widePart (c : Cfg) (kind : AccessKind) (a m : Nat) : Bool :=
  decide (8 * m ≤ xlen c) && !stopsAlignment c kind (BitVec.ofNat 64 a) m

/-- An access wider than XLEN is made by one `Access` of its whole width (R262): by choice; or because it is
untranslatable or stopped by alignment, which that `Access` tells, in the order of `misalignedFirst`, before any part is
performed (R262, R300, R301). -/
def wideIsWhole (s : State) (kind : AccessKind) (va : Word) (n : Nat) : Bool :=
  Config.wideAsOne s.draws || !translatable s.cfg va n || stopsAlignment s.cfg kind va n

/-- `WideAccess(Load, va, n)` (R262): whole, or in parts each with its own `Access`, the choice free. -/
def wideRead (va : Word) (n : Nat) (s : State) : Res (BitVec (8 * n)) :=
  if wideIsWhole s .load va n then readData va n (tick s)
  else
    loadParts readData va n (splitPlan (widePart s.cfg .load) (Config.splitChoices (s.draws + 1)) va.toNat n) 0
      (tick (tick s))

/-- `WideAccess(Store, va, n)` writing `v` (R262). -/
def wideWrite (va : Word) (n : Nat) (v : BitVec (8 * n)) (s : State) : Res Unit :=
  if wideIsWhole s .store va n then writeData va n v (tick s)
  else
    storeParts writeData va n v (splitPlan (widePart s.cfg .store) (Config.splitChoices (s.draws + 1)) va.toNat n)
      (tick (tick s))

/-! ## Instruction fetch (R19 (1), R83, R151) -/

/-- One of the `n` bytes at `pa` has been stored to by the hart (R151). -/
def touchesStored (s : State) (pa n : Nat) : Bool := (List.range n).any fun k => s.stored.contains (pa + k)

/-- Fetch the word at the pc: the check pipeline, the refusal of a stored byte, the read. -/
def fetch (s : State) : Res (BitVec 32) :=
  (access .fetch (curPc s) 4 s).bind fun _ s1 =>
    if touchesStored s1 (curPc s).toNat 4 then .refuse .selfModifyingCode
    else .ok (readValue s1 (curPc s).toNat 4) (afterRead (curPc s).toNat 4 s1)

end Sys2Proof.Machine
end

