-- ==== Sys2Proof/Machine/Operands.lean ====
section
/-! DEFINITION. Operand forms (30_encoding.md R172 to R176): effective addresses, immediates, the data sources of stores
and AMOs, and the combining function of each AMO. -/

namespace Sys2Proof.Machine

/-- `x[rs1] + imm` modulo `2^XLEN`, the 12-bit immediate sign-extended (R174, R175, R244). -/
def effAddr (s : State) (rs1 : Reg) (imm : BitVec 12) : Word := truncX s.cfg (readReg s rs1 + imm.signExtend 64)

/-- `x[rs2][8n-1 : 0]` (R202, R232, R246). -/
def source (s : State) (rs2 : Reg) (n : Nat) : BitVec (8 * n) := (readReg s rs2).setWidth (8 * n)

/-- The zero-extended immediate of `csrrwi`, `csrrsi`, `csrrci` (R176). -/
def uimmValue (uimm : BitVec 5) : Word := uimm.setWidth 64

/-- `f_op(old, src)`, the data operation of an AMO (R204 to R221). -/
def amoCombine {k : Nat} (op : AmoOp) (old src : BitVec k) : BitVec k :=
  match op with
  | .amoswap => src
  | .amoadd => old + src
  | .amoxor => old ^^^ src
  | .amoand => old &&& src
  | .amoor => old ||| src
  | .amomin => if old.slt src then old else src
  | .amomax => if old.slt src then src else old
  | .amominu => if old.ult src then old else src
  | .amomaxu => if old.ult src then src else old

end Sys2Proof.Machine
end

