-- ==== Sys2Proof/Machine/Amo.lean ====
section
/-! DEFINITION. The eighteen AMOs (40_amo.md). `aq` and `rl` are decoded and change nothing in the one-hart model (R201,
D41, D46). -/

namespace Sys2Proof.Machine

/-- `ExecAMO(op, n, rd, rs1, rs2)` (R202). `present` says whether the form exists for this `MXLEN` (R180 item 4); `i` is
the instruction itself, whose word is the trap value of `IllegalInstruction` (R302). Both sources are read before any
write. -/
def amo (op : AmoOp) (n : Nat) (present : Bool) (i : Instr) (rd rs1 rs2 : Reg) (s : State) :
    Host.Outcome State Fault Refusal :=
  if !present then illegal i s
  else
    let va := readReg s rs1
    let src := source s rs2 n
    ((access (.amo op) va n s).bind fun _ s1 =>
      let old := readValue s1 va.toNat n
      let s2 := memWrite va.toNat n (amoCombine op old src) (afterRead va.toNat n s1)
      complete (freeResv (writeReg rd (sextX s.cfg old) s2))).finish

/-- `amoswap.w` (R204). -/
def execAmoswapW (aq rl : Bool) (rd rs1 rs2 : Reg) (s : State) : Host.Outcome State Fault Refusal :=
  amo .amoswap 4 true (.amoswapW aq rl rd rs1 rs2) rd rs1 rs2 s

/-- `amoswap.d` (R205). -/
def execAmoswapD (aq rl : Bool) (rd rs1 rs2 : Reg) (s : State) : Host.Outcome State Fault Refusal :=
  amo .amoswap 8 (s.cfg.mxlen == .rv64) (.amoswapD aq rl rd rs1 rs2) rd rs1 rs2 s

/-- `amoadd.w` (R206). -/
def execAmoaddW (aq rl : Bool) (rd rs1 rs2 : Reg) (s : State) : Host.Outcome State Fault Refusal :=
  amo .amoadd 4 true (.amoaddW aq rl rd rs1 rs2) rd rs1 rs2 s

/-- `amoadd.d` (R207). -/
def execAmoaddD (aq rl : Bool) (rd rs1 rs2 : Reg) (s : State) : Host.Outcome State Fault Refusal :=
  amo .amoadd 8 (s.cfg.mxlen == .rv64) (.amoaddD aq rl rd rs1 rs2) rd rs1 rs2 s

/-- `amoxor.w` (R208). -/
def execAmoxorW (aq rl : Bool) (rd rs1 rs2 : Reg) (s : State) : Host.Outcome State Fault Refusal :=
  amo .amoxor 4 true (.amoxorW aq rl rd rs1 rs2) rd rs1 rs2 s

/-- `amoxor.d` (R209). -/
def execAmoxorD (aq rl : Bool) (rd rs1 rs2 : Reg) (s : State) : Host.Outcome State Fault Refusal :=
  amo .amoxor 8 (s.cfg.mxlen == .rv64) (.amoxorD aq rl rd rs1 rs2) rd rs1 rs2 s

/-- `amoand.w` (R210). -/
def execAmoandW (aq rl : Bool) (rd rs1 rs2 : Reg) (s : State) : Host.Outcome State Fault Refusal :=
  amo .amoand 4 true (.amoandW aq rl rd rs1 rs2) rd rs1 rs2 s

/-- `amoand.d` (R211). -/
def execAmoandD (aq rl : Bool) (rd rs1 rs2 : Reg) (s : State) : Host.Outcome State Fault Refusal :=
  amo .amoand 8 (s.cfg.mxlen == .rv64) (.amoandD aq rl rd rs1 rs2) rd rs1 rs2 s

/-- `amoor.w` (R212). -/
def execAmoorW (aq rl : Bool) (rd rs1 rs2 : Reg) (s : State) : Host.Outcome State Fault Refusal :=
  amo .amoor 4 true (.amoorW aq rl rd rs1 rs2) rd rs1 rs2 s

/-- `amoor.d` (R213). -/
def execAmoorD (aq rl : Bool) (rd rs1 rs2 : Reg) (s : State) : Host.Outcome State Fault Refusal :=
  amo .amoor 8 (s.cfg.mxlen == .rv64) (.amoorD aq rl rd rs1 rs2) rd rs1 rs2 s

/-- `amomin.w` (R214). -/
def execAmominW (aq rl : Bool) (rd rs1 rs2 : Reg) (s : State) : Host.Outcome State Fault Refusal :=
  amo .amomin 4 true (.amominW aq rl rd rs1 rs2) rd rs1 rs2 s

/-- `amomin.d` (R215). -/
def execAmominD (aq rl : Bool) (rd rs1 rs2 : Reg) (s : State) : Host.Outcome State Fault Refusal :=
  amo .amomin 8 (s.cfg.mxlen == .rv64) (.amominD aq rl rd rs1 rs2) rd rs1 rs2 s

/-- `amomax.w` (R216). -/
def execAmomaxW (aq rl : Bool) (rd rs1 rs2 : Reg) (s : State) : Host.Outcome State Fault Refusal :=
  amo .amomax 4 true (.amomaxW aq rl rd rs1 rs2) rd rs1 rs2 s

/-- `amomax.d` (R217). -/
def execAmomaxD (aq rl : Bool) (rd rs1 rs2 : Reg) (s : State) : Host.Outcome State Fault Refusal :=
  amo .amomax 8 (s.cfg.mxlen == .rv64) (.amomaxD aq rl rd rs1 rs2) rd rs1 rs2 s

/-- `amominu.w` (R218). -/
def execAmominuW (aq rl : Bool) (rd rs1 rs2 : Reg) (s : State) : Host.Outcome State Fault Refusal :=
  amo .amominu 4 true (.amominuW aq rl rd rs1 rs2) rd rs1 rs2 s

/-- `amominu.d` (R219). -/
def execAmominuD (aq rl : Bool) (rd rs1 rs2 : Reg) (s : State) : Host.Outcome State Fault Refusal :=
  amo .amominu 8 (s.cfg.mxlen == .rv64) (.amominuD aq rl rd rs1 rs2) rd rs1 rs2 s

/-- `amomaxu.w` (R220). -/
def execAmomaxuW (aq rl : Bool) (rd rs1 rs2 : Reg) (s : State) : Host.Outcome State Fault Refusal :=
  amo .amomaxu 4 true (.amomaxuW aq rl rd rs1 rs2) rd rs1 rs2 s

/-- `amomaxu.d` (R221). -/
def execAmomaxuD (aq rl : Bool) (rd rs1 rs2 : Reg) (s : State) : Host.Outcome State Fault Refusal :=
  amo .amomaxu 8 (s.cfg.mxlen == .rv64) (.amomaxuD aq rl rd rs1 rs2) rd rs1 rs2 s

end Sys2Proof.Machine
end

