-- ==== Sys2Proof/Machine/Csr.lean ====
section
/-! DEFINITION. The CSR instructions on the PMP registers (44_csr.md, 10_state.md R39 to R43, R58, R59). -/

namespace Sys2Proof.Machine

/-- The CSR is a PMP CSR: `0x3A0` to `0x3EF` (R39, R40, R58). -/
def csrInScope (a : Nat) : Bool := decide (0x3A0 ≤ a) && decide (a ≤ 0x3EF)

/-- The CSR is a `pmpcfgN` (R39). -/
def csrIsCfg (a : Nat) : Bool := decide (0x3A0 ≤ a) && decide (a ≤ 0x3AF)

/-- The CSR is one of the odd-numbered `pmpcfgN`, which are illegal for RV64 (R43). -/
def csrIllegalOdd (c : Cfg) (a : Nat) : Bool := c.mxlen == .rv64 && csrIsCfg a && a % 2 == 1

/-- The packed value of `pmpcfgN` (R41, R42): entry `4N + k` in byte lane `k`. -/
def readCfgCsr (c : Cfg) (p : PmpRegs) (n : Nat) : Word :=
  BitVec.ofNat 64 (leNat ((List.range (xlen c / 8)).map fun k => readLane c p (4 * n + k)))

/-- `CsrRead(a)` of a PMP CSR (R58). -/
def csrRead (c : Cfg) (p : PmpRegs) (a : Nat) : Word :=
  if csrIsCfg a then readCfgCsr c p (a - 0x3A0) else readAddr c p (a - 0x3B0)

/-- The write of the lanes of `pmpcfgN`, independent of each other (R59). -/
def writeCfgCsr (c : Cfg) (n : Nat) (v : Word) (p : PmpRegs) : PmpRegs :=
  (List.range (xlen c / 8)).foldl (fun q k => writeLane c (4 * n + k) (v.extractLsb' (8 * k) 8) q) p

/-- The PMP registers after `CsrWrite(a, v)` of a PMP CSR (R59). -/
def csrWriteRegs (c : Cfg) (a : Nat) (v : Word) (p : PmpRegs) : PmpRegs :=
  if csrIsCfg a then writeCfgCsr c (a - 0x3A0) v p else writeAddr c (a - 0x3B0) v p

/-- `CsrWrite(a, v)` (R59): on a hart with paged virtual memory the registers before the write join the snapshots a
cached check may use (R64). -/
def csrWrite (a : Nat) (v : Word) (s : State) : State :=
  { s with
    pmp := csrWriteRegs s.cfg a v s.pmp
    stale := if s.cfg.hasPagedVM then s.stale ++ [s.pmp] else s.stale }

/-- The three operations of the CSR instructions (R281). -/
inductive CsrOp where
  | write
  | set
  | clear
deriving DecidableEq, Repr

/-- The value a CSR instruction writes (R281). -/
def csrNew (op : CsrOp) (old src : Word) : Word :=
  match op with
  | .write => src
  | .set => old ||| src
  | .clear => old &&& ~~~src

/-- `ExecCsr(op, rd, csr, src, srcIsZeroReg)` (R281, R282). -/
def csrInstr (op : CsrOp) (i : Instr) (rd : Reg) (csr : BitVec 12) (src : Word) (srcIsZeroReg : Bool) (s : State) :
    Host.Outcome State Fault Refusal :=
  let a := csr.toNat
  if !csrInScope a then .refused (.csrOutOfScope a)
  else if s.priv ≠ .machine then illegal i s
  else if csrIllegalOdd s.cfg a then illegal i s
  else
    let old := csrRead s.cfg s.pmp a
    let doRead := !(op == .write && rd == 0)
    let doWrite := op == .write || !srcIsZeroReg
    let s1 := if doWrite then csrWrite a (csrNew op old src) s else s
    (complete (if doRead then writeReg rd old s1 else s1)).finish

/-- `csrrw` (R283). -/
def execCsrrw (rd : Reg) (csr : BitVec 12) (rs1 : Reg) (s : State) : Host.Outcome State Fault Refusal :=
  csrInstr .write (.csrrw rd csr rs1) rd csr (readReg s rs1) false s

/-- `csrrs` (R284). -/
def execCsrrs (rd : Reg) (csr : BitVec 12) (rs1 : Reg) (s : State) : Host.Outcome State Fault Refusal :=
  csrInstr .set (.csrrs rd csr rs1) rd csr (readReg s rs1) (rs1 == 0) s

/-- `csrrc` (R285). -/
def execCsrrc (rd : Reg) (csr : BitVec 12) (rs1 : Reg) (s : State) : Host.Outcome State Fault Refusal :=
  csrInstr .clear (.csrrc rd csr rs1) rd csr (readReg s rs1) (rs1 == 0) s

/-- `csrrwi` (R286). -/
def execCsrrwi (rd : Reg) (csr : BitVec 12) (uimm : BitVec 5) (s : State) : Host.Outcome State Fault Refusal :=
  csrInstr .write (.csrrwi rd csr uimm) rd csr (uimmValue uimm) false s

/-- `csrrsi` (R287). -/
def execCsrrsi (rd : Reg) (csr : BitVec 12) (uimm : BitVec 5) (s : State) : Host.Outcome State Fault Refusal :=
  csrInstr .set (.csrrsi rd csr uimm) rd csr (uimmValue uimm) (uimm == 0) s

/-- `csrrci` (R288). -/
def execCsrrci (rd : Reg) (csr : BitVec 12) (uimm : BitVec 5) (s : State) : Host.Outcome State Fault Refusal :=
  csrInstr .clear (.csrrci rd csr uimm) rd csr (uimmValue uimm) (uimm == 0) s

end Sys2Proof.Machine
end

