-- ==== Sys2Proof/Machine/Fence.lean ====
section
/-! DEFINITION. `fence` and `sfence.vma` (43_fence.md). -/

namespace Sys2Proof.Machine

/-- `fence` (R270): every access of the one hart is performed in program order (R113), so only the pc moves. The reserved
forms (`fm`, `rd` or `rs1` not zero) are executed as the plain fence (R180 item 7). -/
def execFence (_fm : BitVec 4) (_pred _succ : FenceSet) (_rd _rs1 : Reg) (s : State) :
    Host.Outcome State Fault Refusal :=
  (complete s).finish

/-- `sfence.vma` (R272): with both operands `x0` the stale snapshots are dropped; the other forms leave them (R273). -/
def execSfenceVma (rs1 rs2 : Reg) (s : State) : Host.Outcome State Fault Refusal :=
  if s.priv = .user then illegal (.sfenceVma rs1 rs2) s
  else if rs1 = 0 ∧ rs2 = 0 then (complete { s with stale := [] }).finish
  else (complete s).finish

end Sys2Proof.Machine
end

