-- ==== Sys2Proof/Machine/FloatMem.lean ====
section
/-! DEFINITION. Floating-point loads and stores (42_loads_stores.md R259 to R266): the access is modelled, the value is
opaque (R36, D33, notes/assumptions/17.md). -/

namespace Sys2Proof.Machine

/-- `ExecFLoad(n, rs1, imm)` (R259): the value read is discarded, no register is written. -/
def floatLoad (n : Nat) (i : Instr) (rs1 : Reg) (imm : BitVec 12) (s : State) : Host.Outcome State Fault Refusal :=
  if flen s.cfg < 8 * n then illegal i s
  else
    let va := effAddr s rs1 imm
    ((if 8 * n ≤ xlen s.cfg then readData va n s else wideRead va n s).bind fun _ s1 => complete s1).finish

/-- `ExecFStore(n, rs1, imm)` (R259): the value written is free. -/
def floatStore (n : Nat) (i : Instr) (rs1 : Reg) (imm : BitVec 12) (s : State) : Host.Outcome State Fault Refusal :=
  if flen s.cfg < 8 * n then illegal i s
  else
    let va := effAddr s rs1 imm
    let src : BitVec (8 * n) := (Config.fpStoreValue s.draws).setWidth (8 * n)
    ((if 8 * n ≤ xlen s.cfg then writeData va n src (tick s) else wideWrite va n src (tick s)).bind
      fun _ s1 => complete (freeResv s1)).finish

/-- `flw` (R260). -/
def execFlw (fd rs1 : Reg) (imm : BitVec 12) (s : State) : Host.Outcome State Fault Refusal :=
  floatLoad 4 (.flw fd rs1 imm) rs1 imm s

/-- `fld` (R261). -/
def execFld (fd rs1 : Reg) (imm : BitVec 12) (s : State) : Host.Outcome State Fault Refusal :=
  floatLoad 8 (.fld fd rs1 imm) rs1 imm s

/-- `flq` (R263). -/
def execFlq (fd rs1 : Reg) (imm : BitVec 12) (s : State) : Host.Outcome State Fault Refusal :=
  floatLoad 16 (.flq fd rs1 imm) rs1 imm s

/-- `fsw` (R264). -/
def execFsw (rs1 fs2 : Reg) (imm : BitVec 12) (s : State) : Host.Outcome State Fault Refusal :=
  floatStore 4 (.fsw rs1 fs2 imm) rs1 imm s

/-- `fsd` (R265). -/
def execFsd (rs1 fs2 : Reg) (imm : BitVec 12) (s : State) : Host.Outcome State Fault Refusal :=
  floatStore 8 (.fsd rs1 fs2 imm) rs1 imm s

/-- `fsq` (R266). -/
def execFsq (rs1 fs2 : Reg) (imm : BitVec 12) (s : State) : Host.Outcome State Fault Refusal :=
  floatStore 16 (.fsq rs1 fs2 imm) rs1 imm s

end Sys2Proof.Machine
end

