-- ==== Sys2Proof/Machine/LoadStore.lean ====
section
/-! DEFINITION. The base loads and stores (42_loads_stores.md R244 to R258). -/

namespace Sys2Proof.Machine

/-- `ExecLoad(n, ext, rd, rs1, imm)` (R245); `signed` chooses sign or zero extension. -/
def load (n : Nat) (signed present : Bool) (i : Instr) (rd rs1 : Reg) (imm : BitVec 12) (s : State) :
    Host.Outcome State Fault Refusal :=
  if !present then illegal i s
  else
    ((readData (effAddr s rs1 imm) n s).bind fun v s1 =>
      complete (writeReg rd (if signed then sextX s.cfg v else zextX s.cfg v) s1)).finish

/-- `ExecStore(n, rs1, rs2, imm)` (R246). -/
def store (n : Nat) (present : Bool) (i : Instr) (rs1 rs2 : Reg) (imm : BitVec 12) (s : State) :
    Host.Outcome State Fault Refusal :=
  if !present then illegal i s
  else
    ((writeData (effAddr s rs1 imm) n (source s rs2 n) s).bind fun _ s1 => complete (freeResv s1)).finish

/-- `lb` (R248). -/
def execLb (rd rs1 : Reg) (imm : BitVec 12) (s : State) : Host.Outcome State Fault Refusal :=
  load 1 true true (.lb rd rs1 imm) rd rs1 imm s

/-- `lh` (R249). -/
def execLh (rd rs1 : Reg) (imm : BitVec 12) (s : State) : Host.Outcome State Fault Refusal :=
  load 2 true true (.lh rd rs1 imm) rd rs1 imm s

/-- `lw` (R250). -/
def execLw (rd rs1 : Reg) (imm : BitVec 12) (s : State) : Host.Outcome State Fault Refusal :=
  load 4 true true (.lw rd rs1 imm) rd rs1 imm s

/-- `ld` (R251). -/
def execLd (rd rs1 : Reg) (imm : BitVec 12) (s : State) : Host.Outcome State Fault Refusal :=
  load 8 true (s.cfg.mxlen == .rv64) (.ld rd rs1 imm) rd rs1 imm s

/-- `lbu` (R252). -/
def execLbu (rd rs1 : Reg) (imm : BitVec 12) (s : State) : Host.Outcome State Fault Refusal :=
  load 1 false true (.lbu rd rs1 imm) rd rs1 imm s

/-- `lhu` (R253). -/
def execLhu (rd rs1 : Reg) (imm : BitVec 12) (s : State) : Host.Outcome State Fault Refusal :=
  load 2 false true (.lhu rd rs1 imm) rd rs1 imm s

/-- `lwu` (R254). -/
def execLwu (rd rs1 : Reg) (imm : BitVec 12) (s : State) : Host.Outcome State Fault Refusal :=
  load 4 false (s.cfg.mxlen == .rv64) (.lwu rd rs1 imm) rd rs1 imm s

/-- `sb` (R255). -/
def execSb (rs1 rs2 : Reg) (imm : BitVec 12) (s : State) : Host.Outcome State Fault Refusal :=
  store 1 true (.sb rs1 rs2 imm) rs1 rs2 imm s

/-- `sh` (R256). -/
def execSh (rs1 rs2 : Reg) (imm : BitVec 12) (s : State) : Host.Outcome State Fault Refusal :=
  store 2 true (.sh rs1 rs2 imm) rs1 rs2 imm s

/-- `sw` (R257). -/
def execSw (rs1 rs2 : Reg) (imm : BitVec 12) (s : State) : Host.Outcome State Fault Refusal :=
  store 4 true (.sw rs1 rs2 imm) rs1 rs2 imm s

/-- `sd` (R258). -/
def execSd (rs1 rs2 : Reg) (imm : BitVec 12) (s : State) : Host.Outcome State Fault Refusal :=
  store 8 (s.cfg.mxlen == .rv64) (.sd rs1 rs2 imm) rs1 rs2 imm s

end Sys2Proof.Machine
end

