-- ==== Sys2Proof/Machine/LrSc.lean ====
section
/-! DEFINITION. Load-reserved and store-conditional (41_lrsc.md). -/

namespace Sys2Proof.Machine

/-- `ExecLR(n, rd, rs1)` (R231): the reservation records the physical address and the width. -/
def loadReserved (n : Nat) (present : Bool) (i : Instr) (rd rs1 : Reg) (s : State) : Host.Outcome State Fault Refusal :=
  if !present then illegal i s
  else
    let va := readReg s rs1
    ((access .lr va n s).bind fun _ s1 =>
      let v := readValue s1 va.toNat n
      let s2 := writeReg rd (sextX s.cfg v) (afterRead va.toNat n s1)
      complete { s2 with resv := some ⟨va.toNat, n⟩ }).finish

/-- The reservation a store-conditional needs is held: same physical address, same width (R232). -/
def holdsReservation (s : State) (va : Word) (n : Nat) : Bool :=
  s.resv == some ⟨va.toNat % 2 ^ palen s.cfg, n⟩

/-- `AlignOnly(SC, va, n)` (R232). -/
def alignOnly (va : Word) (n : Nat) (s : State) : Res Unit :=
  if !translatable s.cfg va n then .raise ⟨.accessFault .write, va⟩ s
  else if va.toNat % n = 0 then .ok () s
  else .raise ⟨misalignedExc s.cfg .sc va, va⟩ s

/-- The checks a failing store-conditional makes (R232, R234). -/
def scFailTests (va : Word) (n : Nat) (s : State) : Res Unit :=
  if s.cfg.scFailChecks then (access .sc va n s).bind fun _ s1 => .ok () s1 else alignOnly va n s

/-- The store-conditional succeeds (R232): store, drop the reservation, code 0. -/
def scSucceeds (n : Nat) (rd : Reg) (va : Word) (src : BitVec (8 * n)) (s : State) : Res Unit :=
  (access .sc va n s).bind fun _ s1 => complete (writeReg rd 0 { memWrite va.toNat n src s1 with resv := none })

/-- The store-conditional fails (R232): no store, drop the reservation, code 1. -/
def scFails (n : Nat) (rd : Reg) (va : Word) (s : State) : Res Unit :=
  (scFailTests va n s).bind fun _ s1 => complete (writeReg rd 1 { s1 with resv := none })

/-- `ExecSC(n, rd, rs1, rs2)` (R232). The free boolean `ok` is drawn when the reservation is held; without it the
instruction fails whatever `ok` is. -/
def storeConditional (n : Nat) (present : Bool) (i : Instr) (rd rs1 rs2 : Reg) (s : State) :
    Host.Outcome State Fault Refusal :=
  if !present then illegal i s
  else
    let va := readReg s rs1
    let src := source s rs2 n
    if holdsReservation s va n then
      (if Config.scOk va.toNat s.scDraws then scSucceeds n rd va src (tickSc s)
        else scFails n rd va (tickSc s)).finish
    else (scFails n rd va s).finish

/-- `lr.w` (R238). -/
def execLrW (aq rl : Bool) (rd rs1 : Reg) (s : State) : Host.Outcome State Fault Refusal :=
  loadReserved 4 true (.lrW aq rl rd rs1) rd rs1 s

/-- `sc.w` (R240). -/
def execScW (aq rl : Bool) (rd rs1 rs2 : Reg) (s : State) : Host.Outcome State Fault Refusal :=
  storeConditional 4 true (.scW aq rl rd rs1 rs2) rd rs1 rs2 s

/-- `lr.d` (R239). -/
def execLrD (aq rl : Bool) (rd rs1 : Reg) (s : State) : Host.Outcome State Fault Refusal :=
  loadReserved 8 (s.cfg.mxlen == .rv64) (.lrD aq rl rd rs1) rd rs1 s

/-- `sc.d` (R241). -/
def execScD (aq rl : Bool) (rd rs1 rs2 : Reg) (s : State) : Host.Outcome State Fault Refusal :=
  storeConditional 8 (s.cfg.mxlen == .rv64) (.scD aq rl rd rs1 rs2) rd rs1 rs2 s

end Sys2Proof.Machine
end

