-- ==== Sys2Proof/Machine/Step.lean ====
section
/-! DEFINITION. One step of the hart (00_scope.md R19) and the placing of an instruction where the step fetches. -/

namespace Sys2Proof.Machine

/-- One step (R19): fetch, decode, execute. A state that holds a trap is the environment's (R303); a misaligned pc is
refused (R32); a word that matches no row is refused (R179). -/
def step (s : State) : Host.Outcome State Fault Refusal :=
  match s.trap with
  | some _ => .fault .trapHandedToEnvironment
  | none =>
    if (curPc s).toNat % 4 ≠ 0 then .refused .misalignedPc
    else
      match fetch s with
      | .raise t s1 => .next (takeTrap t s1)
      | .refuse q => .refused q
      | .ok w s1 =>
        match decode w with
        | none => .refused .notInScope
        | some i => exec i s1

/-- The state with an instruction stored where `step` fetches: its four bytes at the pc, which count as loaded from
outside and not as stored by the hart (notes/assumptions/6.md). -/
def State.withFetchWord (s : State) (nbits w : Nat) : State :=
  { s with
    mem := Memory.setBytes s.mem (curPc s).toNat (bytesOfWord (BitVec.ofNat 32 (w % 2 ^ nbits)))
    stored := s.stored.filter fun a => !(decide ((curPc s).toNat ≤ a) && decide (a < (curPc s).toNat + 4)) }

end Sys2Proof.Machine
end

