-- ==== Sys2Proof/Machine/Environment.lean ====
section
/-! DEFINITION. One environment the spec describes for information (60_exceptions.md R305): the standard machine-mode trap
entry and `mret`. Its registers are not state of this spec (R305, 00_scope.md R6), so they stand in a record of their own,
and `step` does not call it: after a trap the next state is the environment's (R303, R308, notes/assumptions/20.md). -/

namespace Sys2Proof.Machine

/-- The machine-mode trap registers of the full hart (R305). -/
structure TrapCsrs where
  mepc : Word
  mcause : Nat
  mtval : Word
  mtvecBase : Word
  mie : Bool
  mpie : Bool
deriving DecidableEq, Repr

/-- The trap entry to M-mode, direct mode (R305), from a state that holds a trap. -/
def enterMachineTrap (r : TrapCsrs) (s : State) : TrapCsrs × State :=
  match s.trap with
  | none => (r, s)
  | some t =>
    ({ r with mepc := curPc s, mcause := Exc.code t.exc, mtval := t.tval, mpie := r.mie, mie := false },
     { s with mpp := s.priv, priv := .machine, pc := truncX s.cfg r.mtvecBase, trap := none })

/-- `mret` (R305), on a hart that has U-mode. -/
def returnFromMachineTrap (r : TrapCsrs) (s : State) : TrapCsrs × State :=
  ({ r with mie := r.mpie, mpie := true },
   { s with
     priv := s.mpp
     mpp := .user
     mprv := if s.mpp = .machine then s.mprv else false
     pc := truncX s.cfg r.mepc })

end Sys2Proof.Machine
end

