-- ==== Sys2Proof/Machine/Ordering.lean ====
section
/-! DEFINITION. The ordering rules a program can rely on (20_memory.md R106 to R113, 43_fence.md R270, R271, 40_amo.md
R201), as predicates on the regions of two accesses and on fence sets. The one-hart machine performs every access in
program order, which satisfies them all (R113); they are the constraints a model with more agents must meet
(notes/assumptions/16.md). -/

namespace Sys2Proof.Machine

/-- What an access does to its region, for `fence` (R270): an AMO is in both classes. -/
structure Footprint where
  region : PmaRegion
  reads : Bool
  writes : Bool
deriving DecidableEq, Repr

/-- The accesses of a kind that read and that write (R17, R270). -/
def footprintOf (kind : AccessKind) (r : PmaRegion) : Footprint :=
  match kind with
  | .fetch | .load | .lr => ⟨r, true, false⟩
  | .store | .sc => ⟨r, false, true⟩
  | .amo _ => ⟨r, true, true⟩
  | .ptw writes => ⟨r, !writes, writes⟩

/-- An access belongs to a fence set (R270): `I`, `O` for regions classified I/O, `R`, `W` for main memory. -/
def inFenceSet (f : FenceSet) (a : Footprint) : Bool :=
  match a.region.kind with
  | .io => (f.i && a.reads) || (f.o && a.writes)
  | .mainMemory => (f.r && a.reads) || (f.w && a.writes)

/-- A `fence` between two accesses orders the first before the second (R113 item 4, R270). -/
def fenceOrders (pred succ : FenceSet) (a b : Footprint) : Bool := inFenceSet pred a && inFenceSet succ b

/-- The channel of a strongly ordered I/O region (R110). -/
def channelOf (r : PmaRegion) : Option Nat :=
  match r.kind, r.ioOrder with
  | .io, .strong ch => some ch
  | _, _ => none

/-- Two accesses of one hart are observed in program order because of their regions' channels (R111, R113 items 1 to
3). -/
def channelOrders (r q : PmaRegion) : Bool :=
  (r == q && (channelOf r).isSome)
    || (match channelOf r, channelOf q with
        | some a, some b => a == b && decide (2 ≤ a)
        | _, _ => false)
    || (r.kind == .io && q.kind == .io && (channelOf r == some 1 || channelOf q == some 1))

/-- `fence io,io` (R271). -/
def ioSet : FenceSet := { i := true, o := true, r := false, w := false }

/-- The order `aq` and `rl` ask for between two memory operations of one hart to the same class of region (R201): the
earlier one carries `aq`, or the later one carries `rl`. -/
def atomicOrders (aqFirst rlSecond : Bool) (a b : Footprint) : Bool :=
  (aqFirst || rlSecond) && a.region.kind == b.region.kind

end Sys2Proof.Machine
end

