-- ==== Sys2Proof/WellFormed.lean ====
section
/-! DEFINITION. Well-formedness: which instructions exist on a platform, which PMA regions and platform records the
spec admits. Decidable checks on plain data; the machine does not depend on them (an instruction that does not exist
raises IllegalInstruction in its own meaning). -/

namespace Sys2Proof

/-- The rows marked `"xlen": 64` (30_encoding.md R180 item 4). -/
def Instr.onlyRv64 : Instr → Bool
  | .amoswapD .. | .amoaddD .. | .amoxorD .. | .amoandD .. | .amoorD .. => true
  | .amominD .. | .amomaxD .. | .amominuD .. | .amomaxuD .. => true
  | .lrD .. | .scD .. | .ld .. | .lwu .. | .sd .. => true
  | _ => false

/-- The bits of the floating-point access an instruction makes (R259), 0 for every other instruction. -/
def Instr.fpBits : Instr → Nat
  | .flw .. | .fsw .. => 32
  | .fld .. | .fsd .. => 64
  | .flq .. | .fsq .. => 128
  | _ => 0

/-- The number of bits `Cfg.FLEN` stands for (R13). -/
def Flen.width : Flen → Nat
  | .absent => 0
  | .f32 => 32
  | .f64 => 64
  | .f128 => 128

/-- An instruction is well-formed on a platform when it exists there: R180 item 4 and R259. -/
def Instr.wellFormed (c : Cfg) (i : Instr) : Bool :=
  (!i.onlyRv64 || c.mxlen == .rv64) && decide (i.fpBits ≤ c.flen.width)

/-- A misaligned atomicity granule is a power of two of at least 2 bytes (R84, R94). -/
def granuleOk : Option Nat → Bool
  | none => true
  | some g => (List.range 64).any fun k => decide (1 ≤ k) && g == 2 ^ k

/-- What the spec requires of a region: widths (R84), granule (R94), idempotent main memory (R118), and the memory
model of coherent and incoherent main memory (R115). -/
def PmaRegion.wf (r : PmaRegion) : Bool :=
  r.readWidths.all (fun n => [1, 2, 4, 8, 16].contains n)
    && r.writeWidths.all (fun n => [1, 2, 4, 8, 16].contains n)
    && granuleOk r.mag
    && (r.kind == .io || (r.readIdempotent && r.writeIdempotent))
    && (r.kind == .io || (r.coherent == (r.memModel != .implDefined)))

/-- The advice of R121: a region with a non-idempotent side reports misaligned accesses as access faults. -/
def PmaRegion.followsMisalignedAdvice (r : PmaRegion) : Bool :=
  (r.readIdempotent && r.writeIdempotent) || r.misalignedExc == .accessFault

/-- `PALEN` (R10). -/
def Mxlen.palen : Mxlen → Nat
  | .rv32 => 34
  | .rv64 => 56

/-- Two regions share no byte (R84: "regions do not overlap"). -/
def PmaRegion.disjoint (r q : PmaRegion) : Bool :=
  decide (r.base + r.size ≤ q.base) || decide (q.base + q.size ≤ r.base)

/-- No two regions of the list share a byte. -/
def regionsDisjoint : List PmaRegion → Bool
  | [] => true
  | r :: rs => rs.all r.disjoint && regionsDisjoint rs

/-- What the spec requires of a platform record: `PABITS` (R10, D5), the grain (D4: `G + 2 ≤ PABITS`), the reset vector (R13, R67),
the regions (R84), and the implicit-read region of a hart with paged virtual memory (R123, GK28). -/
def Cfg.wf (c : Cfg) : Bool :=
  decide (c.pabits ≤ c.mxlen.palen) && decide (c.grain + 2 ≤ c.pabits)
    && decide (c.resetVector.toNat % 4 = 0)
    && (c.mxlen == .rv64 || decide (c.resetVector.toNat < 2 ^ 32))
    && c.pma.all (fun r => r.wf && decide (r.base + r.size ≤ 2 ^ c.mxlen.palen))
    && regionsDisjoint c.pma
    && (!c.hasPagedVM || decide (c.implicitReadRegionLog2 ≤ 12))

end Sys2Proof
end

