-- ==== Sys2Proof/Safety.lean ====
section
/-! DEFINITION. The terms claims are stated in: the invariant of the machine, when an access is granted, what a step may
be said to have done, and the fairness the spec promises of LR/SC. -/

namespace Sys2Proof.Machine

/-- The PMP registers hold legal values (R47, R50, R54, R56, R60): legal bytes, stored addresses of `PABITS - 2` bits,
zero for unimplemented entries. -/
abbrev PmpRegs.legal (c : Cfg) (p : PmpRegs) : Prop :=
  ∀ i : Fin 64, legalLane c p.cfg[i] = true ∧ p.addr[i].toNat < 2 ^ (c.pabits - 2)
    ∧ (npmp c ≤ i.val → p.cfg[i] = 0 ∧ p.addr[i] = 0)

/-- A reservation is one a load-reserved can set (R231): width 4 or 8, naturally aligned, inside the address space. -/
abbrev Reservation.legal (c : Cfg) (r : Reservation) : Prop :=
  (r.width = 4 ∨ r.width = 8) ∧ r.addr % r.width = 0 ∧ r.addr + r.width ≤ 2 ^ palen c

/-- A trap is one a step can hand over: the exception `InstrAddrMisaligned` is never raised (R293), the trap value has
XLEN bits (R302). -/
abbrev Trap.legal (c : Cfg) (t : Trap) : Prop :=
  t.exc ≠ .addrMisaligned .execute ∧ t.tval.toNat < 2 ^ xlen c

/-- The invariant every step keeps: canonical memory that lists mapped bytes only (R66), a rising set of stored addresses,
registers and pc of XLEN bits with `x0` zero (R30 to R32), a pc that is a multiple of 4 (R32, R293), legal PMP registers
and snapshots, no snapshot without paged virtual memory (R64), a legal reservation and trap. -/
abbrev State.Inv (s : State) : Prop :=
  Memory.wf s.mem
    ∧ (∀ c ∈ s.mem, (pmaOf s.cfg c.1).isSome = true)
    ∧ s.stored.Pairwise (· < ·)
    ∧ (∀ i : Fin 32, s.x[i].toNat < 2 ^ xlen s.cfg)
    ∧ s.x[(0 : Fin 32)] = 0
    ∧ s.pc.toNat < 2 ^ xlen s.cfg
    ∧ s.pc.toNat % 4 = 0
    ∧ PmpRegs.legal s.cfg s.pmp
    ∧ (∀ p ∈ s.stale, PmpRegs.legal s.cfg p)
    ∧ (s.cfg.hasPagedVM = false → s.stale = [])
    ∧ (∀ r ∈ s.resv, Reservation.legal s.cfg r)
    ∧ (∀ t ∈ s.trap, Trap.legal s.cfg t)

/-- The checks of one part of an access pass whichever PMP view is used (R140): the `n` bytes at `va` lie in one region
that accepts the access, and every view permits it. -/
def checked (s : State) (kind : AccessKind) (va : Word) (n : Nat) : Bool :=
  (match pmaOf s.cfg va.toNat with
    | none => false
    | some r => sameRegion r va.toNat n && !refusesModel r && pmaOk kind r n)
    && (pmpViews s).all fun p => pmpCheck s.cfg p va.toNat n (kindType kind) (effPriv s kind)

/-- The access of `n` bytes at `va` is granted whole, whichever PMP view is used (R140): translatable, aligned or inside
one granule where the granule applies, and `checked`. -/
def granted (s : State) (kind : AccessKind) (va : Word) (n : Nat) : Bool :=
  translatable s.cfg va n && alignStage s.cfg kind va n == .whole && checked s kind va n

/-- The access of `n` bytes at `va` is denied whichever PMP view is used (R140, R295): its bytes are vacant or span two
regions, or its region does not accept it, or no view permits it. A region the spec refuses (R107) is no denial. -/
def denied (s : State) (kind : AccessKind) (va : Word) (n : Nat) : Bool :=
  match pmaOf s.cfg va.toNat with
  | none => true
  | some r => !sameRegion r va.toNat n || (!refusesModel r && (!pmaOk kind r n ||
      (pmpViews s).all fun p => !pmpCheck s.cfg p va.toNat n (kindType kind) (effPriv s kind)))

/-- The address lies where reads return memory (R120): no free value. -/
def plainRead (s : State) (va : Word) : Bool := !readIsFree s.cfg va.toNat

/-- The fields no instruction but a CSR write or `sfence.vma` changes when it completes: everything but the registers,
the pc, memory and what goes with it, the reservation and the counter of free values. -/
def sameControl (s t : State) : Prop :=
  t.cfg = s.cfg ∧ t.priv = s.priv ∧ t.mprv = s.mprv ∧ t.mpp = s.mpp ∧ t.pmp = s.pmp ∧ t.stale = s.stale ∧ t.trap = s.trap

/-- Every byte of memory reads as before. -/
def sameMem (s t : State) : Prop := ∀ a, Memory.get t.mem a = Memory.get s.mem a

/-- Every byte outside `pa .. pa + n - 1` reads as before. -/
def sameMemOutside (s t : State) (pa n : Nat) : Prop :=
  ∀ a, (a < pa ∨ pa + n ≤ a) → Memory.get t.mem a = Memory.get s.mem a

/-- Every register but `rd` reads as before. -/
def sameRegsBut (s t : State) (rd : Reg) : Prop := ∀ r, r ≠ rd → readReg t r = readReg s r

/-- Every register reads as before. -/
def sameRegs (s t : State) : Prop := ∀ r, readReg t r = readReg s r

/-- The register `rd` holds `v`, or reads zero when it is `x0` (R31), and every other register reads as before. -/
def writesReg (s t : State) (rd : Reg) (v : Word) : Prop :=
  readReg t rd = (if rd = 0 then 0 else v) ∧ sameRegsBut s t rd

/-- The pc moves to the next instruction (R32, R33). -/
def movesOn (s t : State) : Prop := t.pc.toNat = ((curPc s).toNat + 4) % 2 ^ xlen s.cfg

/-- The bytes `pa .. pa + n - 1` are what was stored, every other byte reads as before, and exactly those bytes joined
the addresses stored to (R151). -/
def storesBytes (s t : State) (pa n : Nat) (v : BitVec (8 * n)) : Prop :=
  Memory.read t.mem pa n = v ∧ sameMemOutside s t pa n ∧ ∀ a, a ∈ t.stored ↔ a ∈ s.stored ∨ (pa ≤ a ∧ a < pa + n)

/-- Nothing was stored. -/
def storesNothing (s t : State) : Prop := sameMem s t ∧ t.stored = s.stored

/-- The device events of an access: those given where a device stands behind the address, none elsewhere (R120). -/
def addsEvents (s t : State) (pa : Nat) (l : List DeviceEvent) : Prop :=
  t.events = s.events ++ (if isDevice s.cfg pa then l else [])

/-- The value a read of `n` bytes at `va` returns: memory, or a free value from a device (R82, R120). -/
def valueAt (s : State) (va : Word) (n : Nat) : BitVec (8 * n) := readValue (afterView s) va.toNat n

/-- A load of `n` bytes at `va` has put `v` in `rd`, and done nothing else but move on and be seen by a device. -/
def loadsTo (s t : State) (va : Word) (n : Nat) (rd : Reg) (v : Word) : Prop :=
  writesReg s t rd v ∧ storesNothing s t ∧ movesOn s t ∧ sameControl s t ∧ addsEvents s t va.toNat [⟨va.toNat, n, none⟩]

/-- The reservation is kept or dropped (R233). -/
def resvKeptOrDropped (s t : State) : Prop := t.resv = s.resv ∨ t.resv = none

/-- The device events after a run extend those before (R119, R120). -/
def eventsExtend (s t : State) : Prop := ∃ new, t.events = s.events ++ new

/-- The trap handed over, with its trap value; the pc, the registers, memory, the modes, the PMP registers and the
device events as before, the reservation kept or dropped (R303). -/
def trapsWith (s t : State) (e : Exc) (tval : Word) : Prop :=
  t.trap = some ⟨e, tval⟩ ∧ t.pc = s.pc ∧ sameRegs s t ∧ storesNothing s t ∧ t.events = s.events
    ∧ t.cfg = s.cfg ∧ t.priv = s.priv ∧ t.mprv = s.mprv ∧ t.mpp = s.mpp ∧ t.pmp = s.pmp ∧ t.stale = s.stale
    ∧ resvKeptOrDropped s t

/-! ## What an instruction may touch -/

/-- The address and width of the memory an instruction stores to, if it is one that stores (R202, R232, R246, R259). -/
def storeTarget (i : Instr) (s : State) : Option (Nat × Nat) :=
  match i with
  | .amoswapW _ _ _ rs1 _ | .amoaddW _ _ _ rs1 _ | .amoxorW _ _ _ rs1 _ | .amoandW _ _ _ rs1 _ | .amoorW _ _ _ rs1 _
  | .amominW _ _ _ rs1 _ | .amomaxW _ _ _ rs1 _ | .amominuW _ _ _ rs1 _ | .amomaxuW _ _ _ rs1 _
  | .scW _ _ _ rs1 _ => some ((readReg s rs1).toNat, 4)
  | .amoswapD _ _ _ rs1 _ | .amoaddD _ _ _ rs1 _ | .amoxorD _ _ _ rs1 _ | .amoandD _ _ _ rs1 _ | .amoorD _ _ _ rs1 _
  | .amominD _ _ _ rs1 _ | .amomaxD _ _ _ rs1 _ | .amominuD _ _ _ rs1 _ | .amomaxuD _ _ _ rs1 _
  | .scD _ _ _ rs1 _ => some ((readReg s rs1).toNat, 8)
  | .sb rs1 _ imm => some ((effAddr s rs1 imm).toNat, 1)
  | .sh rs1 _ imm => some ((effAddr s rs1 imm).toNat, 2)
  | .sw rs1 _ imm | .fsw rs1 _ imm => some ((effAddr s rs1 imm).toNat, 4)
  | .sd rs1 _ imm | .fsd rs1 _ imm => some ((effAddr s rs1 imm).toNat, 8)
  | .fsq rs1 _ imm => some ((effAddr s rs1 imm).toNat, 16)
  | .lrW .. | .lrD .. | .lb .. | .lh .. | .lw .. | .ld .. | .lbu .. | .lhu .. | .lwu .. | .flw .. | .fld .. | .flq ..
  | .fence .. | .sfenceVma .. | .csrrw .. | .csrrs .. | .csrrc .. | .csrrwi .. | .csrrsi .. | .csrrci .. => none

/-- The integer register an instruction writes, if it writes one. -/
def destOf (i : Instr) : Option Reg :=
  match i with
  | .amoswapW _ _ rd _ _ | .amoaddW _ _ rd _ _ | .amoxorW _ _ rd _ _ | .amoandW _ _ rd _ _ | .amoorW _ _ rd _ _
  | .amominW _ _ rd _ _ | .amomaxW _ _ rd _ _ | .amominuW _ _ rd _ _ | .amomaxuW _ _ rd _ _ | .scW _ _ rd _ _
  | .amoswapD _ _ rd _ _ | .amoaddD _ _ rd _ _ | .amoxorD _ _ rd _ _ | .amoandD _ _ rd _ _ | .amoorD _ _ rd _ _
  | .amominD _ _ rd _ _ | .amomaxD _ _ rd _ _ | .amominuD _ _ rd _ _ | .amomaxuD _ _ rd _ _ | .scD _ _ rd _ _
  | .lrW _ _ rd _ | .lrD _ _ rd _
  | .lb rd _ _ | .lh rd _ _ | .lw rd _ _ | .ld rd _ _ | .lbu rd _ _ | .lhu rd _ _ | .lwu rd _ _
  | .csrrw rd _ _ | .csrrs rd _ _ | .csrrc rd _ _ | .csrrwi rd _ _ | .csrrsi rd _ _ | .csrrci rd _ _ => some rd
  | .sb .. | .sh .. | .sw .. | .sd .. | .flw .. | .fld .. | .flq .. | .fsw .. | .fsd .. | .fsq .. | .fence ..
  | .sfenceVma .. => none

/-- The CSR instructions (R280). -/
def isCsrInstr : Instr → Bool
  | .csrrw .. | .csrrs .. | .csrrc .. | .csrrwi .. | .csrrsi .. | .csrrci .. => true
  | _ => false

/-- The regular and floating-point stores, which may be made in parts (R143). -/
def isPlainStore : Instr → Bool
  | .sb .. | .sh .. | .sw .. | .sd .. | .fsw .. | .fsd .. | .fsq .. => true
  | _ => false

/-- The instructions that leave the reservation alone when they complete (R233, R245, R270, R272). -/
def leavesReservation : Instr → Bool
  | .lb .. | .lh .. | .lw .. | .ld .. | .lbu .. | .lhu .. | .lwu .. | .flw .. | .fld .. | .flq .. | .fence ..
  | .sfenceVma .. | .csrrw .. | .csrrs .. | .csrrc .. | .csrrwi .. | .csrrsi .. | .csrrci .. => true
  | _ => false

/-- The one data access of an instruction that makes exactly one when it is whole: kind, address, width. A
store-conditional is listed with its access too (R232). -/
def dataAccess (i : Instr) (s : State) : Option (AccessKind × Word × Nat) :=
  match i with
  | .amoswapW _ _ _ rs1 _ => some (.amo .amoswap, readReg s rs1, 4)
  | .amoaddW _ _ _ rs1 _ => some (.amo .amoadd, readReg s rs1, 4)
  | .amoxorW _ _ _ rs1 _ => some (.amo .amoxor, readReg s rs1, 4)
  | .amoandW _ _ _ rs1 _ => some (.amo .amoand, readReg s rs1, 4)
  | .amoorW _ _ _ rs1 _ => some (.amo .amoor, readReg s rs1, 4)
  | .amominW _ _ _ rs1 _ => some (.amo .amomin, readReg s rs1, 4)
  | .amomaxW _ _ _ rs1 _ => some (.amo .amomax, readReg s rs1, 4)
  | .amominuW _ _ _ rs1 _ => some (.amo .amominu, readReg s rs1, 4)
  | .amomaxuW _ _ _ rs1 _ => some (.amo .amomaxu, readReg s rs1, 4)
  | .amoswapD _ _ _ rs1 _ => some (.amo .amoswap, readReg s rs1, 8)
  | .amoaddD _ _ _ rs1 _ => some (.amo .amoadd, readReg s rs1, 8)
  | .amoxorD _ _ _ rs1 _ => some (.amo .amoxor, readReg s rs1, 8)
  | .amoandD _ _ _ rs1 _ => some (.amo .amoand, readReg s rs1, 8)
  | .amoorD _ _ _ rs1 _ => some (.amo .amoor, readReg s rs1, 8)
  | .amominD _ _ _ rs1 _ => some (.amo .amomin, readReg s rs1, 8)
  | .amomaxD _ _ _ rs1 _ => some (.amo .amomax, readReg s rs1, 8)
  | .amominuD _ _ _ rs1 _ => some (.amo .amominu, readReg s rs1, 8)
  | .amomaxuD _ _ _ rs1 _ => some (.amo .amomaxu, readReg s rs1, 8)
  | .lrW _ _ _ rs1 => some (.lr, readReg s rs1, 4)
  | .lrD _ _ _ rs1 => some (.lr, readReg s rs1, 8)
  | .scW _ _ _ rs1 _ => some (.sc, readReg s rs1, 4)
  | .scD _ _ _ rs1 _ => some (.sc, readReg s rs1, 8)
  | .lb _ rs1 imm | .lbu _ rs1 imm => some (.load, effAddr s rs1 imm, 1)
  | .lh _ rs1 imm | .lhu _ rs1 imm => some (.load, effAddr s rs1 imm, 2)
  | .lw _ rs1 imm | .lwu _ rs1 imm | .flw _ rs1 imm => some (.load, effAddr s rs1 imm, 4)
  | .ld _ rs1 imm | .fld _ rs1 imm => some (.load, effAddr s rs1 imm, 8)
  | .flq _ rs1 imm => some (.load, effAddr s rs1 imm, 16)
  | .sb rs1 _ imm => some (.store, effAddr s rs1 imm, 1)
  | .sh rs1 _ imm => some (.store, effAddr s rs1 imm, 2)
  | .sw rs1 _ imm | .fsw rs1 _ imm => some (.store, effAddr s rs1 imm, 4)
  | .sd rs1 _ imm | .fsd rs1 _ imm => some (.store, effAddr s rs1 imm, 8)
  | .fsq rs1 _ imm => some (.store, effAddr s rs1 imm, 16)
  | .fence .. | .sfenceVma .. | .csrrw .. | .csrrs .. | .csrrc .. | .csrrwi .. | .csrrsi .. | .csrrci .. => none

/-- A store-conditional, which makes the checks of its access only if it holds the reservation and the free boolean says
so, or if the platform checks failing ones too (R232, R234). -/
def isSc : Instr → Bool
  | .scW .. | .scD .. => true
  | _ => false

/-! ## AMOs by operation -/

/-- The 4-byte AMO of an operation. -/
def amoW (op : AmoOp) (aq rl : Bool) (rd rs1 rs2 : Reg) : Instr :=
  match op with
  | .amoswap => .amoswapW aq rl rd rs1 rs2
  | .amoadd => .amoaddW aq rl rd rs1 rs2
  | .amoxor => .amoxorW aq rl rd rs1 rs2
  | .amoand => .amoandW aq rl rd rs1 rs2
  | .amoor => .amoorW aq rl rd rs1 rs2
  | .amomin => .amominW aq rl rd rs1 rs2
  | .amomax => .amomaxW aq rl rd rs1 rs2
  | .amominu => .amominuW aq rl rd rs1 rs2
  | .amomaxu => .amomaxuW aq rl rd rs1 rs2

/-- The 8-byte AMO of an operation. -/
def amoD (op : AmoOp) (aq rl : Bool) (rd rs1 rs2 : Reg) : Instr :=
  match op with
  | .amoswap => .amoswapD aq rl rd rs1 rs2
  | .amoadd => .amoaddD aq rl rd rs1 rs2
  | .amoxor => .amoxorD aq rl rd rs1 rs2
  | .amoand => .amoandD aq rl rd rs1 rs2
  | .amoor => .amoorD aq rl rd rs1 rs2
  | .amomin => .amominD aq rl rd rs1 rs2
  | .amomax => .amomaxD aq rl rd rs1 rs2
  | .amominu => .amominuD aq rl rd rs1 rs2
  | .amomaxu => .amomaxuD aq rl rd rs1 rs2

/-- The value an AMO leaves in memory, said by what it is and not by how it is computed (R204 to R221): a sum modulo
`2^k`, bit by bit, or the smaller or larger of the two as signed or unsigned numbers. -/
def amoLeaves {k : Nat} (op : AmoOp) (old src new : BitVec k) : Prop :=
  match op with
  | .amoswap => new = src
  | .amoadd => new.toNat = (old.toNat + src.toNat) % 2 ^ k
  | .amoxor => ∀ j, j < k → (new.getLsbD j = true ↔ old.getLsbD j ≠ src.getLsbD j)
  | .amoand => ∀ j, j < k → (new.getLsbD j = true ↔ old.getLsbD j = true ∧ src.getLsbD j = true)
  | .amoor => ∀ j, j < k → (new.getLsbD j = true ↔ old.getLsbD j = true ∨ src.getLsbD j = true)
  | .amomin => new.toInt = min old.toInt src.toInt
  | .amomax => new.toInt = max old.toInt src.toInt
  | .amominu => new.toNat = min old.toNat src.toNat
  | .amomaxu => new.toNat = max old.toNat src.toNat

/-! ## Accesses in parts -/

/-- Every naturally aligned part of the access of `n` bytes at `va` is granted on its own. -/
def partsGranted (s : State) (kind : AccessKind) (va : Word) (n : Nat) : Prop :=
  ∀ off m, m ∈ [1, 2, 4, 8] → off + m ≤ n → (va.toNat + off) % m = 0 → granted s kind (va + BitVec.ofNat 64 off) m = true

/-- A misaligned load or store outside one granule that the platform makes in parts, all of them granted, the whole-width
checks too where the platform makes them first (R99, R101, R140). -/
def splitGranted (s : State) (kind : AccessKind) (va : Word) (n : Nat) : Prop :=
  s.cfg.misalignedLdSt = .split ∧ va.toNat % n ≠ 0 ∧ (8 * n ≤ xlen s.cfg → inOneGranule s.cfg va.toNat n = false)
    ∧ translatable s.cfg va n = true ∧ (s.cfg.misalignedFirst = false → checked s kind va n = true)
    ∧ partsGranted s kind va n

/-- One `Access` that succeeds (R140): granted whole, or in every partition where the platform splits it. -/
def oneSucceeds (s : State) (kind : AccessKind) (va : Word) (n : Nat) : Prop :=
  granted s kind va n = true ∨ splitGranted s kind va n

/-- An access that succeeds whichever way the platform makes it: as one `Access` and, when it is wider than XLEN bits, in
every partition into parts too (R99, R262). -/
def accessSucceeds (s : State) (kind : AccessKind) (va : Word) (n : Nat) : Prop :=
  oneSucceeds s kind va n ∧ (xlen s.cfg < 8 * n → ∀ off m, m ∈ [1, 2, 4, 8] → off + m ≤ n →
    widePart s.cfg kind (va.toNat + off) m = true → oneSucceeds s kind (va + BitVec.ofNat 64 off) m)

/-- The state in which the data access of an instruction begins: a floating-point store draws its value first (R259). -/
def accessState (i : Instr) (s : State) : State :=
  match i with
  | .fsw .. | .fsd .. | .fsq .. => tick s
  | _ => s

/-- The data access is made by one `Access` of its whole width: always, unless it is wider than XLEN bits and neither the
platform's choice nor an exception of the whole has it so (R140, R262). -/
def madeByOne (i : Instr) (s : State) (kind : AccessKind) (va : Word) (n : Nat) : Bool :=
  decide (8 * n ≤ xlen s.cfg) || wideIsWhole (accessState i s) kind va n

/-- The data access is made in parts (R101, R142, R262). -/
def madeInParts (i : Instr) (s : State) (kind : AccessKind) (va : Word) (n : Nat) : Bool :=
  !madeByOne i s kind va n || alignStage s.cfg kind va n == .parts

/-- The value a regular or floating-point store writes, in its low bits (R246, R259). -/
def storedValue (i : Instr) (s : State) : BitVec 128 :=
  match i with
  | .sb _ rs2 _ | .sh _ rs2 _ | .sw _ rs2 _ | .sd _ rs2 _ => (readReg s rs2).setWidth 128
  | .fsw .. | .fsd .. | .fsq .. => Config.fpStoreValue s.draws
  | _ => 0

/-- A store-conditional makes the checks of its access (R232, R234): it holds the reservation and `ok` is true, or the
platform checks failing ones too. -/
def scChecks (s : State) (va : Word) (n : Nat) : Prop :=
  s.cfg.scFailChecks = true ∨ (holdsReservation s va n = true ∧ Config.scOk va.toNat s.scDraws = true)

/-- A misaligned access that alignment stops (R98, R99, R101, R102): one that a granule does not help, and that the
platform does not make in parts. -/
def stoppedByAlignment (c : Cfg) (kind : AccessKind) (va : Word) (n : Nat) : Prop :=
  va.toNat % n ≠ 0 ∧
    match kind with
    | .lr | .sc => True
    | .amo _ => inOneGranule c va.toNat n = false
    | .load | .store => (8 * n ≤ xlen c → inOneGranule c va.toNat n = false) ∧ c.misalignedLdSt = .trap
    | .fetch | .ptw _ => False

/-! ## Configuration bytes and CSR instructions -/

/-- A legal configuration byte, said field by field (R50 (a) to (c)). -/
def laneLegal (c : Cfg) (v : Byte) : Prop :=
  v.getLsbD 6 = false ∧ v.getLsbD 5 = false ∧ ¬(v.getLsbD 0 = false ∧ v.getLsbD 1 = true) ∧
    (1 ≤ c.grain → v.extractLsb' 3 2 ≠ 2#2)

/-- A CSR instruction on this CSR executes: a PMP CSR, in M-mode, and not an odd `pmpcfgN` of RV64 (R282). -/
def csrReady (s : State) (csr : BitVec 12) : Bool :=
  csrInScope csr.toNat && s.priv == .machine && !csrIllegalOdd s.cfg csr.toNat

/-- A CSR instruction has completed: `rd` holds the value read; the PMP registers took the write of `new` if there was
one, and then the registers before it joined the snapshots of a hart with paged virtual memory; nothing else (R281,
R59). -/
def csrDone (s t : State) (rd : Reg) (csr : BitVec 12) (writes : Bool) (new : Word) : Prop :=
  writesReg s t rd (csrRead s.cfg s.pmp csr.toNat) ∧ storesNothing s t ∧ movesOn s t ∧ t.events = s.events
    ∧ t.resv = s.resv ∧ t.cfg = s.cfg ∧ t.priv = s.priv ∧ t.mprv = s.mprv ∧ t.mpp = s.mpp ∧ t.trap = s.trap
    ∧ t.pmp = (if writes then csrWriteRegs s.cfg csr.toNat new s.pmp else s.pmp)
    ∧ t.stale = (if writes && s.cfg.hasPagedVM then s.stale ++ [s.pmp] else s.stale)

/-! ## Runs -/

/-- What may happen in an LR/SC loop outside its load-reserved and its store-conditional (R235): base integer
instructions, which are not in scope, and fetches: registers, the pc, free values other than `ok`, device reads. -/
def onlyBetween (s t : State) : Prop := t = { s with x := t.x, pc := t.pc, draws := t.draws, events := t.events }

/-- A constrained LR/SC loop that goes on for ever (R235): in turn `k` the load-reserved `lr` completes in the state
`atLr k` and the store-conditional `sc`, to the same address and width, in `atSc k`. -/
def constrainedLoop (lr sc : Instr) (va : Word) (n : Nat) (atLr atSc : Nat → State) : Prop :=
  ∀ k, dataAccess lr (atLr k) = some (.lr, va, n) ∧ dataAccess sc (atSc k) = some (.sc, va, n) ∧
    (∃ u, exec lr (atLr k) = .next u ∧ u.trap = none ∧ onlyBetween u (atSc k)) ∧
    ∃ u, exec sc (atSc k) = .next u ∧ u.trap = none ∧ onlyBetween u (atLr (k + 1))

/-- The location has the level `RsrvEventual` (R90). -/
def eventualAt (c : Cfg) (pa : Nat) : Prop := ∃ r, pmaOf c pa = some r ∧ r.rsrv = .rsrvEventual

/-- The promise of a platform's `RsrvEventual` locations (R91, R235): in a constrained loop on one of them `ok` is true
infinitely often. It promises nothing of a `RsrvNonEventual` location. A claim of progress takes it as a hypothesis; the
step is the same without it. -/
def EventualSuccess (c : Cfg) : Prop :=
  ∀ lr sc va n atLr atSc, constrainedLoop lr sc va n atLr atSc → (∀ k, (atSc k).cfg = c) → eventualAt c va.toNat →
    ∀ k, ∃ j, k ≤ j ∧ Config.scOk va.toNat (atSc j).scDraws = true

/-- A run of `k` steps with no fault and no refusal. -/
def runsTo (k : Nat) (s t : State) : Prop :=
  match k with
  | 0 => t = s
  | k + 1 => ∃ u, step s = .next u ∧ runsTo k u t

end Sys2Proof.Machine
end

