-- ==== Sys2Proof/Certificates/Slice0/Obligations.lean ====
section
/-! DEFINITION. The statements for the provers. Each docstring cites the rules of spec/ it formalises or rests on. -/

open Sys2Proof Sys2Proof.Machine

/-! ## Encoding (30_encoding.md) -/

/-- Every instruction is read back from its own word, with every operand at every value (R171 to R178). -/
def Obligations.DecodeEncode : Prop := ∀ i : Instr, decode (encode i) = some i

/-- A word that decodes is the word of the instruction it decodes to: no bit is dropped (R171 to R180). -/
def Obligations.EncodeDecode : Prop := ∀ (w : BitVec 32) (i : Instr), decode w = some i → encode i = w

/-- The decoder reads the opcode table (R178, R179): a row accepts a word (`w & mask = match`) exactly when the word
decodes to the instruction of that row, and a word decodes to nothing exactly when no row accepts it. -/
def Obligations.DecodeFollowsTable : Prop :=
  ∀ w : BitVec 32,
    (∀ r ∈ opcodeTable, w &&& r.mask = r.value ↔ ∃ i, decode w = some i ∧ i.mnemonic = r.mnemonic) ∧
    (decode w = none ↔ ∀ r ∈ opcodeTable, w &&& r.mask ≠ r.value)

/-- Words the spec writes out decode to the instructions it names (the examples of R204, R206, R238, R240, R248, R255,
R260, R264, R270, R271, R272, R283, R285, R287; a word of R274's `fence.i` and a compressed word decode to nothing). -/
def Obligations.KnownWords : Prop :=
  decode 0x086522AF = some (.amoswapW false false 5 10 6) ∧ decode 0x006522AF = some (.amoaddW false false 5 10 6) ∧
  decode 0x100522AF = some (.lrW false false 5 10) ∧ decode 0x186523AF = some (.scW false false 7 10 6) ∧
  decode 0x00450283 = some (.lb 5 10 4) ∧ decode 0xFE650E23 = some (.sb 10 6 (-4)) ∧
  decode 0x00852087 = some (.flw 1 10 8) ∧ decode 0x00152427 = some (.fsw 10 1 8) ∧
  decode 0x0FF0000F = some (.fence 0 ⟨true, true, true, true⟩ ⟨true, true, true, true⟩ 0 0) ∧
  decode 0x0CC0000F = some (.fence 0 ⟨true, true, false, false⟩ ⟨true, true, false, false⟩ 0 0) ∧
  decode 0x12000073 = some (.sfenceVma 0 0) ∧ decode 0x3B029073 = some (.csrrw 0 0x3B0 5) ∧
  decode 0x3A02B073 = some (.csrrc 0 0x3A0 5) ∧ decode 0x3A0FE073 = some (.csrrsi 0 0x3A0 31) ∧
  decode 0x0000100F = none ∧ decode 0x00000001 = none

/-! ## The step (00_scope.md R19) -/

/-- A step runs the instruction its fetch decodes (R19, R83): at a pc whose fetch is granted and whose bytes the hart has
not stored to, the step is `exec` of the decoded instruction, in the state the fetch leaves (a free value may have been
drawn and a device read recorded); on a hart without paged virtual memory and away from devices that is the state
itself, and the word is the four bytes at the pc. -/
def Obligations.StepRunsDecoded : Prop :=
  ∀ (s : State) (i : Instr), s.trap = none → (curPc s).toNat % 4 = 0 → granted s .fetch (curPc s) 4 = true →
    (∀ k, k < 4 → (curPc s).toNat + k ∉ s.stored) → decode (valueAt s (curPc s) 4) = some i →
    step s = exec i (afterRead (curPc s).toNat 4 (afterView s)) ∧
    (s.cfg.hasPagedVM = false → isDevice s.cfg (curPc s).toNat = false → step s = exec i s) ∧
    (plainRead s (curPc s) = true → valueAt s (curPc s) 4 = Memory.read s.mem (curPc s).toNat 4)

/-- An instruction placed at the pc from outside is the one the next step runs, whatever was there before
(R19, R83, notes/assumptions/6.md). -/
def Obligations.PlacedWordRuns : Prop :=
  ∀ (s : State) (i : Instr), s.trap = none → (curPc s).toNat % 4 = 0 → granted s .fetch (curPc s) 4 = true →
    plainRead s (curPc s) = true → Memory.wf s.mem →
    step (s.withFetchWord 32 (encode i).toNat) =
      exec i (afterRead (curPc s).toNat 4 (afterView (s.withFetchWord 32 (encode i).toNat)))

/-- The stops of a step and their names (R32, R107, R151, R179, R303): a trap already handed over, a misaligned pc, a
region whose memory model is implementation-defined, a byte the hart has stored to, a word of no row. -/
def Obligations.StepStopsByName : Prop :=
  (∀ (s : State) (t : Trap), s.trap = some t → step s = .fault .trapHandedToEnvironment) ∧
  ∀ s : State, s.trap = none →
    ((curPc s).toNat % 4 ≠ 0 → step s = .refused .misalignedPc) ∧
    ((curPc s).toNat % 4 = 0 → translatable s.cfg (curPc s) 4 = true →
      (∀ r, pmaOf s.cfg (curPc s).toNat = some r → sameRegion r (curPc s).toNat 4 = true → refusesModel r = true →
        step s = .refused .implDefinedMemoryModel) ∧
      (granted s .fetch (curPc s) 4 = true → (∃ k, k < 4 ∧ (curPc s).toNat + k ∈ s.stored) →
        step s = .refused .selfModifyingCode) ∧
      (granted s .fetch (curPc s) 4 = true → (∀ k, k < 4 → (curPc s).toNat + k ∉ s.stored) →
        decode (valueAt s (curPc s) 4) = none → step s = .refused .notInScope))

/-- A fetch that fails (untranslatable, vacant, spanning two regions, not executable, or denied by the PMP at the mode of
the hart) raises the instruction access-fault with the pc as trap value, and nothing else happens (R294, R302, R303). -/
def Obligations.FetchFailureTraps : Prop :=
  ∀ s : State, s.trap = none → (curPc s).toNat % 4 = 0 →
    (translatable s.cfg (curPc s) 4 = false ∨ denied s .fetch (curPc s) 4 = true) →
    ∃ t, step s = .next t ∧ trapsWith s t (.accessFault .execute) (curPc s)

/-! ## Invariants and whole-machine rules -/

/-- Every step keeps the invariant of the machine: canonical memory of mapped bytes (R66), XLEN-bit registers with `x0`
zero (R30, R31), a pc that is a multiple of 4 (R32, R293), legal PMP registers and snapshots (R47, R50, R54, R60, R64),
a reservation and a trap of legal shape (R231, R293, R302). -/
def Obligations.StepKeepsInv : Prop := ∀ s t : State, s.Inv → step s = .next t → t.Inv

/-- The state after reset meets the invariant, on every platform the spec admits (R67, R331). The values of the
registers the spec leaves unspecified are the model's choice (notes/assumptions/3.md, 4.md). -/
def Obligations.ResetMeetsInv : Prop := ∀ c : Cfg, c.wf = true → (State.resetOn c).Inv

/-- What reset leaves, as the tables of R67 and R331 give it: every entry unlocked and OFF, M-mode, MPRV clear, no
reservation, no snapshot, the pc at the reset vector; so every M-mode access passes the PMP and, with entries
implemented, every S-mode and U-mode access fails it (R332). -/
def Obligations.ResetState : Prop :=
  ∀ c : Cfg, (∀ i : Fin 64, laneL (State.resetOn c).pmp.cfg[i] = false ∧ laneMode (State.resetOn c).pmp.cfg[i] = .off) ∧
    (State.resetOn c).priv = .machine ∧ (State.resetOn c).mprv = false ∧ (State.resetOn c).resv = none ∧
    (State.resetOn c).stale = [] ∧ (State.resetOn c).pc = c.resetVector ∧ (State.resetOn c).cfg = c ∧
    (∀ pa n t, pmpCheck c (State.resetOn c).pmp pa n t .machine = true) ∧
    (npmp c ≠ 0 → ∀ pa n t mode, mode ≠ .machine → pmpCheck c (State.resetOn c).pmp pa n t mode = false)

/-- No step changes the mode, MPRV, MPP or the platform (R34, R35, R308; notes/assumptions/2.md for the platform). -/
def Obligations.StepKeepsModeAndPlatform : Prop :=
  ∀ s t : State, step s = .next t → t.priv = s.priv ∧ t.mprv = s.mprv ∧ t.mpp = s.mpp ∧ t.cfg = s.cfg

/-- The frame of every instruction that completes: the pc moves by 4, no register but the destination changes, no byte of
memory outside the bytes stored to, no PMP register unless it is a CSR instruction, no snapshot unless it is a CSR
instruction or `sfence.vma x0, x0`, no reservation unless it is an atomic or a store, no mode (R30 to R35, R202, R231,
R232, R245, R246, R259, R270, R272, R281). -/
def Obligations.CompletedFrame : Prop :=
  ∀ (i : Instr) (s t : State), s.trap = none → exec i s = .next t → t.trap = none →
    movesOn s t ∧ t.cfg = s.cfg ∧ t.priv = s.priv ∧ t.mprv = s.mprv ∧ t.mpp = s.mpp ∧
    (isCsrInstr i = false → t.pmp = s.pmp) ∧
    (isCsrInstr i = false → i ≠ .sfenceVma 0 0 → t.stale = s.stale) ∧
    (leavesReservation i = true → t.resv = s.resv) ∧
    (∀ r, destOf i ≠ some r → readReg t r = readReg s r) ∧
    (∀ a, (∀ va n, storeTarget i s = some (va, n) → a < va ∨ va + n ≤ a) → Memory.get t.mem a = Memory.get s.mem a) ∧
    eventsExtend s t

/-- A trap is precise (R303, R304): the pc is that of the instruction, no register, mode, PMP register or snapshot has
changed, the reservation is kept or dropped, earlier device accesses stay recorded. A byte of memory has changed only by
a regular or floating-point store that is made in parts (R101, R143, R262): it lies in the memory stored to and, memory
having been in its canonical form, holds its byte of the value stored. The next step is a fault of the model's own, for what happens next is the environment's: the
model's choice, notes/assumptions/1.md. -/
def Obligations.TrapIsPrecise : Prop :=
  ∀ (s t : State) (τ : Trap), step s = .next t → t.trap = some τ →
    t.pc = s.pc ∧ sameRegs s t ∧ t.cfg = s.cfg ∧ t.priv = s.priv ∧ t.mprv = s.mprv ∧ t.mpp = s.mpp ∧ t.pmp = s.pmp ∧
    t.stale = s.stale ∧ resvKeptOrDropped s t ∧ eventsExtend s t ∧
    (∀ a, Memory.get t.mem a ≠ Memory.get s.mem a → ∃ i u va n, decode (valueAt s (curPc s) 4) = some i ∧
      u = afterRead (curPc s).toNat 4 (afterView s) ∧ isPlainStore i = true ∧ dataAccess i u = some (.store, va, n) ∧
      madeInParts i u .store va n = true ∧ va.toNat ≤ a ∧ a < va.toNat + n ∧
      (Memory.wf s.mem → Memory.get t.mem a = (storedValue i u).extractLsb' (8 * (a - va.toNat)) 8)) ∧
    step t = .fault .trapHandedToEnvironment

/-- A byte of memory changes only where the platform maps it and some PMP view the hart may use permits the effective
privilege mode to write it, and it then counts as stored to (R132, R140, R147, R151). -/
def Obligations.MemoryChangesOnlyWherePermitted : Prop :=
  ∀ (s t : State) (a : Nat), step s = .next t → Memory.get t.mem a ≠ Memory.get s.mem a →
    (pmaOf s.cfg a).isSome = true ∧ a ∈ t.stored ∧
    ∃ p ∈ pmpViews s, ∃ pa n, pa ≤ a ∧ a < pa + n ∧ pmpCheck s.cfg p pa n .write (effPriv s .store) = true

/-- Only M-mode changes a PMP register, and only by a CSR instruction (R44, R59). -/
def Obligations.PmpChangesOnlyInMMode : Prop :=
  ∀ s t : State, step s = .next t → t.pmp ≠ s.pmp →
    s.priv = .machine ∧ ∃ i, decode (valueAt s (curPc s) 4) = some i ∧ isCsrInstr i = true

/-- A locked entry stays as it is over every run, whatever its mode, OFF included: its byte, its address register and,
for a TOR entry, the address register below it (R49, R57, R62). -/
def Obligations.LockedEntriesStay : Prop :=
  ∀ (k : Nat) (s t : State), runsTo k s t → ∀ i : Fin 64, laneL (readLane s.cfg s.pmp i) = true →
    t.pmp.cfg[i] = s.pmp.cfg[i] ∧ laneL (readLane t.cfg t.pmp i) = true ∧ t.pmp.addr[i] = s.pmp.addr[i] ∧
    (laneMode s.pmp.cfg[i] = .tor → ∀ j : Fin 64, j.val + 1 = i.val → t.pmp.addr[j] = s.pmp.addr[j])

/-- The records of a run only grow: the device events and the addresses stored to (R119, R120, R151). -/
def Obligations.RecordsOnlyGrow : Prop :=
  ∀ s t : State, step s = .next t → eventsExtend s t ∧ ∀ a ∈ s.stored, a ∈ t.stored

/-! ## Exceptions (60_exceptions.md) -/

/-- The cause codes (R290) and the exception each kind of access raises (R141, R292). -/
def Obligations.ExceptionCodes : Prop :=
  Exc.code (.addrMisaligned .execute) = 0 ∧ Exc.code (.accessFault .execute) = 1 ∧ Exc.code .illegalInstruction = 2 ∧
  Exc.code (.addrMisaligned .read) = 4 ∧ Exc.code (.accessFault .read) = 5 ∧
  Exc.code (.addrMisaligned .write) = 6 ∧ Exc.code (.accessFault .write) = 7 ∧
  kindType .fetch = .execute ∧ kindType .load = .read ∧ kindType .lr = .read ∧ kindType .store = .write ∧
  kindType .sc = .write ∧ ∀ op, kindType (.amo op) = .write

/-- An instruction that does not exist on the platform (a 64-bit form on RV32, a floating-point access wider than FLEN)
raises the illegal-instruction exception with its word as trap value, before any access (R180 item 4, R259, R296,
R301). -/
def Obligations.NonexistentFormsAreIllegal : Prop :=
  ∀ (i : Instr) (s : State), i.wellFormed s.cfg = false →
    ∃ t, exec i s = .next t ∧ trapsWith s t .illegalInstruction ((encode i).setWidth 64)

/-- A data access that fails a check raises the access-fault of its kind and nothing else happens (R89, R92, R141, R145,
R295, R302), whatever its width. Untranslatable: with its address as trap value. Denied (vacant, spanning two regions, not
accepted by the region, or not permitted by the PMP) and made by one `Access`, where the checks come before or without
an alignment exception (aligned, inside one granule, or `misalignedFirst` false, R300): with its address. Denied in
every part, where alignment does not stop it, made whole or in parts (R101, R262): with the address of the part that
failed. A store-conditional does so when it makes its checks: if it holds the reservation and draws `ok`, and otherwise
where the platform checks failing ones (R232, R234, R236). -/
def Obligations.DeniedAccessTraps : Prop :=
  ∀ (i : Instr) (s : State) (kind : AccessKind) (va : Word) (n : Nat), dataAccess i s = some (kind, va, n) →
    i.wellFormed s.cfg = true →
    (translatable s.cfg va n = false →
      ∃ t, exec i s = .next t ∧ trapsWith s t (.accessFault (kindType kind)) va) ∧
    (madeByOne i s kind va n = true → denied s kind va n = true →
      (alignStage s.cfg kind va n = .whole ∨ s.cfg.misalignedFirst = false) → (isSc i = true → scChecks s va n) →
      ∃ t, exec i s = .next t ∧ trapsWith s t (.accessFault (kindType kind)) va) ∧
    (translatable s.cfg va n = true → stopsAlignment s.cfg kind va n = false →
      (∀ off m, m ∈ [1, 2, 4, 8, 16] → off + m ≤ n → denied s kind (va + BitVec.ofNat 64 off) m = true) →
      (isSc i = true → scChecks s va n) →
      ∃ t off, off < n ∧ exec i s = .next t ∧
        trapsWith s t (.accessFault (kindType kind)) (va + BitVec.ofNat 64 off))

/-- A misaligned access that alignment stops raises, with its address as trap value, the exception its region chooses:
address-misaligned or access-fault of its kind, the access-fault at a vacant address (R98 to R103, R297, R300); an
access wider than XLEN bits does so before any part is performed (R262). With the checks first, this is so when they
pass. -/
def Obligations.MisalignedAccessTraps : Prop :=
  ∀ (i : Instr) (s : State) (kind : AccessKind) (va : Word) (n : Nat), dataAccess i s = some (kind, va, n) →
    i.wellFormed s.cfg = true → translatable s.cfg va n = true →
    stoppedByAlignment s.cfg kind va n → (s.cfg.misalignedFirst = true ∨ checked s kind va n = true) →
    ∃ t e, exec i s = .next t ∧ trapsWith s t e va ∧
      (∀ r, pmaOf s.cfg va.toNat = some r →
        e = (if r.misalignedExc = .addressMisaligned then .addrMisaligned (kindType kind)
          else .accessFault (kindType kind))) ∧
      (pmaOf s.cfg va.toNat = none → e = .accessFault (kindType kind))

/-- A misaligned load-reserved or store-conditional never completes, whatever the granule of its region and whether or not
the store-conditional would have succeeded (R102, R237). -/
def Obligations.LrScMisalignedNeverCompletes : Prop :=
  ∀ (i : Instr) (s t : State) (kind : AccessKind) (va : Word) (n : Nat), dataAccess i s = some (kind, va, n) →
    kind = .lr ∨ kind = .sc → va.toNat % n ≠ 0 → exec i s = .next t →
    t.trap.isSome = true ∧ t.pc = s.pc ∧ sameRegs s t ∧ storesNothing s t ∧ resvKeptOrDropped s t

/-- The standard machine-mode trap entry and `mret` that the spec gives for information (R305), as the environment
operations of notes/assumptions/20.md: entry saves the pc, the cause, the trap value, the interrupt enable and the mode,
and goes to the vector in M-mode; the return restores the mode, the pc and the enable. -/
def Obligations.TrapEntryAndReturn : Prop :=
  ∀ (r : TrapCsrs) (s : State) (τ : Trap), s.trap = some τ →
    (enterMachineTrap r s).1.mepc = curPc s ∧ (enterMachineTrap r s).1.mcause = Exc.code τ.exc ∧
    (enterMachineTrap r s).1.mtval = τ.tval ∧ (enterMachineTrap r s).1.mpie = r.mie ∧
    (enterMachineTrap r s).1.mie = false ∧ (enterMachineTrap r s).2.mpp = s.priv ∧
    (enterMachineTrap r s).2.priv = .machine ∧ (enterMachineTrap r s).2.pc = truncX s.cfg r.mtvecBase ∧
    (enterMachineTrap r s).2.trap = none ∧
    (returnFromMachineTrap (enterMachineTrap r s).1 (enterMachineTrap r s).2).2.priv = s.priv ∧
    (returnFromMachineTrap (enterMachineTrap r s).1 (enterMachineTrap r s).2).2.pc = curPc s ∧
    (returnFromMachineTrap (enterMachineTrap r s).1 (enterMachineTrap r s).2).1.mie = r.mie ∧
    (s.priv ≠ .machine →
      (returnFromMachineTrap (enterMachineTrap r s).1 (enterMachineTrap r s).2).2.mprv = false)

/-! ## Physical memory protection (20_memory.md section 8) -/

/-- The effective privilege mode (R134): the mode of the hart, but for a data access in M-mode with MPRV set, which takes
the mode of MPP, and for a page-table access, which is S. MPRV never changes a fetch. -/
def Obligations.EffectivePrivilege : Prop :=
  ∀ s : State, effPriv s .fetch = s.priv ∧ (∀ w, effPriv s (.ptw w) = .supervisor) ∧
    ∀ kind, kind = .load ∨ kind = .store ∨ kind = .lr ∨ kind = .sc ∨ (∃ op, kind = .amo op) →
      effPriv s kind = if s.priv = .machine ∧ s.mprv = true then s.mpp else s.priv

/-- The lowest-numbered entry that matches any byte of an access decides: it must match every byte, and then its `L`,
`R`, `W`, `X` bits permit or deny (R135, R136). The example of R135: an entry of highest priority that matches the
four-byte range 0xC to 0xF fails every 8-byte access at 0x8, in every mode. -/
def Obligations.PmpVerdict : Prop :=
  (∀ (c : Cfg) (p : PmpRegs) (pa n i : Nat) (t : AccessType) (mode : Priv), i < npmp c →
    (∀ j k, j < i → k < n → matchEntry c p j (pa + k) = false) → (∃ k, k < n ∧ matchEntry c p i (pa + k) = true) →
    (pmpCheck c p pa n t mode = true ↔
      (∀ k, k < n → matchEntry c p i (pa + k) = true) ∧ permit (readLane c p i) t mode = true)) ∧
  ∀ (c : Cfg) (p : PmpRegs) (t : AccessType) (mode : Priv), 0 < npmp c → laneMode (readLane c p 0) = .na4 →
    (readAddr c p 0).toNat = 3 → pmpCheck c p 0x8 8 t mode = false

/-- An access no entry matches succeeds in M-mode, and in S-mode and U-mode only if no entry is implemented; so with all
entries OFF every S-mode and U-mode access fails (R139). That an S-mode or U-mode access succeeds when no entry is
implemented is the spec's own reading of its source, as R139 says (D13). -/
def Obligations.NoMatchRule : Prop :=
  ∀ (c : Cfg) (p : PmpRegs) (pa n : Nat) (t : AccessType) (mode : Priv),
    ((∀ i k, i < npmp c → k < n → matchEntry c p i (pa + k) = false) →
      (pmpCheck c p pa n t mode = true ↔ mode = .machine ∨ npmp c = 0)) ∧
    ((∀ i, i < npmp c → laneMode (readLane c p i) = .off) → npmp c ≠ 0 → mode ≠ .machine →
      pmpCheck c p pa n t mode = false)

/-- An entry that matches every byte permits M-mode if it is not locked, and otherwise the access types whose bit is set
(R137, R138); an AMO is checked as a write only, and a legal entry that grants `W` also grants `R` (R47, R137). -/
def Obligations.PermitRule : Prop :=
  (∀ (v : Byte) (t : AccessType) (mode : Priv), permit v t mode = true ↔
    (v.getLsbD 7 = false ∧ mode = .machine) ∨
      (t = .read ∧ v.getLsbD 0 = true) ∨ (t = .write ∧ v.getLsbD 1 = true) ∨ (t = .execute ∧ v.getLsbD 2 = true)) ∧
  (∀ op, kindType (.amo op) = .write) ∧
  ∀ (c : Cfg) (v : Byte) (mode : Priv), laneLegal c v → permit v .write mode = true → permit v .read mode = true

/-- A TOR entry matches the bytes from the preceding entry's address value (zero for entry 0) up to its own, both without
their low `G` bits (R126); when the preceding value is not below its own it matches nothing (R127). -/
def Obligations.TorRange : Prop :=
  ∀ (c : Cfg) (p : PmpRegs) (i y : Nat), laneMode (readLane c p i) = .tor →
    (matchEntry c p i y = true ↔
      (if i = 0 then 0 else storedAddr c p (i - 1) / 2 ^ c.grain * 2 ^ c.grain) * 4 ≤ y ∧
        y < storedAddr c p i / 2 ^ c.grain * 2 ^ c.grain * 4) ∧
    (i ≠ 0 → storedAddr c p i ≤ storedAddr c p (i - 1) → matchEntry c p i y = false)

/-- An OFF entry matches nothing; an NA4 entry matches its four bytes; a NAPOT entry whose address, as read, ends in `t`
ones below a zero matches the aligned block of `2^(t+3)` bytes (R128, R129). -/
def Obligations.NaturallyAlignedRegions : Prop :=
  ∀ (c : Cfg) (p : PmpRegs) (i y : Nat),
    (laneMode (readLane c p i) = .off → matchEntry c p i y = false) ∧
    (laneMode (readLane c p i) = .na4 →
      (matchEntry c p i y = true ↔ (readAddr c p i).toNat * 4 ≤ y ∧ y < (readAddr c p i).toNat * 4 + 4)) ∧
    ∀ t b : Nat, laneMode (readLane c p i) = .napot → (readAddr c p i).toNat = b * 2 ^ (t + 1) + (2 ^ t - 1) →
      (matchEntry c p i y = true ↔ b * 2 ^ (t + 3) ≤ y ∧ y < (b + 1) * 2 ^ (t + 3))

/-- The grain (R9, R130): a legal PMP tells no two bytes of one naturally aligned block of `2^(G+2)` bytes apart. -/
def Obligations.GrainIsHonoured : Prop :=
  ∀ (c : Cfg) (p : PmpRegs), c.wf = true → p.legal c → ∀ i y z : Nat, y / 2 ^ (c.grain + 2) = z / 2 ^ (c.grain + 2) →
    matchEntry c p i y = matchEntry c p i z

/-! ## The PMP registers (10_state.md section 6) -/

/-- The contract of the legalisation of a configuration byte (R50): the result is legal; a legal value is stored as
written, bits 6:5 cleared; a hardwired entry keeps its value. -/
def Obligations.LegalizeContract : Prop :=
  ∀ (c : Cfg) (i : Nat) (old w : Byte), laneLegal c old →
    laneLegal c (legalizeCfg c i old w) ∧
    (c.hardwired.contains i = false → laneLegal c (w &&& 0x9F) → legalizeCfg c i old w = w &&& 0x9F) ∧
    (c.hardwired.contains i = true → legalizeCfg c i old w = old)

/-- A write of the configuration byte of an entry (R51): ignored for an unimplemented or a locked entry; otherwise the
legalised value is stored and nothing else changes. A write that sets `L` takes effect in full and is the last that
does (derived in R51 from R49 and R62). -/
def Obligations.WriteCfgRule : Prop :=
  ∀ (c : Cfg) (p : PmpRegs) (i : Fin 64) (w : Byte),
    (npmp c ≤ i.val → writeLane c i w p = p) ∧ (laneL p.cfg[i] = true → writeLane c i w p = p) ∧
    (i.val < npmp c → laneL p.cfg[i] = false →
      (writeLane c i w p).cfg[i] = legalizeCfg c i p.cfg[i] w ∧
      (∀ j : Fin 64, j ≠ i → (writeLane c i w p).cfg[j] = p.cfg[j]) ∧ (writeLane c i w p).addr = p.addr) ∧
    (laneL (writeLane c i w p).cfg[i] = true → ∀ v, writeLane c i v (writeLane c i w p) = writeLane c i w p)

/-- A write of an address register (R56, R57): ignored for an unimplemented entry, a locked one, and one below a locked
TOR entry; otherwise the bits of implemented physical addresses are stored as written, the low `G` bits included, and
nothing else changes. Entries the platform hardwires are the default's none (R50). -/
def Obligations.WriteAddrRule : Prop :=
  ∀ (c : Cfg) (p : PmpRegs) (i : Fin 64) (v : Word), c.hardwired.contains i.val = false →
    (npmp c ≤ i.val → writeAddr c i v p = p) ∧ (laneL (readLane c p i) = true → writeAddr c i v p = p) ∧
    (i.val + 1 < npmp c → laneL (readLane c p (i.val + 1)) = true → laneMode (readLane c p (i.val + 1)) = .tor →
      writeAddr c i v p = p) ∧
    (i.val < npmp c → laneL (readLane c p i) = false →
      ¬(i.val + 1 < npmp c ∧ laneL (readLane c p (i.val + 1)) = true ∧ laneMode (readLane c p (i.val + 1)) = .tor) →
      (writeAddr c i v p).addr[i].toNat = v.toNat % 2 ^ (c.pabits - 2) ∧
      (∀ j : Fin 64, j ≠ i → (writeAddr c i v p).addr[j] = p.addr[j]) ∧ (writeAddr c i v p).cfg = p.cfg)

/-- The value an address register reads (R55): with NA4 or NAPOT and `G ≥ 2` the bits below `G - 1` read as ones, with OFF
or TOR and `G ≥ 1` the bits below `G` read as zeros, every other bit as stored; an unimplemented entry reads zero.
Writing a configuration byte changes no stored address. -/
def Obligations.ReadAddrRule : Prop :=
  ∀ (c : Cfg) (p : PmpRegs) (i : Fin 64), p.addr[i].toNat < 2 ^ (palen c - 2) →
    (npmp c ≤ i.val → readAddr c p i = 0) ∧
    (i.val < npmp c → ∀ j, j < xlen c → (readAddr c p i).getLsbD j =
      (if p.cfg[i].getLsbD 4 = true ∧ 2 ≤ c.grain then decide (j < c.grain - 1) || p.addr[i].getLsbD j
        else if p.cfg[i].getLsbD 4 = false ∧ 1 ≤ c.grain then decide (c.grain ≤ j) && p.addr[i].getLsbD j
        else p.addr[i].getLsbD j)) ∧
    ∀ w, (writeLane c i w p).addr = p.addr

/-- Unimplemented entries read as zero, ignore writes and match nothing; the CSRs that hold them raise nothing in M-mode,
but for the odd `pmpcfgN` of RV64 (R60). -/
def Obligations.UnimplementedEntries : Prop :=
  (∀ (c : Cfg) (p : PmpRegs) (i : Nat), npmp c ≤ i →
    readLane c p i = 0 ∧ readAddr c p i = 0 ∧ (∀ w, writeLane c i w p = p) ∧ (∀ v, writeAddr c i v p = p) ∧
    ∀ y, matchEntry c p i y = false) ∧
  ∀ (rd rs1 : Reg) (csr : BitVec 12) (s : State), csrReady s csr = true →
    ∃ t, exec (.csrrw rd csr rs1) s = .next t ∧ t.trap = s.trap

/-- The packing of the CSRs (R41, R42, R58): byte `k` of `pmpcfgN` is the configuration of entry `4N + k`, for the four
lanes of RV32 and the eight of RV64; `pmpaddr` CSRs read as their entries do. -/
def Obligations.CsrReadPacks : Prop :=
  ∀ (c : Cfg) (p : PmpRegs),
    (∀ m k, m < 16 → k < xlen c / 8 → (csrRead c p (0x3A0 + m)).extractLsb' (8 * k) 8 = readLane c p (4 * m + k)) ∧
    ∀ i, i < 64 → csrRead c p (0x3B0 + i) = readAddr c p i

/-- A write of `pmpcfgN` writes each of its lanes as if alone, and nothing else (R51, R59). -/
def Obligations.CsrWriteLanes : Prop :=
  ∀ (c : Cfg) (p : PmpRegs) (m : Nat) (v : Word), m < 16 →
    (csrWriteRegs c (0x3A0 + m) v p).addr = p.addr ∧
    ∀ i : Fin 64,
      (∀ k, k < xlen c / 8 → i.val = 4 * m + k →
        (csrWriteRegs c (0x3A0 + m) v p).cfg[i] = (writeLane c i (v.extractLsb' (8 * k) 8) p).cfg[i]) ∧
      (i.val < 4 * m ∨ 4 * m + xlen c / 8 ≤ i.val → (csrWriteRegs c (0x3A0 + m) v p).cfg[i] = p.cfg[i])

/-- Finding the grain, the worked sequence of the source (R61, R289): writing zero to entry 0's configuration, then all
ones to its address register, then reading that register back, gives a value whose least-significant set bit has index
`G`. Entry 0 is implemented, neither locked nor hardwired, no locked TOR entry freezes its address, and
`G ≤ PABITS - 3`. -/
def Obligations.GrainDetection : Prop :=
  ∀ s : State, s.priv = .machine → 0 < npmp s.cfg → s.cfg.hardwired.contains 0 = false →
    laneL (readLane s.cfg s.pmp 0) = false →
    ¬(laneL (readLane s.cfg s.pmp 1) = true ∧ laneMode (readLane s.cfg s.pmp 1) = .tor) →
    s.cfg.grain + 3 ≤ s.cfg.pabits → s.cfg.pabits ≤ palen s.cfg → (readReg s 5).toNat = 2 ^ xlen s.cfg - 1 →
    ∃ s1 s2 s3, exec (.csrrwi 0 0x3A0 0) s = .next s1 ∧ exec (.csrrw 0 0x3B0 5) s1 = .next s2 ∧
      exec (.csrrs 6 0x3B0 0) s2 = .next s3 ∧ (readReg s3 6).getLsbD s.cfg.grain = true ∧
      ∀ j, j < s.cfg.grain → (readReg s3 6).getLsbD j = false

/-! ## The CSR instructions (44_csr.md) -/

/-- The six CSR instructions on a PMP CSR in M-mode complete (R281, R283 to R288): `rd` receives the value read, and the
value written is the operand, the union of the two, or the value read without the operand's bits; the set and clear
forms with `x0` or a zero immediate write nothing. -/
def Obligations.CsrResult : Prop :=
  ∀ (rd rs1 : Reg) (uimm : BitVec 5) (csr : BitVec 12) (s : State), csrReady s csr = true →
    (∃ t, exec (.csrrw rd csr rs1) s = .next t ∧ csrDone s t rd csr true (readReg s rs1)) ∧
    (∃ t, exec (.csrrs rd csr rs1) s = .next t ∧
      csrDone s t rd csr (rs1 != 0) (csrRead s.cfg s.pmp csr.toNat ||| readReg s rs1)) ∧
    (∃ t, exec (.csrrc rd csr rs1) s = .next t ∧
      csrDone s t rd csr (rs1 != 0) (csrRead s.cfg s.pmp csr.toNat &&& ~~~readReg s rs1)) ∧
    (∃ t, exec (.csrrwi rd csr uimm) s = .next t ∧ csrDone s t rd csr true (uimm.setWidth 64)) ∧
    (∃ t, exec (.csrrsi rd csr uimm) s = .next t ∧
      csrDone s t rd csr (uimm != 0) (csrRead s.cfg s.pmp csr.toNat ||| uimm.setWidth 64)) ∧
    (∃ t, exec (.csrrci rd csr uimm) s = .next t ∧
      csrDone s t rd csr (uimm != 0) (csrRead s.cfg s.pmp csr.toNat &&& ~~~uimm.setWidth 64))

/-- A CSR instruction on a PMP CSR outside M-mode, MPRV or not, or on an odd `pmpcfgN` of RV64, raises the
illegal-instruction exception with its word as trap value (R43, R44, R282); on any other CSR it is refused by name
(R58, R180 item 9). -/
def Obligations.CsrTraps : Prop :=
  ∀ (i : Instr) (csr : BitVec 12) (s : State),
    ((∃ rd rs1, i = .csrrw rd csr rs1 ∨ i = .csrrs rd csr rs1 ∨ i = .csrrc rd csr rs1) ∨
      ∃ rd uimm, i = .csrrwi rd csr uimm ∨ i = .csrrsi rd csr uimm ∨ i = .csrrci rd csr uimm) →
    ((0x3A0 ≤ csr.toNat ∧ csr.toNat ≤ 0x3EF) →
      s.priv ≠ .machine ∨ (s.cfg.mxlen = .rv64 ∧ csr.toNat ≤ 0x3AF ∧ csr.toNat % 2 = 1) →
      ∃ t, exec i s = .next t ∧ trapsWith s t .illegalInstruction ((encode i).setWidth 64)) ∧
    (csr.toNat < 0x3A0 ∨ 0x3EF < csr.toNat → exec i s = .refused (.csrOutOfScope csr.toNat))

/-! ## Atomic memory operations (40_amo.md) -/

/-- The eighteen AMOs (R202, R204 to R221): when its access is granted an AMO completes; memory holds the combination of
the value read and the source operand, `rd` the value read, sign-extended, both as they were before any write; the
reservation is kept or dropped. The 8-byte forms exist on RV64. -/
def Obligations.AmoResult : Prop :=
  ∀ (op : AmoOp) (aq rl : Bool) (rd rs1 rs2 : Reg) (s : State), Memory.wf s.mem →
    (granted s (.amo op) (readReg s rs1) 4 = true →
      ∃ t new, exec (amoW op aq rl rd rs1 rs2) s = .next t ∧
        amoLeaves op (valueAt s (readReg s rs1) 4) ((readReg s rs2).setWidth (8 * 4)) new ∧
        writesReg s t rd (sextX s.cfg (valueAt s (readReg s rs1) 4)) ∧ storesBytes s t (readReg s rs1).toNat 4 new ∧
        movesOn s t ∧ sameControl s t ∧ resvKeptOrDropped s t ∧
        addsEvents s t (readReg s rs1).toNat
          [⟨(readReg s rs1).toNat, 4, none⟩, ⟨(readReg s rs1).toNat, 4, some new.toNat⟩]) ∧
    (s.cfg.mxlen = .rv64 → granted s (.amo op) (readReg s rs1) 8 = true →
      ∃ t new, exec (amoD op aq rl rd rs1 rs2) s = .next t ∧
        amoLeaves op (valueAt s (readReg s rs1) 8) ((readReg s rs2).setWidth (8 * 8)) new ∧
        writesReg s t rd (sextX s.cfg (valueAt s (readReg s rs1) 8)) ∧ storesBytes s t (readReg s rs1).toNat 8 new ∧
        movesOn s t ∧ sameControl s t ∧ resvKeptOrDropped s t ∧
        addsEvents s t (readReg s rs1).toNat
          [⟨(readReg s rs1).toNat, 8, none⟩, ⟨(readReg s rs1).toNat, 8, some new.toNat⟩])

/-- Which AMOs a region supports (R86 to R89): swaps at every level but the lowest, the logical ones from AMOLogical, all
of them at AMOArithmetic, each only at a width the region can both read and write. -/
def Obligations.AmoSupport : Prop :=
  ∀ (r : PmaRegion) (op : AmoOp) (n : Nat), amoPmaOk r op n = true ↔
    n ∈ r.readWidths ∧ n ∈ r.writeWidths ∧
    ((op = .amoswap ∧ r.amo ≠ .amoNone) ∨
      ((op = .amoand ∨ op = .amoor ∨ op = .amoxor) ∧ (r.amo = .amoLogical ∨ r.amo = .amoArithmetic)) ∨
      r.amo = .amoArithmetic)

/-- The misaligned atomicity granule (R94, R96, R97): an access lies inside one granule exactly when all its bytes do, and
then an AMO of any width, and a load or store of at most MXLEN bits, is one memory operation that alignment does not
stop. -/
def Obligations.OneGranule : Prop :=
  ∀ (c : Cfg) (va : Word) (n : Nat), 0 < n →
    (inOneGranule c va.toNat n = true ↔ ∃ r g q, pmaOf c va.toNat = some r ∧ r.mag = some g ∧
      ∀ k, k < n → (va.toNat + k) / g = q) ∧
    (inOneGranule c va.toNat n = true →
      (∀ op, alignStage c (.amo op) va n = .whole) ∧
      (8 * n ≤ xlen c → alignStage c .load va n = .whole ∧ alignStage c .store va n = .whole))

/-! ## Load-reserved and store-conditional (41_lrsc.md) -/

/-- A load-reserved whose access is granted completes (R231, R238, R239): `rd` receives the value, sign-extended, and the
reservation is its address and width, in place of any earlier one. -/
def Obligations.LrResult : Prop :=
  ∀ (aq rl : Bool) (rd rs1 : Reg) (s : State),
    (granted s .lr (readReg s rs1) 4 = true → ∃ t, exec (.lrW aq rl rd rs1) s = .next t ∧
      loadsTo s t (readReg s rs1) 4 rd (sextX s.cfg (valueAt s (readReg s rs1) 4)) ∧
      t.resv = some ⟨(readReg s rs1).toNat, 4⟩) ∧
    (s.cfg.mxlen = .rv64 → granted s .lr (readReg s rs1) 8 = true → ∃ t, exec (.lrD aq rl rd rs1) s = .next t ∧
      loadsTo s t (readReg s rs1) 8 rd (sextX s.cfg (valueAt s (readReg s rs1) 8)) ∧
      t.resv = some ⟨(readReg s rs1).toNat, 8⟩)

/-- A store-conditional (R232, R240, R241). Without a reservation of its address and width, aligned and translatable (and
granted, where the platform checks failing ones, R234), it completes with code 1 and stores nothing. With the
reservation and a granted access it completes, and the free boolean decides: code 0 and the source stored, or code 1
and nothing stored. Either way no reservation is left. -/
def Obligations.ScResult : Prop :=
  ∀ (aq rl : Bool) (rd rs1 rs2 : Reg) (s : State) (i : Instr) (n : Nat), Memory.wf s.mem →
    (i = .scW aq rl rd rs1 rs2 ∧ n = 4) ∨ (i = .scD aq rl rd rs1 rs2 ∧ n = 8 ∧ s.cfg.mxlen = .rv64) →
    (s.resv ≠ some ⟨(readReg s rs1).toNat % 2 ^ palen s.cfg, n⟩ → translatable s.cfg (readReg s rs1) n = true →
      (readReg s rs1).toNat % n = 0 → (s.cfg.scFailChecks = true → granted s .sc (readReg s rs1) n = true) →
      ∃ t, exec i s = .next t ∧ writesReg s t rd 1 ∧ storesNothing s t ∧ t.resv = none ∧ movesOn s t ∧
        sameControl s t ∧ t.events = s.events) ∧
    (s.resv = some ⟨(readReg s rs1).toNat, n⟩ → granted s .sc (readReg s rs1) n = true →
      ∃ t, exec i s = .next t ∧ t.resv = none ∧ movesOn s t ∧ sameControl s t ∧
        if Config.scOk (readReg s rs1).toNat s.scDraws = true then
          writesReg s t rd 0 ∧ storesBytes s t (readReg s rs1).toNat n ((readReg s rs2).setWidth (8 * n)) ∧
          addsEvents s t (readReg s rs1).toNat
            [⟨(readReg s rs1).toNat, n, some ((readReg s rs2).setWidth (8 * n)).toNat⟩]
        else writesReg s t rd 1 ∧ storesNothing s t ∧ t.events = s.events)

/-- A store-conditional that completes did one of two things, and its code says which (R232, R233): code 0, the
reservation held and the source operand stored; or code 1 and nothing stored. No reservation is left either way. -/
def Obligations.ScCodeTellsTheStore : Prop :=
  ∀ (aq rl : Bool) (rd rs1 rs2 : Reg) (s t : State) (i : Instr) (n : Nat), Memory.wf s.mem →
    (i = .scW aq rl rd rs1 rs2 ∧ n = 4) ∨ (i = .scD aq rl rd rs1 rs2 ∧ n = 8) →
    exec i s = .next t → t.trap = none →
    t.resv = none ∧
      ((readReg t rd = 0 ∧ s.resv = some ⟨(readReg s rs1).toNat, n⟩ ∧
          storesBytes s t (readReg s rs1).toNat n ((readReg s rs2).setWidth (8 * n))) ∨
        (readReg t rd = (if rd = 0 then 0 else 1) ∧ storesNothing s t))

/-- When store-conditionals fail and succeed in runs. Of two in a row the second always fails (R232, R240). In a
constrained LR/SC loop whose accesses are granted the booleans `ok` are drawn one after another, and turn `k` stores, with
code 0, exactly when its `ok` is true, and fails otherwise; so on a `RsrvEventual` location, by the promise the spec makes
of it as a property of runs (R91, R235), some later turn always stores, and of a `RsrvNonEventual` one nothing is
promised. -/
def Obligations.SecondScFailsLoopSucceeds : Prop :=
  (∀ (i j : Instr) (s u t : State) (rd : Reg), isSc i = true → isSc j = true → destOf j = some rd →
    exec i s = .next u → u.trap = none → exec j u = .next t → t.trap = none →
    storesNothing u t ∧ readReg t rd = (if rd = 0 then 0 else 1) ∧ t.resv = none) ∧
  ∀ (c : Cfg) (lr sc : Instr) (va : Word) (n : Nat) (aq rl : Bool) (rd rs1 rs2 : Reg) (atLr atSc : Nat → State),
    (sc = .scW aq rl rd rs1 rs2 ∧ n = 4) ∨ (sc = .scD aq rl rd rs1 rs2 ∧ n = 8) →
    constrainedLoop lr sc va n atLr atSc →
    (∀ k, (atSc k).cfg = c ∧ granted (atSc k) .sc va n = true ∧ Memory.wf (atSc k).mem) →
    (∀ k, (atSc k).scDraws = (atSc 0).scDraws + k) ∧
    (∀ k, ∃ t, exec sc (atSc k) = .next t ∧
      if Config.scOk va.toNat (atSc k).scDraws = true then
        readReg t rd = 0 ∧ storesBytes (atSc k) t va.toNat n ((readReg (atSc k) rs2).setWidth (8 * n))
      else readReg t rd = (if rd = 0 then 0 else 1) ∧ storesNothing (atSc k) t) ∧
    (EventualSuccess c → eventualAt c va.toNat → ∀ k, ∃ j t, k ≤ j ∧ exec sc (atSc j) = .next t ∧ readReg t rd = 0 ∧
      storesBytes (atSc j) t va.toNat n ((readReg (atSc j) rs2).setWidth (8 * n)))

/-! ## Loads and stores (42_loads_stores.md) -/

/-- Effective addresses and extensions (R15, R174, R175, R244): `x[rs1]` plus the signed displacement, modulo `2^XLEN`;
a sign-extended value has the same signed value, a zero-extended one the same unsigned value. -/
def Obligations.AddressAndExtension : Prop :=
  (∀ (s : State) (rs1 : Reg) (imm : BitVec 12),
    ((effAddr s rs1 imm).toNat : Int) = ((readReg s rs1).toNat + imm.toInt) % 2 ^ xlen s.cfg) ∧
  ∀ (c : Cfg) (k : Nat) (v : BitVec k), 0 < k → k ≤ xlen c →
    ((sextX c v).setWidth (xlen c)).toInt = v.toInt ∧ (zextX c v).toNat = v.toNat

/-- What a read returns (R82, R118, R120): memory, unless the region's reads are not idempotent; then a free value, which
does not depend on what memory holds. -/
def Obligations.ReadsAreMemoryOrFree : Prop :=
  ∀ (s : State) (va : Word) (n : Nat),
    (plainRead s va = true ↔ ∀ r, pmaOf s.cfg va.toNat = some r → r.kind = .mainMemory ∨ r.readIdempotent = true) ∧
    (plainRead s va = true → valueAt s va n = Memory.read s.mem va.toNat n) ∧
    (plainRead s va = false → ∀ m, valueAt { s with mem := m } va n = valueAt s va n)

/-- Data are little-endian (R82): byte `k` of a value read is the byte at `pa + k`, and byte `k` of a value written goes
to `pa + k`. -/
def Obligations.LittleEndianMemory : Prop :=
  ∀ (m : Memory) (pa n k : Nat), k < n →
    (Memory.read m pa n).extractLsb' (8 * k) 8 = Memory.get m (pa + k) ∧
    ∀ v : BitVec (8 * n), Memory.wf m → Memory.get (Memory.write m pa n v) (pa + k) = v.extractLsb' (8 * k) 8

/-- The seven base loads complete when their access is granted (R245, R248 to R254): `rd` receives the value, sign- or
zero-extended; `ld` and `lwu` exist on RV64; the reservation stays. -/
def Obligations.LoadResult : Prop :=
  ∀ (rd rs1 : Reg) (imm : BitVec 12) (s : State),
    (granted s .load (effAddr s rs1 imm) 1 = true → ∃ t, exec (.lb rd rs1 imm) s = .next t ∧ t.resv = s.resv ∧
      loadsTo s t (effAddr s rs1 imm) 1 rd (sextX s.cfg (valueAt s (effAddr s rs1 imm) 1))) ∧
    (granted s .load (effAddr s rs1 imm) 2 = true → ∃ t, exec (.lh rd rs1 imm) s = .next t ∧ t.resv = s.resv ∧
      loadsTo s t (effAddr s rs1 imm) 2 rd (sextX s.cfg (valueAt s (effAddr s rs1 imm) 2))) ∧
    (granted s .load (effAddr s rs1 imm) 4 = true → ∃ t, exec (.lw rd rs1 imm) s = .next t ∧ t.resv = s.resv ∧
      loadsTo s t (effAddr s rs1 imm) 4 rd (sextX s.cfg (valueAt s (effAddr s rs1 imm) 4))) ∧
    (s.cfg.mxlen = .rv64 → granted s .load (effAddr s rs1 imm) 8 = true →
      ∃ t, exec (.ld rd rs1 imm) s = .next t ∧ t.resv = s.resv ∧
      loadsTo s t (effAddr s rs1 imm) 8 rd (sextX s.cfg (valueAt s (effAddr s rs1 imm) 8))) ∧
    (granted s .load (effAddr s rs1 imm) 1 = true → ∃ t, exec (.lbu rd rs1 imm) s = .next t ∧ t.resv = s.resv ∧
      loadsTo s t (effAddr s rs1 imm) 1 rd (zextX s.cfg (valueAt s (effAddr s rs1 imm) 1))) ∧
    (granted s .load (effAddr s rs1 imm) 2 = true → ∃ t, exec (.lhu rd rs1 imm) s = .next t ∧ t.resv = s.resv ∧
      loadsTo s t (effAddr s rs1 imm) 2 rd (zextX s.cfg (valueAt s (effAddr s rs1 imm) 2))) ∧
    (s.cfg.mxlen = .rv64 → granted s .load (effAddr s rs1 imm) 4 = true →
      ∃ t, exec (.lwu rd rs1 imm) s = .next t ∧ t.resv = s.resv ∧
      loadsTo s t (effAddr s rs1 imm) 4 rd (zextX s.cfg (valueAt s (effAddr s rs1 imm) 4)))

/-- The four base stores complete when their access is granted (R246, R255 to R258): the low bytes of the source are
stored at the effective address, no register changes, the reservation is kept or dropped; `sd` exists on RV64. -/
def Obligations.StoreResult : Prop :=
  ∀ (rs1 rs2 : Reg) (imm : BitVec 12) (s : State) (i : Instr) (n : Nat), Memory.wf s.mem →
    (i = .sb rs1 rs2 imm ∧ n = 1) ∨ (i = .sh rs1 rs2 imm ∧ n = 2) ∨ (i = .sw rs1 rs2 imm ∧ n = 4) ∨
      (i = .sd rs1 rs2 imm ∧ n = 8 ∧ s.cfg.mxlen = .rv64) →
    granted s .store (effAddr s rs1 imm) n = true →
    ∃ t, exec i s = .next t ∧ sameRegs s t ∧
      storesBytes s t (effAddr s rs1 imm).toNat n ((readReg s rs2).setWidth (8 * n)) ∧ movesOn s t ∧ sameControl s t ∧
      resvKeptOrDropped s t ∧
      addsEvents s t (effAddr s rs1 imm).toNat
        [⟨(effAddr s rs1 imm).toNat, n, some ((readReg s rs2).setWidth (8 * n)).toNat⟩]

/-- A misaligned load made in parts (R99, R101, R245) completes when its parts are granted, and from memory it returns
what one read would have returned, whichever partition and order the platform takes. -/
def Obligations.SplitLoadResult : Prop :=
  ∀ (rd rs1 : Reg) (imm : BitVec 12) (s : State) (i : Instr) (n : Nat) (signed : Bool),
    (i = .lh rd rs1 imm ∧ n = 2 ∧ signed = true) ∨ (i = .lhu rd rs1 imm ∧ n = 2 ∧ signed = false) ∨
      (i = .lw rd rs1 imm ∧ n = 4 ∧ signed = true) ∨
      (i = .lwu rd rs1 imm ∧ n = 4 ∧ signed = false ∧ s.cfg.mxlen = .rv64) ∨
      (i = .ld rd rs1 imm ∧ n = 8 ∧ signed = true ∧ s.cfg.mxlen = .rv64) →
    splitGranted s .load (effAddr s rs1 imm) n →
    ∃ (t : State) (v : BitVec (8 * n)), exec i s = .next t ∧
      writesReg s t rd (if signed then sextX s.cfg v else zextX s.cfg v) ∧ storesNothing s t ∧ movesOn s t ∧
      sameControl s t ∧ t.resv = s.resv ∧ eventsExtend s t ∧
      ((∀ k, k < n → readIsFree s.cfg ((effAddr s rs1 imm).toNat + k) = false) →
        v = Memory.read s.mem (effAddr s rs1 imm).toNat n)

/-- A misaligned store made in parts (R99, R101, R143, R246) completes when its parts are granted, and leaves in memory
what one write would have left, whichever partition and order the platform takes. -/
def Obligations.SplitStoreResult : Prop :=
  ∀ (rs1 rs2 : Reg) (imm : BitVec 12) (s : State) (i : Instr) (n : Nat), Memory.wf s.mem →
    (i = .sh rs1 rs2 imm ∧ n = 2) ∨ (i = .sw rs1 rs2 imm ∧ n = 4) ∨
      (i = .sd rs1 rs2 imm ∧ n = 8 ∧ s.cfg.mxlen = .rv64) →
    splitGranted s .store (effAddr s rs1 imm) n →
    ∃ t, exec i s = .next t ∧ sameRegs s t ∧
      storesBytes s t (effAddr s rs1 imm).toNat n ((readReg s rs2).setWidth (8 * n)) ∧ movesOn s t ∧ sameControl s t ∧
      resvKeptOrDropped s t ∧ eventsExtend s t

/-- The three floating-point loads complete when their access succeeds whichever way it is made, whole or in parts, wider
than XLEN or not (R259 to R263): nothing changes but the pc and what a device saw. -/
def Obligations.FloatLoadResult : Prop :=
  ∀ (fd rs1 : Reg) (imm : BitVec 12) (s : State) (i : Instr) (n : Nat),
    (i = .flw fd rs1 imm ∧ n = 4) ∨ (i = .fld fd rs1 imm ∧ n = 8) ∨ (i = .flq fd rs1 imm ∧ n = 16) →
    8 * n ≤ flen s.cfg → accessSucceeds s .load (effAddr s rs1 imm) n →
    ∃ t, exec i s = .next t ∧ sameRegs s t ∧ storesNothing s t ∧ movesOn s t ∧ sameControl s t ∧ t.resv = s.resv ∧
      eventsExtend s t

/-- The three floating-point stores complete when their access succeeds whichever way it is made (R259, R262, R264 to
R266): the bytes stored hold the free value drawn for them, whichever way, and nothing else changes but the pc, the
reservation, which is kept or dropped, and what a device saw. -/
def Obligations.FloatStoreResult : Prop :=
  ∀ (rs1 fs2 : Reg) (imm : BitVec 12) (s : State) (i : Instr) (n : Nat), Memory.wf s.mem →
    (i = .fsw rs1 fs2 imm ∧ n = 4) ∨ (i = .fsd rs1 fs2 imm ∧ n = 8) ∨ (i = .fsq rs1 fs2 imm ∧ n = 16) →
    8 * n ≤ flen s.cfg → accessSucceeds s .store (effAddr s rs1 imm) n →
    ∃ t, exec i s = .next t ∧ sameRegs s t ∧
      storesBytes s t (effAddr s rs1 imm).toNat n ((Config.fpStoreValue s.draws).setWidth (8 * n)) ∧ movesOn s t ∧
      sameControl s t ∧ resvKeptOrDropped s t ∧ eventsExtend s t

/-! ## Fences (43_fence.md) -/

/-- A `fence` of any sets and any of its reserved forms completes in every mode and changes nothing but the pc (R180
item 7, R181, R270). -/
def Obligations.FenceResult : Prop :=
  ∀ (fm : BitVec 4) (pred succ : FenceSet) (rd rs1 : Reg) (s : State),
    ∃ t, exec (.fence fm pred succ rd rs1) s = .next t ∧ movesOn s t ∧ sameControl s t ∧ t.x = s.x ∧ t.mem = s.mem ∧
      t.resv = s.resv ∧ t.stored = s.stored ∧ t.events = s.events ∧ t.draws = s.draws ∧
      t.scDraws = s.scDraws

/-- `sfence.vma` (R148, R272, R273): in U-mode it raises the illegal-instruction exception; otherwise it completes, with
`x0, x0` drops every snapshot, so that every later check uses the current registers, in its other forms leaves them (the
spec's own choice, R273, D34), and changes nothing else but the pc. -/
def Obligations.SfenceResult : Prop :=
  ∀ (rs1 rs2 : Reg) (s : State),
    (s.priv = .user → ∃ t, exec (.sfenceVma rs1 rs2) s = .next t ∧
      trapsWith s t .illegalInstruction ((encode (.sfenceVma rs1 rs2)).setWidth 64)) ∧
    (s.priv ≠ .user → ∃ t, exec (.sfenceVma rs1 rs2) s = .next t ∧ movesOn s t ∧ t.x = s.x ∧ t.mem = s.mem ∧
      t.resv = s.resv ∧ t.pmp = s.pmp ∧ t.priv = s.priv ∧ t.mprv = s.mprv ∧ t.mpp = s.mpp ∧ t.cfg = s.cfg ∧
      t.stored = s.stored ∧ t.events = s.events ∧ t.trap = s.trap ∧ t.draws = s.draws ∧ t.scDraws = s.scDraws ∧
      (rs1 = 0 ∧ rs2 = 0 → t.stale = [] ∧ pmpViews t = [t.pmp]) ∧ (¬(rs1 = 0 ∧ rs2 = 0) → t.stale = s.stale))

/-- Channel 1 (R111, R113 item 3, R271): accesses to I/O regions one of which is on channel 1 are ordered, and a
`fence io,io` between them orders them too; it orders no main-memory access. -/
def Obligations.ChannelOneIsAFence : Prop :=
  (∀ r q : PmaRegion, r.kind = .io → q.kind = .io → channelOf r = some 1 →
    channelOrders r q = true ∧ channelOrders q r = true ∧
    ∀ a b : Footprint, a.region = r → b.region = q → (a.reads || a.writes) = true → (b.reads || b.writes) = true →
      fenceOrders ioSet ioSet a b = true) ∧
  ∀ a b : Footprint, a.region.kind = .mainMemory ∨ b.region.kind = .mainMemory → fenceOrders ioSet ioSet a b = false
end

