-- ==== Sys2Proof/Laws/Memory.lean ====
section
/-! SUPPORT. Memory: reads after writes, and the canonical form, which every memory operation keeps; the rising list of
stored addresses. -/

namespace Sys2Proof.Machine

/-! ## One byte -/

@[simp] theorem Memory.get_nil (i : Nat) : Memory.get [] i = unlistedByte := rfl

theorem Memory.get_cons_cell (a : Nat) (b : Byte) (m : Memory) (i : Nat) :
    Memory.get ((a, b) :: m) i = if i = a then b else Memory.get m i := rfl

/-- An address below every listed one is unlisted. -/
theorem Memory.get_of_lt {m : Memory} {i : Nat} (h : ∀ c ∈ m, i < c.1) : Memory.get m i = unlistedByte := by
  induction m with
  | nil => rfl
  | cons c m ih =>
    obtain ⟨a, b⟩ := c
    have h1 : i < a := h (a, b) (by simp)
    rw [get_cons_cell, if_neg (by omega)]
    exact ih fun c hc => h c (by simp [hc])

theorem Memory.wf_nil : Memory.wf [] := by simp [Memory.wf]

theorem Memory.wf_cons {a : Nat} {b : Byte} {m : Memory} :
    Memory.wf ((a, b) :: m) ↔ (∀ c ∈ m, a < c.1) ∧ b ≠ unlistedByte ∧ Memory.wf m := by
  simp only [Memory.wf, List.pairwise_cons, List.forall_mem_cons]
  tauto

/-- Reading one byte after storing one. -/
theorem Memory.get_set {m : Memory} (h : Memory.wf m) (i : Nat) (v : Byte) (j : Nat) :
    Memory.get (Memory.set m i v) j = if j = i then v else Memory.get m j := by
  induction m with
  | nil =>
    unfold Memory.set Memory.cons
    split
    · simp_all
    · simp [get_cons_cell]
  | cons c m ih =>
    obtain ⟨a, b⟩ := c
    obtain ⟨hlt, hb, hm⟩ := wf_cons.1 h
    have hlow : ∀ k, k < a → Memory.get m k = unlistedByte := fun k hk =>
      get_of_lt fun c hc => Nat.lt_trans hk (hlt c hc)
    have hself : Memory.get m a = unlistedByte := get_of_lt hlt
    unfold Memory.set Memory.cons
    split
    · split
      · by_cases hj : j = i
        · subst hj; simp_all [get_cons_cell]; omega
        · simp [hj]
      · simp [get_cons_cell]
    · split
      · subst i
        split
        · by_cases hj : j = a
          · subst hj; simp_all
          · simp [get_cons_cell, hj]
        · by_cases hj : j = a <;> simp [get_cons_cell, hj]
      · rw [get_cons_cell, get_cons_cell, ih hm]
        by_cases hj : j = a
        · subst hj; rw [if_pos rfl, if_pos rfl, if_neg (by omega)]
        · rw [if_neg hj, if_neg hj]

/-- The addresses a store can add. -/
theorem Memory.mem_set {m : Memory} {i : Nat} {v : Byte} {c : Host.Cell} (h : c ∈ Memory.set m i v) :
    c = (i, v) ∧ v ≠ unlistedByte ∨ c ∈ m := by
  induction m with
  | nil =>
    unfold Memory.set Memory.cons at h
    split at h <;> simp_all
  | cons d m ih =>
    obtain ⟨a, b⟩ := d
    unfold Memory.set Memory.cons at h
    split at h
    · split at h
      · exact .inr h
      · rcases List.mem_cons.1 h with h | h
        · exact .inl ⟨h, ‹_›⟩
        · exact .inr h
    · split at h
      · split at h
        · exact .inr (by simp [h])
        · rcases List.mem_cons.1 h with h | h
          · exact .inl ⟨h, ‹_›⟩
          · exact .inr (by simp [h])
      · rcases List.mem_cons.1 h with h | h
        · exact .inr (by simp [h])
        · rcases ih h with h | h
          · exact .inl h
          · exact .inr (by simp [h])

/-- Storing one byte keeps the canonical form. -/
theorem Memory.wf_set {m : Memory} (h : Memory.wf m) (i : Nat) (v : Byte) : Memory.wf (Memory.set m i v) := by
  induction m with
  | nil =>
    unfold Memory.set Memory.cons
    split
    · exact wf_nil
    · exact wf_cons.2 ⟨by simp, ‹_›, wf_nil⟩
  | cons c m ih =>
    obtain ⟨a, b⟩ := c
    obtain ⟨hlt, hb, hm⟩ := wf_cons.1 h
    unfold Memory.set Memory.cons
    split
    · split
      · exact h
      · refine wf_cons.2 ⟨fun c hc => ?_, ‹_›, h⟩
        rcases List.mem_cons.1 hc with rfl | hc
        · assumption
        · exact Nat.lt_trans ‹i < a› (hlt c hc)
    · split
      · subst i
        split
        · exact hm
        · exact wf_cons.2 ⟨hlt, ‹_›, hm⟩
      · refine wf_cons.2 ⟨fun c hc => ?_, hb, ih hm⟩
        rcases mem_set hc with ⟨rfl, -⟩ | hc
        · show a < i; omega
        · exact hlt c hc

/-! ## Several bytes -/

/-- Storing bytes keeps the canonical form. -/
theorem Memory.wf_setBytes {m : Memory} (h : Memory.wf m) (pa : Nat) (bs : List Byte) :
    Memory.wf (Memory.setBytes m pa bs) := by
  induction bs generalizing m pa with
  | nil => exact h
  | cons b bs ih => exact ih (wf_set h pa b) (pa + 1)

/-- Reading one byte after storing several. -/
theorem Memory.get_setBytes {m : Memory} (h : Memory.wf m) (pa : Nat) (bs : List Byte) (j : Nat) :
    Memory.get (Memory.setBytes m pa bs) j = if pa ≤ j then bs.getD (j - pa) (Memory.get m j) else Memory.get m j := by
  induction bs generalizing m pa with
  | nil => simp [Memory.setBytes]
  | cons b bs ih =>
    rw [Memory.setBytes, ih (wf_set h pa b), get_set h]
    by_cases h1 : pa + 1 ≤ j
    · have h2 : pa ≤ j := by omega
      have h3 : ¬j = pa := by omega
      have h4 : j - pa = (j - (pa + 1)) + 1 := by omega
      simp only [h1, h2, h3, if_true, if_false]
      rw [h4, List.getD_cons_succ]
    · rw [if_neg h1]
      by_cases h2 : j = pa
      · subst h2; simp
      · rw [if_neg h2, if_neg (by omega)]

/-- The cells a store of several bytes can add lie at its addresses. -/
theorem Memory.mem_setBytes {m : Memory} {pa : Nat} {bs : List Byte} {c : Host.Cell}
    (h : c ∈ Memory.setBytes m pa bs) : (pa ≤ c.1 ∧ c.1 < pa + bs.length) ∨ c ∈ m := by
  induction bs generalizing m pa with
  | nil => exact .inr h
  | cons b bs ih =>
    rcases ih h with h | h
    · left; simp only [List.length_cons]; omega
    · rcases mem_set h with ⟨rfl, -⟩ | h
      · left; simp
      · exact .inr h

@[simp] theorem leBytes_length (n : Nat) (v : BitVec (8 * n)) : (leBytes n v).length = n := by simp [leBytes]

/-- `MemWrite` keeps the canonical form. -/
theorem Memory.wf_write {m : Memory} (h : Memory.wf m) (pa n : Nat) (v : BitVec (8 * n)) :
    Memory.wf (Memory.write m pa n v) := wf_setBytes h _ _

/-- `MemWrite` adds cells at its addresses only. -/
theorem Memory.mem_write {m : Memory} {pa n : Nat} {v : BitVec (8 * n)} {c : Host.Cell}
    (h : c ∈ Memory.write m pa n v) : (pa ≤ c.1 ∧ c.1 < pa + n) ∨ c ∈ m := by
  simpa using mem_setBytes h

/-- R82: the bytes after `MemWrite`. -/
theorem Memory.get_write {m : Memory} (h : Memory.wf m) (pa n : Nat) (v : BitVec (8 * n)) (j : Nat) :
    Memory.get (Memory.write m pa n v) j =
      if pa ≤ j ∧ j < pa + n then v.extractLsb' (8 * (j - pa)) 8 else Memory.get m j := by
  rw [Memory.write, get_setBytes h]
  by_cases h1 : pa ≤ j
  · by_cases h2 : j < pa + n
    · rw [if_pos h1, if_pos ⟨h1, h2⟩, leBytes]
      rw [List.getD_eq_getElem?_getD, List.getElem?_map, List.getElem?_range (by omega)]
      rfl
    · rw [if_pos h1, if_neg (by omega), List.getD_eq_default _ _ (by simp; omega)]
  · rw [if_neg h1, if_neg (by omega)]

/-- Outside the bytes stored, memory reads as before. No canonical form is needed. -/
theorem Memory.get_set_ne (m : Memory) {i j : Nat} (v : Byte) (hj : j ≠ i) :
    Memory.get (Memory.set m i v) j = Memory.get m j := by
  induction m with
  | nil => unfold Memory.set Memory.cons; split <;> simp [get_cons_cell, hj]
  | cons c m ih =>
    obtain ⟨a, b⟩ := c
    unfold Memory.set Memory.cons
    split
    · split <;> simp [get_cons_cell, hj]
    · split
      · subst i; split <;> simp [get_cons_cell, hj]
      · simp [get_cons_cell, ih]

theorem Memory.get_setBytes_out (m : Memory) {pa j : Nat} (bs : List Byte) (hj : j < pa ∨ pa + bs.length ≤ j) :
    Memory.get (Memory.setBytes m pa bs) j = Memory.get m j := by
  induction bs generalizing m pa with
  | nil => rfl
  | cons b bs ih =>
    simp only [List.length_cons] at hj
    rw [Memory.setBytes, ih _ (by omega), get_set_ne _ _ (by omega)]

theorem Memory.get_write_out (m : Memory) {pa n j : Nat} (v : BitVec (8 * n)) (hj : j < pa ∨ pa + n ≤ j) :
    Memory.get (Memory.write m pa n v) j = Memory.get m j :=
  get_setBytes_out m _ (by simpa using hj)

/-! ## Little-endian values (R82) -/

theorem leNat_lt (bs : List Byte) : leNat bs < 2 ^ (8 * bs.length) := by
  induction bs with
  | nil => simp [leNat]
  | cons b bs ih =>
    have hb := b.isLt
    rw [leNat, List.length_cons, show 8 * (bs.length + 1) = 8 * bs.length + 8 by ring, pow_add]
    omega

/-- Bit `8k + i` of a little-endian value is bit `i` of byte `k`. -/
theorem leNat_testBit (bs : List Byte) (j : Nat) :
    (leNat bs).testBit j = (bs.getD (j / 8) 0).getLsbD (j % 8) := by
  induction bs generalizing j with
  | nil => simp [leNat]
  | cons b bs ih =>
    rw [leNat, show b.toNat + 256 * leNat bs = 2 ^ 8 * leNat bs + b.toNat by ring,
      Nat.testBit_two_pow_mul_add _ b.isLt]
    split
    · rename_i h
      rw [Nat.div_eq_of_lt h, Nat.mod_eq_of_lt h]
      rfl
    · rename_i h
      rw [ih, show j / 8 = (j - 8) / 8 + 1 by omega, List.getD_cons_succ, show j % 8 = (j - 8) % 8 by omega]

/-- Bit `8k + i` of what `MemRead` returns is bit `i` of the byte at `pa + k`. -/
theorem Memory.read_getLsbD (m : Memory) (pa n j : Nat) (h : j < 8 * n) :
    (Memory.read m pa n).getLsbD j = (Memory.get m (pa + j / 8)).getLsbD (j % 8) := by
  rw [Memory.read, BitVec.getLsbD_ofNat, leNat_testBit, List.getD_eq_getElem?_getD, List.getElem?_map,
    List.getElem?_range (by omega)]
  simp [h]

/-- `MemRead` depends on the bytes it reads only. -/
theorem Memory.read_congr {m m' : Memory} {pa n : Nat}
    (h : ∀ a, pa ≤ a → a < pa + n → Memory.get m' a = Memory.get m a) : Memory.read m' pa n = Memory.read m pa n := by
  unfold Memory.read
  congr 2
  apply List.map_congr_left
  intro k hk
  exact h _ (by omega) (by have := List.mem_range.1 hk; omega)

/-- R82: `MemRead` after `MemWrite` at the same place. -/
theorem Memory.read_write_self {m : Memory} (h : Memory.wf m) (pa n : Nat) (v : BitVec (8 * n)) :
    Memory.read (Memory.write m pa n v) pa n = v := by
  apply BitVec.eq_of_getLsbD_eq
  intro j hj
  rw [read_getLsbD _ _ _ _ hj, get_write h, if_pos (by omega), BitVec.getLsbD_extractLsb']
  have : j % 8 < 8 := Nat.mod_lt _ (by decide)
  simp only [this, decide_true, Bool.true_and]
  congr 1
  omega

/-! ## The stored addresses (R151) -/

theorem mem_insertAddr {l : List Nat} {i a : Nat} : a ∈ insertAddr l i ↔ a = i ∨ a ∈ l := by
  induction l with
  | nil => simp [insertAddr]
  | cons b l ih =>
    unfold insertAddr
    split
    · simp
    · split
      · subst i; simp
      · simp only [List.mem_cons, ih]; tauto

theorem mem_insertAddrs {l : List Nat} {pa n a : Nat} : a ∈ insertAddrs l pa n ↔ a ∈ l ∨ (pa ≤ a ∧ a < pa + n) := by
  induction n with
  | zero => simp [insertAddrs]
  | succ n ih =>
    rw [insertAddrs, mem_insertAddr, ih]
    constructor
    · rintro (rfl | h | h)
      · right; omega
      · exact .inl h
      · right; omega
    · rintro (h | h)
      · exact .inr (.inl h)
      · by_cases ha : a = pa + n
        · exact .inl ha
        · right; right; omega

theorem insertAddr_sorted {l : List Nat} (h : l.Pairwise (· < ·)) (i : Nat) : (insertAddr l i).Pairwise (· < ·) := by
  induction l with
  | nil => simp [insertAddr]
  | cons b l ih =>
    obtain ⟨hb, hl⟩ := List.pairwise_cons.1 h
    unfold insertAddr
    split
    · refine List.pairwise_cons.2 ⟨fun a ha => ?_, h⟩
      rcases List.mem_cons.1 ha with rfl | ha
      · assumption
      · exact Nat.lt_trans ‹i < b› (hb a ha)
    · split
      · exact h
      · refine List.pairwise_cons.2 ⟨fun a ha => ?_, ih hl⟩
        rcases mem_insertAddr.1 ha with rfl | ha
        · omega
        · exact hb a ha

theorem insertAddrs_sorted {l : List Nat} (h : l.Pairwise (· < ·)) (pa n : Nat) :
    (insertAddrs l pa n).Pairwise (· < ·) := by
  induction n with
  | zero => exact h
  | succ n ih => exact insertAddr_sorted ih _

end Sys2Proof.Machine
end

