-- ==== Sys2Proof/Laws/State.lean ====
section
/-! SUPPORT. The fields of a state after each named update: one lemma per field per update, so that no proof unfolds a
record update. -/

namespace Sys2Proof.Machine

/-! ## The pc, the counter of free values, registers -/

@[simp] theorem advance_cfg (s : State) : (advance s).cfg = s.cfg := rfl
@[simp] theorem advance_x (s : State) : (advance s).x = s.x := rfl
@[simp] theorem advance_priv (s : State) : (advance s).priv = s.priv := rfl
@[simp] theorem advance_mprv (s : State) : (advance s).mprv = s.mprv := rfl
@[simp] theorem advance_mpp (s : State) : (advance s).mpp = s.mpp := rfl
@[simp] theorem advance_pmp (s : State) : (advance s).pmp = s.pmp := rfl
@[simp] theorem advance_resv (s : State) : (advance s).resv = s.resv := rfl
@[simp] theorem advance_stale (s : State) : (advance s).stale = s.stale := rfl
@[simp] theorem advance_mem (s : State) : (advance s).mem = s.mem := rfl
@[simp] theorem advance_stored (s : State) : (advance s).stored = s.stored := rfl
@[simp] theorem advance_events (s : State) : (advance s).events = s.events := rfl
@[simp] theorem advance_trap (s : State) : (advance s).trap = s.trap := rfl
@[simp] theorem advance_draws (s : State) : (advance s).draws = s.draws := rfl
@[simp] theorem advance_scDraws (s : State) : (advance s).scDraws = s.scDraws := rfl

@[simp] theorem advance_pc (s : State) : (advance s).pc = truncX s.cfg (curPc s + 4) := rfl

@[simp] theorem tick_cfg (s : State) : (tick s).cfg = s.cfg := rfl
@[simp] theorem tick_x (s : State) : (tick s).x = s.x := rfl
@[simp] theorem tick_pc (s : State) : (tick s).pc = s.pc := rfl
@[simp] theorem tick_priv (s : State) : (tick s).priv = s.priv := rfl
@[simp] theorem tick_mprv (s : State) : (tick s).mprv = s.mprv := rfl
@[simp] theorem tick_mpp (s : State) : (tick s).mpp = s.mpp := rfl
@[simp] theorem tick_pmp (s : State) : (tick s).pmp = s.pmp := rfl
@[simp] theorem tick_resv (s : State) : (tick s).resv = s.resv := rfl
@[simp] theorem tick_stale (s : State) : (tick s).stale = s.stale := rfl
@[simp] theorem tick_mem (s : State) : (tick s).mem = s.mem := rfl
@[simp] theorem tick_stored (s : State) : (tick s).stored = s.stored := rfl
@[simp] theorem tick_events (s : State) : (tick s).events = s.events := rfl
@[simp] theorem tick_trap (s : State) : (tick s).trap = s.trap := rfl
@[simp] theorem tick_scDraws (s : State) : (tick s).scDraws = s.scDraws := rfl

@[simp] theorem tick_draws (s : State) : (tick s).draws = s.draws + 1 := rfl

@[simp] theorem tickSc_cfg (s : State) : (tickSc s).cfg = s.cfg := rfl
@[simp] theorem tickSc_x (s : State) : (tickSc s).x = s.x := rfl
@[simp] theorem tickSc_pc (s : State) : (tickSc s).pc = s.pc := rfl
@[simp] theorem tickSc_priv (s : State) : (tickSc s).priv = s.priv := rfl
@[simp] theorem tickSc_mprv (s : State) : (tickSc s).mprv = s.mprv := rfl
@[simp] theorem tickSc_mpp (s : State) : (tickSc s).mpp = s.mpp := rfl
@[simp] theorem tickSc_pmp (s : State) : (tickSc s).pmp = s.pmp := rfl
@[simp] theorem tickSc_resv (s : State) : (tickSc s).resv = s.resv := rfl
@[simp] theorem tickSc_stale (s : State) : (tickSc s).stale = s.stale := rfl
@[simp] theorem tickSc_mem (s : State) : (tickSc s).mem = s.mem := rfl
@[simp] theorem tickSc_stored (s : State) : (tickSc s).stored = s.stored := rfl
@[simp] theorem tickSc_events (s : State) : (tickSc s).events = s.events := rfl
@[simp] theorem tickSc_trap (s : State) : (tickSc s).trap = s.trap := rfl
@[simp] theorem tickSc_draws (s : State) : (tickSc s).draws = s.draws := rfl

@[simp] theorem tickSc_scDraws (s : State) : (tickSc s).scDraws = s.scDraws + 1 := rfl

@[simp] theorem writeReg_cfg (r : Reg) (v : Word) (s : State) : (writeReg r v s).cfg = s.cfg := by
  unfold writeReg; split <;> rfl
@[simp] theorem writeReg_pc (r : Reg) (v : Word) (s : State) : (writeReg r v s).pc = s.pc := by
  unfold writeReg; split <;> rfl
@[simp] theorem writeReg_priv (r : Reg) (v : Word) (s : State) : (writeReg r v s).priv = s.priv := by
  unfold writeReg; split <;> rfl
@[simp] theorem writeReg_mprv (r : Reg) (v : Word) (s : State) : (writeReg r v s).mprv = s.mprv := by
  unfold writeReg; split <;> rfl
@[simp] theorem writeReg_mpp (r : Reg) (v : Word) (s : State) : (writeReg r v s).mpp = s.mpp := by
  unfold writeReg; split <;> rfl
@[simp] theorem writeReg_pmp (r : Reg) (v : Word) (s : State) : (writeReg r v s).pmp = s.pmp := by
  unfold writeReg; split <;> rfl
@[simp] theorem writeReg_resv (r : Reg) (v : Word) (s : State) : (writeReg r v s).resv = s.resv := by
  unfold writeReg; split <;> rfl
@[simp] theorem writeReg_stale (r : Reg) (v : Word) (s : State) : (writeReg r v s).stale = s.stale := by
  unfold writeReg; split <;> rfl
@[simp] theorem writeReg_mem (r : Reg) (v : Word) (s : State) : (writeReg r v s).mem = s.mem := by
  unfold writeReg; split <;> rfl
@[simp] theorem writeReg_stored (r : Reg) (v : Word) (s : State) : (writeReg r v s).stored = s.stored := by
  unfold writeReg; split <;> rfl
@[simp] theorem writeReg_events (r : Reg) (v : Word) (s : State) : (writeReg r v s).events = s.events := by
  unfold writeReg; split <;> rfl
@[simp] theorem writeReg_trap (r : Reg) (v : Word) (s : State) : (writeReg r v s).trap = s.trap := by
  unfold writeReg; split <;> rfl
@[simp] theorem writeReg_draws (r : Reg) (v : Word) (s : State) : (writeReg r v s).draws = s.draws := by
  unfold writeReg; split <;> rfl
@[simp] theorem writeReg_scDraws (r : Reg) (v : Word) (s : State) : (writeReg r v s).scDraws = s.scDraws := by
  unfold writeReg; split <;> rfl

/-! ## The reservation and the trap -/

@[simp] theorem freeResv_cfg (s : State) : (freeResv s).cfg = s.cfg := by
  unfold freeResv; split <;> rfl
@[simp] theorem freeResv_x (s : State) : (freeResv s).x = s.x := by
  unfold freeResv; split <;> rfl
@[simp] theorem freeResv_pc (s : State) : (freeResv s).pc = s.pc := by
  unfold freeResv; split <;> rfl
@[simp] theorem freeResv_priv (s : State) : (freeResv s).priv = s.priv := by
  unfold freeResv; split <;> rfl
@[simp] theorem freeResv_mprv (s : State) : (freeResv s).mprv = s.mprv := by
  unfold freeResv; split <;> rfl
@[simp] theorem freeResv_mpp (s : State) : (freeResv s).mpp = s.mpp := by
  unfold freeResv; split <;> rfl
@[simp] theorem freeResv_pmp (s : State) : (freeResv s).pmp = s.pmp := by
  unfold freeResv; split <;> rfl
@[simp] theorem freeResv_stale (s : State) : (freeResv s).stale = s.stale := by
  unfold freeResv; split <;> rfl
@[simp] theorem freeResv_mem (s : State) : (freeResv s).mem = s.mem := by
  unfold freeResv; split <;> rfl
@[simp] theorem freeResv_stored (s : State) : (freeResv s).stored = s.stored := by
  unfold freeResv; split <;> rfl
@[simp] theorem freeResv_events (s : State) : (freeResv s).events = s.events := by
  unfold freeResv; split <;> rfl
@[simp] theorem freeResv_trap (s : State) : (freeResv s).trap = s.trap := by
  unfold freeResv; split <;> rfl
@[simp] theorem freeResv_scDraws (s : State) : (freeResv s).scDraws = s.scDraws := by
  unfold freeResv; split <;> rfl

@[simp] theorem takeTrap_cfg (t : Trap) (s : State) : (takeTrap t s).cfg = s.cfg := by
  simp [takeTrap]
@[simp] theorem takeTrap_x (t : Trap) (s : State) : (takeTrap t s).x = s.x := by
  simp [takeTrap]
@[simp] theorem takeTrap_pc (t : Trap) (s : State) : (takeTrap t s).pc = s.pc := by
  simp [takeTrap]
@[simp] theorem takeTrap_priv (t : Trap) (s : State) : (takeTrap t s).priv = s.priv := by
  simp [takeTrap]
@[simp] theorem takeTrap_mprv (t : Trap) (s : State) : (takeTrap t s).mprv = s.mprv := by
  simp [takeTrap]
@[simp] theorem takeTrap_mpp (t : Trap) (s : State) : (takeTrap t s).mpp = s.mpp := by
  simp [takeTrap]
@[simp] theorem takeTrap_pmp (t : Trap) (s : State) : (takeTrap t s).pmp = s.pmp := by
  simp [takeTrap]
@[simp] theorem takeTrap_stale (t : Trap) (s : State) : (takeTrap t s).stale = s.stale := by
  simp [takeTrap]
@[simp] theorem takeTrap_mem (t : Trap) (s : State) : (takeTrap t s).mem = s.mem := by
  simp [takeTrap]
@[simp] theorem takeTrap_stored (t : Trap) (s : State) : (takeTrap t s).stored = s.stored := by
  simp [takeTrap]
@[simp] theorem takeTrap_events (t : Trap) (s : State) : (takeTrap t s).events = s.events := by
  simp [takeTrap]
@[simp] theorem takeTrap_scDraws (t : Trap) (s : State) : (takeTrap t s).scDraws = s.scDraws := by
  simp [takeTrap]

@[simp] theorem takeTrap_trap (t : Trap) (s : State) : (takeTrap t s).trap = some t := rfl

@[simp] theorem takeTrap_resv (t : Trap) (s : State) : (takeTrap t s).resv = (freeResv s).resv := rfl

/-- R233: the reservation is kept or dropped. -/
theorem freeResv_resv (s : State) : (freeResv s).resv = s.resv ∨ (freeResv s).resv = none := by
  unfold freeResv
  split
  · exact .inl rfl
  · dsimp only; split
    · exact .inl rfl
    · exact .inr rfl

/-! ## Accesses -/

@[simp] theorem afterView_cfg (s : State) : (afterView s).cfg = s.cfg := by
  unfold afterView; split <;> rfl
@[simp] theorem afterView_x (s : State) : (afterView s).x = s.x := by
  unfold afterView; split <;> rfl
@[simp] theorem afterView_pc (s : State) : (afterView s).pc = s.pc := by
  unfold afterView; split <;> rfl
@[simp] theorem afterView_priv (s : State) : (afterView s).priv = s.priv := by
  unfold afterView; split <;> rfl
@[simp] theorem afterView_mprv (s : State) : (afterView s).mprv = s.mprv := by
  unfold afterView; split <;> rfl
@[simp] theorem afterView_mpp (s : State) : (afterView s).mpp = s.mpp := by
  unfold afterView; split <;> rfl
@[simp] theorem afterView_pmp (s : State) : (afterView s).pmp = s.pmp := by
  unfold afterView; split <;> rfl
@[simp] theorem afterView_resv (s : State) : (afterView s).resv = s.resv := by
  unfold afterView; split <;> rfl
@[simp] theorem afterView_stale (s : State) : (afterView s).stale = s.stale := by
  unfold afterView; split <;> rfl
@[simp] theorem afterView_mem (s : State) : (afterView s).mem = s.mem := by
  unfold afterView; split <;> rfl
@[simp] theorem afterView_stored (s : State) : (afterView s).stored = s.stored := by
  unfold afterView; split <;> rfl
@[simp] theorem afterView_events (s : State) : (afterView s).events = s.events := by
  unfold afterView; split <;> rfl
@[simp] theorem afterView_trap (s : State) : (afterView s).trap = s.trap := by
  unfold afterView; split <;> rfl
@[simp] theorem afterView_scDraws (s : State) : (afterView s).scDraws = s.scDraws := by
  unfold afterView; split <;> rfl

@[simp] theorem recordEvent_cfg (pa n : Nat) (w : Option Nat) (s : State) : (recordEvent pa n w s).cfg = s.cfg := by
  unfold recordEvent; split <;> rfl
@[simp] theorem recordEvent_x (pa n : Nat) (w : Option Nat) (s : State) : (recordEvent pa n w s).x = s.x := by
  unfold recordEvent; split <;> rfl
@[simp] theorem recordEvent_pc (pa n : Nat) (w : Option Nat) (s : State) : (recordEvent pa n w s).pc = s.pc := by
  unfold recordEvent; split <;> rfl
@[simp] theorem recordEvent_priv (pa n : Nat) (w : Option Nat) (s : State) : (recordEvent pa n w s).priv = s.priv := by
  unfold recordEvent; split <;> rfl
@[simp] theorem recordEvent_mprv (pa n : Nat) (w : Option Nat) (s : State) : (recordEvent pa n w s).mprv = s.mprv := by
  unfold recordEvent; split <;> rfl
@[simp] theorem recordEvent_mpp (pa n : Nat) (w : Option Nat) (s : State) : (recordEvent pa n w s).mpp = s.mpp := by
  unfold recordEvent; split <;> rfl
@[simp] theorem recordEvent_pmp (pa n : Nat) (w : Option Nat) (s : State) : (recordEvent pa n w s).pmp = s.pmp := by
  unfold recordEvent; split <;> rfl
@[simp] theorem recordEvent_resv (pa n : Nat) (w : Option Nat) (s : State) : (recordEvent pa n w s).resv = s.resv := by
  unfold recordEvent; split <;> rfl
@[simp] theorem recordEvent_stale (pa n : Nat) (w : Option Nat) (s : State) : (recordEvent pa n w s).stale = s.stale := by
  unfold recordEvent; split <;> rfl
@[simp] theorem recordEvent_mem (pa n : Nat) (w : Option Nat) (s : State) : (recordEvent pa n w s).mem = s.mem := by
  unfold recordEvent; split <;> rfl
@[simp] theorem recordEvent_stored (pa n : Nat) (w : Option Nat) (s : State) : (recordEvent pa n w s).stored = s.stored := by
  unfold recordEvent; split <;> rfl
@[simp] theorem recordEvent_trap (pa n : Nat) (w : Option Nat) (s : State) : (recordEvent pa n w s).trap = s.trap := by
  unfold recordEvent; split <;> rfl
@[simp] theorem recordEvent_draws (pa n : Nat) (w : Option Nat) (s : State) : (recordEvent pa n w s).draws = s.draws := by
  unfold recordEvent; split <;> rfl
@[simp] theorem recordEvent_scDraws (pa n : Nat) (w : Option Nat) (s : State) : (recordEvent pa n w s).scDraws = s.scDraws := by
  unfold recordEvent; split <;> rfl

@[simp] theorem afterRead_cfg (pa n : Nat) (s : State) : (afterRead pa n s).cfg = s.cfg := by
  unfold afterRead; split <;> simp
@[simp] theorem afterRead_x (pa n : Nat) (s : State) : (afterRead pa n s).x = s.x := by
  unfold afterRead; split <;> simp
@[simp] theorem afterRead_pc (pa n : Nat) (s : State) : (afterRead pa n s).pc = s.pc := by
  unfold afterRead; split <;> simp
@[simp] theorem afterRead_priv (pa n : Nat) (s : State) : (afterRead pa n s).priv = s.priv := by
  unfold afterRead; split <;> simp
@[simp] theorem afterRead_mprv (pa n : Nat) (s : State) : (afterRead pa n s).mprv = s.mprv := by
  unfold afterRead; split <;> simp
@[simp] theorem afterRead_mpp (pa n : Nat) (s : State) : (afterRead pa n s).mpp = s.mpp := by
  unfold afterRead; split <;> simp
@[simp] theorem afterRead_pmp (pa n : Nat) (s : State) : (afterRead pa n s).pmp = s.pmp := by
  unfold afterRead; split <;> simp
@[simp] theorem afterRead_resv (pa n : Nat) (s : State) : (afterRead pa n s).resv = s.resv := by
  unfold afterRead; split <;> simp
@[simp] theorem afterRead_stale (pa n : Nat) (s : State) : (afterRead pa n s).stale = s.stale := by
  unfold afterRead; split <;> simp
@[simp] theorem afterRead_mem (pa n : Nat) (s : State) : (afterRead pa n s).mem = s.mem := by
  unfold afterRead; split <;> simp
@[simp] theorem afterRead_stored (pa n : Nat) (s : State) : (afterRead pa n s).stored = s.stored := by
  unfold afterRead; split <;> simp
@[simp] theorem afterRead_trap (pa n : Nat) (s : State) : (afterRead pa n s).trap = s.trap := by
  unfold afterRead; split <;> simp
@[simp] theorem afterRead_scDraws (pa n : Nat) (s : State) : (afterRead pa n s).scDraws = s.scDraws := by
  unfold afterRead; split <;> simp

@[simp] theorem memWrite_cfg (pa n : Nat) (v : BitVec (8 * n)) (s : State) : (memWrite pa n v s).cfg = s.cfg := by
  simp [memWrite]
@[simp] theorem memWrite_x (pa n : Nat) (v : BitVec (8 * n)) (s : State) : (memWrite pa n v s).x = s.x := by
  simp [memWrite]
@[simp] theorem memWrite_pc (pa n : Nat) (v : BitVec (8 * n)) (s : State) : (memWrite pa n v s).pc = s.pc := by
  simp [memWrite]
@[simp] theorem memWrite_priv (pa n : Nat) (v : BitVec (8 * n)) (s : State) : (memWrite pa n v s).priv = s.priv := by
  simp [memWrite]
@[simp] theorem memWrite_mprv (pa n : Nat) (v : BitVec (8 * n)) (s : State) : (memWrite pa n v s).mprv = s.mprv := by
  simp [memWrite]
@[simp] theorem memWrite_mpp (pa n : Nat) (v : BitVec (8 * n)) (s : State) : (memWrite pa n v s).mpp = s.mpp := by
  simp [memWrite]
@[simp] theorem memWrite_pmp (pa n : Nat) (v : BitVec (8 * n)) (s : State) : (memWrite pa n v s).pmp = s.pmp := by
  simp [memWrite]
@[simp] theorem memWrite_resv (pa n : Nat) (v : BitVec (8 * n)) (s : State) : (memWrite pa n v s).resv = s.resv := by
  simp [memWrite]
@[simp] theorem memWrite_stale (pa n : Nat) (v : BitVec (8 * n)) (s : State) : (memWrite pa n v s).stale = s.stale := by
  simp [memWrite]
@[simp] theorem memWrite_trap (pa n : Nat) (v : BitVec (8 * n)) (s : State) : (memWrite pa n v s).trap = s.trap := by
  simp [memWrite]
@[simp] theorem memWrite_draws (pa n : Nat) (v : BitVec (8 * n)) (s : State) : (memWrite pa n v s).draws = s.draws := by
  simp [memWrite]
@[simp] theorem memWrite_scDraws (pa n : Nat) (v : BitVec (8 * n)) (s : State) : (memWrite pa n v s).scDraws = s.scDraws := by
  simp [memWrite]

@[simp] theorem memWrite_mem (pa n : Nat) (v : BitVec (8 * n)) (s : State) :
    (memWrite pa n v s).mem = Memory.write s.mem pa n v := by simp [memWrite]

@[simp] theorem memWrite_stored (pa n : Nat) (v : BitVec (8 * n)) (s : State) :
    (memWrite pa n v s).stored = insertAddrs s.stored pa n := by simp [memWrite]

/-- R120: a read of a device is recorded. -/
theorem afterRead_events (pa n : Nat) (s : State) :
    (afterRead pa n s).events = s.events ++ (if isDevice s.cfg pa then [⟨pa, n, none⟩] else []) := by
  unfold afterRead recordEvent
  by_cases h1 : readIsFree s.cfg pa <;> by_cases h2 : isDevice s.cfg pa <;> simp [h1, h2]

/-- R120: a write of a device is recorded with its value. -/
theorem memWrite_events (pa n : Nat) (v : BitVec (8 * n)) (s : State) :
    (memWrite pa n v s).events = s.events ++ (if isDevice s.cfg pa then [⟨pa, n, some v.toNat⟩] else []) := by
  unfold memWrite recordEvent
  split <;> simp

/-! ## CSR writes -/

@[simp] theorem csrWrite_cfg (a : Nat) (v : Word) (s : State) : (csrWrite a v s).cfg = s.cfg := rfl
@[simp] theorem csrWrite_x (a : Nat) (v : Word) (s : State) : (csrWrite a v s).x = s.x := rfl
@[simp] theorem csrWrite_pc (a : Nat) (v : Word) (s : State) : (csrWrite a v s).pc = s.pc := rfl
@[simp] theorem csrWrite_priv (a : Nat) (v : Word) (s : State) : (csrWrite a v s).priv = s.priv := rfl
@[simp] theorem csrWrite_mprv (a : Nat) (v : Word) (s : State) : (csrWrite a v s).mprv = s.mprv := rfl
@[simp] theorem csrWrite_mpp (a : Nat) (v : Word) (s : State) : (csrWrite a v s).mpp = s.mpp := rfl
@[simp] theorem csrWrite_resv (a : Nat) (v : Word) (s : State) : (csrWrite a v s).resv = s.resv := rfl
@[simp] theorem csrWrite_mem (a : Nat) (v : Word) (s : State) : (csrWrite a v s).mem = s.mem := rfl
@[simp] theorem csrWrite_stored (a : Nat) (v : Word) (s : State) : (csrWrite a v s).stored = s.stored := rfl
@[simp] theorem csrWrite_events (a : Nat) (v : Word) (s : State) : (csrWrite a v s).events = s.events := rfl
@[simp] theorem csrWrite_trap (a : Nat) (v : Word) (s : State) : (csrWrite a v s).trap = s.trap := rfl
@[simp] theorem csrWrite_draws (a : Nat) (v : Word) (s : State) : (csrWrite a v s).draws = s.draws := rfl
@[simp] theorem csrWrite_scDraws (a : Nat) (v : Word) (s : State) : (csrWrite a v s).scDraws = s.scDraws := rfl

@[simp] theorem csrWrite_pmp (a : Nat) (v : Word) (s : State) :
    (csrWrite a v s).pmp = csrWriteRegs s.cfg a v s.pmp := rfl

@[simp] theorem csrWrite_stale (a : Nat) (v : Word) (s : State) :
    (csrWrite a v s).stale = if s.cfg.hasPagedVM then s.stale ++ [s.pmp] else s.stale := rfl

/-! ## The result of an instruction -/

@[simp] theorem Res.bind_ok {α β : Type} (a : α) (s : State) (f : α → State → Res β) : (Res.ok a s).bind f = f a s := rfl

@[simp] theorem Res.bind_raise {α β : Type} (t : Trap) (s : State) (f : α → State → Res β) :
    (Res.raise t s).bind f = .raise t s := rfl

@[simp] theorem Res.bind_refuse {α β : Type} (q : Refusal) (f : α → State → Res β) :
    (Res.refuse q).bind f = .refuse q := rfl

@[simp] theorem Res.finish_ok (a : Unit) (s : State) : (Res.ok a s).finish = .next s := rfl

@[simp] theorem Res.finish_raise (t : Trap) (s : State) : (Res.raise t s).finish = .next (takeTrap t s) := rfl

@[simp] theorem Res.finish_refuse (q : Refusal) : (Res.refuse q).finish = .refused q := rfl

/-- A sequence answers a value when both parts do. -/
theorem Res.bind_eq_ok {α β : Type} {r : Res α} {f : α → State → Res β} {b : β} {t : State} (h : r.bind f = .ok b t) :
    ∃ a s, r = .ok a s ∧ f a s = .ok b t := by
  cases r with
  | ok a s => exact ⟨a, s, rfl, h⟩
  | raise => cases h
  | refuse => cases h

/-- A sequence raises when the first part does, or the second does after it. -/
theorem Res.bind_eq_raise {α β : Type} {r : Res α} {f : α → State → Res β} {τ : Trap} {t : State}
    (h : r.bind f = .raise τ t) : r = .raise τ t ∨ ∃ a s, r = .ok a s ∧ f a s = .raise τ t := by
  cases r with
  | ok a s => exact .inr ⟨a, s, rfl, h⟩
  | raise => left; cases h; rfl
  | refuse => cases h

/-- A sequence refuses when the first part does, or the second does after it. -/
theorem Res.bind_eq_refuse {α β : Type} {r : Res α} {f : α → State → Res β} {q : Refusal} (h : r.bind f = .refuse q) :
    r = .refuse q ∨ ∃ a s, r = .ok a s ∧ f a s = .refuse q := by
  cases r with
  | ok a s => exact .inr ⟨a, s, rfl, h⟩
  | raise => cases h
  | refuse => left; cases h; rfl

/-- An instruction body that answers a next state completed, or raised and took the trap. -/
theorem Res.finish_eq_next {r : Res Unit} {t : State} (h : r.finish = .next t) :
    r = .ok () t ∨ ∃ τ s, r = .raise τ s ∧ t = takeTrap τ s := by
  cases r with
  | ok a s => left; cases h; rfl
  | raise τ s => right; cases h; exact ⟨τ, s, rfl, rfl⟩
  | refuse => cases h

/-! ## Words of XLEN bits and registers (R7, R31) -/

theorem xlen_eq (c : Cfg) : xlen c = 32 ∨ xlen c = 64 := by
  unfold xlen; split <;> simp

theorem truncX_toNat (c : Cfg) (v : Word) : (truncX c v).toNat = v.toNat % 2 ^ xlen c := by
  unfold truncX xlen
  split
  · simp only [BitVec.toNat_setWidth]
    have := Nat.mod_lt v.toNat (show 0 < 2 ^ 32 by decide)
    omega
  · have := v.isLt
    omega

theorem truncX_lt (c : Cfg) (v : Word) : (truncX c v).toNat < 2 ^ xlen c := by
  rw [truncX_toNat]; exact Nat.mod_lt _ (Nat.two_pow_pos _)

@[simp] theorem truncX_truncX (c : Cfg) (v : Word) : truncX c (truncX c v) = truncX c v := by
  apply BitVec.eq_of_toNat_eq
  simp [truncX_toNat]

@[simp] theorem truncX_zero (c : Cfg) : truncX c 0#64 = 0#64 := by
  unfold truncX; split <;> rfl

@[simp] theorem truncX_sextX {k : Nat} (c : Cfg) (v : BitVec k) : truncX c (sextX c v) = sextX c v := by simp [sextX]

@[simp] theorem truncX_zextX {k : Nat} (c : Cfg) (v : BitVec k) : truncX c (zextX c v) = zextX c v := by simp [zextX]

@[simp] theorem readReg_zero (s : State) : readReg s 0 = 0 := by simp [readReg]

theorem readReg_lt (s : State) (r : Reg) : (readReg s r).toNat < 2 ^ xlen s.cfg := by
  unfold readReg
  split
  · exact Nat.two_pow_pos _
  · exact truncX_lt _ _

/-- The registers read depend on the platform and the register file only. -/
theorem readReg_congr {s t : State} (hc : t.cfg = s.cfg) (hx : t.x = s.x) (r : Reg) : readReg t r = readReg s r := by
  simp [readReg, hc, hx]

@[simp] theorem readReg_advance (s : State) (r : Reg) : readReg (advance s) r = readReg s r :=
  readReg_congr (by simp) (by simp) r

@[simp] theorem readReg_tick (s : State) (r : Reg) : readReg (tick s) r = readReg s r :=
  readReg_congr (by simp) (by simp) r

@[simp] theorem readReg_freeResv (s : State) (r : Reg) : readReg (freeResv s) r = readReg s r :=
  readReg_congr (by simp) (by simp) r

@[simp] theorem readReg_takeTrap (s : State) (t : Trap) (r : Reg) : readReg (takeTrap t s) r = readReg s r :=
  readReg_congr (by simp) (by simp) r

@[simp] theorem readReg_afterView (s : State) (r : Reg) : readReg (afterView s) r = readReg s r :=
  readReg_congr (by simp) (by simp) r

@[simp] theorem readReg_recordEvent (s : State) (pa n : Nat) (w : Option Nat) (r : Reg) : readReg (recordEvent pa n w s) r = readReg s r :=
  readReg_congr (by simp) (by simp) r

@[simp] theorem readReg_afterRead (s : State) (pa n : Nat) (r : Reg) : readReg (afterRead pa n s) r = readReg s r :=
  readReg_congr (by simp) (by simp) r

@[simp] theorem readReg_memWrite (s : State) (pa n : Nat) (v : BitVec (8 * n)) (r : Reg) : readReg (memWrite pa n v s) r = readReg s r :=
  readReg_congr (by simp) (by simp) r

@[simp] theorem readReg_csrWrite (s : State) (a : Nat) (v : Word) (r : Reg) : readReg (csrWrite a v s) r = readReg s r :=
  readReg_congr (by simp) (by simp) r

@[simp] theorem curPc_tick (s : State) : curPc (tick s) = curPc s := by simp [curPc]

@[simp] theorem curPc_freeResv (s : State) : curPc (freeResv s) = curPc s := by simp [curPc]

@[simp] theorem curPc_takeTrap (s : State) (t : Trap) : curPc (takeTrap t s) = curPc s := by simp [curPc]

@[simp] theorem curPc_afterView (s : State) : curPc (afterView s) = curPc s := by simp [curPc]

@[simp] theorem curPc_recordEvent (s : State) (pa n : Nat) (w : Option Nat) : curPc (recordEvent pa n w s) = curPc s := by simp [curPc]

@[simp] theorem curPc_afterRead (s : State) (pa n : Nat) : curPc (afterRead pa n s) = curPc s := by simp [curPc]

@[simp] theorem curPc_memWrite (s : State) (pa n : Nat) (v : BitVec (8 * n)) : curPc (memWrite pa n v s) = curPc s := by simp [curPc]

@[simp] theorem curPc_csrWrite (s : State) (a : Nat) (v : Word) : curPc (csrWrite a v s) = curPc s := by simp [curPc]

@[simp] theorem curPc_writeReg (s : State) (r : Reg) (v : Word) : curPc (writeReg r v s) = curPc s := by simp [curPc]

/-- R31: the register written holds the value, `x0` reads zero. -/
theorem readReg_writeReg_self (s : State) (r : Reg) (v : Word) :
    readReg (writeReg r v s) r = if r = 0 then 0 else truncX s.cfg v := by
  unfold readReg writeReg
  split
  · simp
  · simp

/-- R31: a write leaves every other register alone. -/
theorem readReg_writeReg_ne (s : State) {r q : Reg} (v : Word) (h : q ≠ r) : readReg (writeReg r v s) q = readReg s q := by
  unfold writeReg
  split
  · rfl
  · unfold readReg
    split
    · rfl
    · congr 1
      exact Vector.getElem_set_ne r.isLt q.isLt (fun e => h (BitVec.eq_of_toNat_eq e.symm))

theorem effAddr_lt (s : State) (rs1 : Reg) (imm : BitVec 12) : (effAddr s rs1 imm).toNat < 2 ^ xlen s.cfg :=
  truncX_lt _ _

theorem curPc_lt (s : State) : (curPc s).toNat < 2 ^ xlen s.cfg := truncX_lt _ _

/-- R32, R33: the pc of the next instruction. -/
theorem advance_pc_toNat (s : State) : (advance s).pc.toNat = ((curPc s).toNat + 4) % 2 ^ xlen s.cfg := by
  rw [advance_pc, truncX_toNat, BitVec.toNat_add]
  rcases xlen_eq s.cfg with h | h <;> rw [h] <;> simp

end Sys2Proof.Machine
end

