-- ==== Sys2Proof/Laws/Access.lean ====
section
/-! SUPPORT. What an access can do, said once: the check of one part, the access pipeline, reads and writes, whole and
in parts. -/

namespace Sys2Proof.Machine

/-! ## The choice of a PMP view (R147) -/

/-- The view a check uses is one of the views of the state. -/
theorem chosenView_mem (s : State) : chosenView s ∈ pmpViews s := by
  unfold chosenView
  dsimp only
  split
  · simp [pmpViews]
  · rename_i h
    have hlt : Config.pmpView s.draws % (pmpViews s).length < (pmpViews s).length := Nat.mod_lt _ (by omega)
    rw [List.getD_eq_getElem?_getD, List.getElem?_eq_getElem hlt, Option.getD_some]
    exact List.getElem_mem hlt

/-- The views depend on the platform and the PMP registers only. -/
theorem pmpViews_congr {s t : State} (hc : t.cfg = s.cfg) (hp : t.pmp = s.pmp) (hs : t.stale = s.stale) :
    pmpViews t = pmpViews s := by
  simp [pmpViews, hc, hp, hs]

@[simp] theorem pmpViews_tick (s : State) : pmpViews (tick s) = pmpViews s := rfl

@[simp] theorem pmpViews_tickSc (s : State) : pmpViews (tickSc s) = pmpViews s := rfl

@[simp] theorem pmpViews_afterView (s : State) : pmpViews (afterView s) = pmpViews s :=
  pmpViews_congr (by simp) (by simp) (by simp)

@[simp] theorem pmpViews_afterRead (pa n : Nat) (s : State) : pmpViews (afterRead pa n s) = pmpViews s :=
  pmpViews_congr (by simp) (by simp) (by simp)

@[simp] theorem pmpViews_memWrite (pa n : Nat) (v : BitVec (8 * n)) (s : State) :
    pmpViews (memWrite pa n v s) = pmpViews s :=
  pmpViews_congr (by simp) (by simp) (by simp)

/-- With no snapshots the check uses the current registers and draws nothing (R150). -/
theorem afterView_of_noPaging {s : State} (h : s.cfg.hasPagedVM = false) : afterView s = s := by
  simp [afterView, pmpViews, h]

theorem afterView_draws (s : State) : (afterView s).draws = s.draws ∨ (afterView s).draws = s.draws + 1 := by
  unfold afterView; split
  · exact .inl rfl
  · exact .inr rfl

/-- `EffPriv` depends on the mode and on `mprv`, `mpp` only. -/
theorem effPriv_congr {s t : State} (h1 : t.priv = s.priv) (h2 : t.mprv = s.mprv) (h3 : t.mpp = s.mpp)
    (kind : AccessKind) : effPriv t kind = effPriv s kind := by
  cases kind <;> simp [effPriv, h1, h2, h3]

/-! ## The regions (R84, R145) -/

/-- The region of an address holds it. -/
theorem pmaOf_bounds {c : Cfg} {pa : Nat} {r : PmaRegion} (h : pmaOf c pa = some r) :
    r ∈ c.pma ∧ r.base ≤ pa ∧ pa < r.base + r.size := by
  have h1 := List.find?_some h
  have h2 := List.mem_of_find?_eq_some h
  simp only [Bool.and_eq_true, decide_eq_true_eq] at h1
  exact ⟨h2, h1⟩

/-- Every byte of an access that stays inside one region is mapped. -/
theorem pmaOf_isSome_of_sameRegion {c : Cfg} {pa m : Nat} {r : PmaRegion} (h : pmaOf c pa = some r)
    (hs : sameRegion r pa m = true) {a : Nat} (h1 : pa ≤ a) (h2 : a < pa + m) : (pmaOf c a).isSome = true := by
  obtain ⟨hr, hb, he⟩ := pmaOf_bounds h
  simp only [sameRegion, decide_eq_true_eq] at hs
  rw [pmaOf, List.find?_isSome]
  exact ⟨r, hr, by simp only [Bool.and_eq_true, decide_eq_true_eq]; omega⟩

/-! ## One part of the check stage (R140) -/

/-- What is true when a part passes its checks. -/
structure PartOk (kind : AccessKind) (va : Word) (m : Nat) (s : State) : Prop where
  passed : ∃ r, pmaOf s.cfg va.toNat = some r ∧ sameRegion r va.toNat m = true ∧ refusesModel r = false ∧
    pmaOk kind r m = true
  permitted : ∃ p ∈ pmpViews s, pmpCheck s.cfg p va.toNat m (kindType kind) (effPriv s kind) = true

theorem checkPart_ok {kind : AccessKind} {va : Word} {m : Nat} {s s1 : State} {u : Unit}
    (h : checkPart kind va m s = .ok u s1) : s1 = afterView s ∧ PartOk kind va m s := by
  unfold checkPart at h
  dsimp only at h
  split at h
  · cases h
  · rename_i r hr
    split at h
    · cases h
    · rename_i h1
      split at h
      · cases h
      · rename_i h2
        split at h
        · cases h
        · rename_i h3
          split at h
          · cases h
          · rename_i h4
            cases h
            simp only [Bool.not_eq_true', Bool.not_eq_false] at h1 h2 h3 h4
            exact ⟨rfl, ⟨r, hr, h1, by simpa using h2, h4⟩, ⟨chosenView s, chosenView_mem s, h3⟩⟩

theorem checkPart_raise {kind : AccessKind} {va : Word} {m : Nat} {s s1 : State} {t : Trap}
    (h : checkPart kind va m s = .raise t s1) :
    t = ⟨.accessFault (kindType kind), va⟩ ∧ (s1 = s ∨ s1 = afterView s) := by
  unfold checkPart at h
  dsimp only at h
  repeat' split at h
  all_goals first
    | (cases h; done)
    | (cases h; exact ⟨rfl, .inl rfl⟩)
    | (cases h; exact ⟨rfl, .inr rfl⟩)

theorem checkPart_refuse {kind : AccessKind} {va : Word} {m : Nat} {s : State} {q : Refusal}
    (h : checkPart kind va m s = .refuse q) :
    q = .implDefinedMemoryModel ∧ ∃ r, pmaOf s.cfg va.toNat = some r ∧ refusesModel r = true := by
  unfold checkPart at h
  dsimp only at h
  split at h
  · cases h
  · rename_i r hr
    split at h
    · cases h
    · split at h
      · rename_i h2
        cases h
        exact ⟨rfl, r, hr, h2⟩
      · split at h
        · cases h
        · split at h <;> cases h

/-! ## The access pipeline (R140) -/

/-- An access that passes is whole, all its checks passed; or it is to be made in parts. -/
theorem access_ok {kind : AccessKind} {va : Word} {n : Nat} {s s1 : State} {shape : Shape}
    (h : access kind va n s = .ok shape s1) :
    translatable s.cfg va n = true ∧ alignStage s.cfg kind va n = shape ∧
      ((shape = .whole ∧ s1 = afterView s ∧ PartOk kind va n s) ∨ (shape = .parts ∧ (s1 = s ∨ s1 = afterView s))) := by
  unfold access at h
  split at h
  · cases h
  · rename_i htr
    simp only [Bool.not_eq_true', Bool.not_eq_false] at htr
    refine ⟨htr, ?_⟩
    split at h
    · split at h
      · cases h
      · rename_i hs; cases h; exact ⟨hs, .inr ⟨rfl, .inl rfl⟩⟩
      · rename_i hs
        obtain ⟨u, s2, h1, h2⟩ := Res.bind_eq_ok h
        cases h2
        obtain ⟨e, hp⟩ := checkPart_ok h1
        exact ⟨hs, .inl ⟨rfl, e, hp⟩⟩
    · obtain ⟨u, s2, h1, h2⟩ := Res.bind_eq_ok h
      obtain ⟨e, hp⟩ := checkPart_ok h1
      split at h2
      · cases h2
      · rename_i hs; cases h2; exact ⟨hs, .inr ⟨rfl, .inr e⟩⟩
      · rename_i hs; cases h2; exact ⟨hs, .inl ⟨rfl, e, hp⟩⟩

/-- An access that raises names its own address, raises the access fault or the misaligned exception of its kind, and has
changed nothing but perhaps the choice of a view. -/
theorem access_raise {kind : AccessKind} {va : Word} {n : Nat} {s s1 : State} {t : Trap}
    (h : access kind va n s = .raise t s1) :
    t.tval = va ∧ (t.exc = .accessFault (kindType kind) ∨ alignStage s.cfg kind va n = .misaligned t.exc) ∧
      (s1 = s ∨ s1 = afterView s) := by
  unfold access at h
  split at h
  · cases h; exact ⟨rfl, .inl rfl, .inl rfl⟩
  · split at h
    · split at h
      · rename_i hs; cases h; exact ⟨rfl, .inr hs, .inl rfl⟩
      · cases h
      · rcases Res.bind_eq_raise h with h1 | ⟨u, s2, h1, h2⟩
        · obtain ⟨rfl, e⟩ := checkPart_raise h1
          exact ⟨rfl, .inl rfl, e⟩
        · cases h2
    · rcases Res.bind_eq_raise h with h1 | ⟨u, s2, h1, h2⟩
      · obtain ⟨rfl, e⟩ := checkPart_raise h1
        exact ⟨rfl, .inl rfl, e⟩
      · obtain ⟨e, -⟩ := checkPart_ok h1
        split at h2
        · rename_i hs; cases h2; exact ⟨rfl, .inr hs, .inr e⟩
        · cases h2
        · cases h2

theorem access_refuse {kind : AccessKind} {va : Word} {n : Nat} {s : State} {q : Refusal}
    (h : access kind va n s = .refuse q) :
    q = .implDefinedMemoryModel ∧ ∃ r, pmaOf s.cfg va.toNat = some r ∧ refusesModel r = true := by
  unfold access at h
  split at h
  · cases h
  · split at h
    · split at h
      · cases h
      · cases h
      · rcases Res.bind_eq_refuse h with h1 | ⟨u, s2, h1, h2⟩
        · exact checkPart_refuse h1
        · cases h2
    · rcases Res.bind_eq_refuse h with h1 | ⟨u, s2, h1, h2⟩
      · exact checkPart_refuse h1
      · split at h2 <;> cases h2

/-- What `checked` says. -/
theorem checked_iff {s : State} {kind : AccessKind} {va : Word} {n : Nat} :
    checked s kind va n = true ↔
      (∃ r, pmaOf s.cfg va.toNat = some r ∧ sameRegion r va.toNat n = true ∧ refusesModel r = false ∧
        pmaOk kind r n = true) ∧
      ∀ p ∈ pmpViews s, pmpCheck s.cfg p va.toNat n (kindType kind) (effPriv s kind) = true := by
  unfold checked
  cases hp : pmaOf s.cfg va.toNat with
  | none => simp
  | some r =>
    simp only [Bool.and_eq_true, Bool.not_eq_true', List.all_eq_true, Option.some.injEq, exists_eq_left']
    tauto

/-- What `granted` says. -/
theorem granted_iff {s : State} {kind : AccessKind} {va : Word} {n : Nat} :
    granted s kind va n = true ↔
      translatable s.cfg va n = true ∧ alignStage s.cfg kind va n = .whole ∧ checked s kind va n = true := by
  simp only [granted, Bool.and_eq_true, beq_iff_eq, and_assoc]

/-- A part whose checks pass whichever view is used passes. -/
theorem checkPart_checked {s : State} {kind : AccessKind} {va : Word} {n : Nat} (h : checked s kind va n = true) :
    checkPart kind va n s = .ok () (afterView s) := by
  obtain ⟨⟨r, hr, h3, h4, h5⟩, h6⟩ := checked_iff.1 h
  have := h6 _ (chosenView_mem s)
  simp [checkPart, hr, h3, h4, h5, pmpCheckAny, this]

/-- A granted access passes, whole. -/
theorem access_granted {s : State} {kind : AccessKind} {va : Word} {n : Nat} (h : granted s kind va n = true) :
    access kind va n s = .ok .whole (afterView s) := by
  obtain ⟨h1, h2, h3⟩ := granted_iff.1 h
  simp [access, h1, h2, checkPart_checked h3]

/-- A denied part raises the access fault of its kind. -/
theorem checkPart_denied {s : State} {kind : AccessKind} {va : Word} {n : Nat} (h : denied s kind va n = true) :
    ∃ s1, checkPart kind va n s = .raise ⟨.accessFault (kindType kind), va⟩ s1 ∧ (s1 = s ∨ s1 = afterView s) := by
  have : ∃ s1, checkPart kind va n s = .raise ⟨.accessFault (kindType kind), va⟩ s1 := by
    unfold denied at h
    unfold checkPart
    dsimp only
    rcases hr : pmaOf s.cfg va.toNat with _ | r
    · exact ⟨s, by simp⟩
    · rw [hr] at h
      dsimp only at h ⊢
      by_cases h1 : sameRegion r va.toNat n
      · by_cases h2 : refusesModel r
        · simp [h1, h2] at h
        · by_cases h3 : pmpCheckAny s va.toNat n (kindType kind) (effPriv s kind)
          · by_cases h4 : pmaOk kind r n
            · simp only [h1, h2, h4, Bool.not_true, Bool.false_or, Bool.not_false, Bool.true_and, List.all_eq_true] at h
              have := h _ (chosenView_mem s)
              rw [pmpCheckAny] at h3
              simp [h3] at this
            · exact ⟨afterView s, by simp [h1, h2, h3, h4]⟩
          · exact ⟨afterView s, by simp [h1, h2, h3]⟩
      · exact ⟨s, by simp [h1]⟩
  obtain ⟨s1, h1⟩ := this
  exact ⟨s1, h1, (checkPart_raise h1).2⟩

/-- `granted` depends on the platform, the mode and the PMP registers only. -/
theorem granted_congr {s t : State} (hc : t.cfg = s.cfg) (h1 : t.priv = s.priv) (h2 : t.mprv = s.mprv)
    (h3 : t.mpp = s.mpp) (h4 : t.pmp = s.pmp) (h5 : t.stale = s.stale) (kind : AccessKind) (va : Word) (n : Nat) :
    granted t kind va n = granted s kind va n := by
  simp only [granted, checked, hc, pmpViews_congr hc h4 h5, effPriv_congr h1 h2 h3]

@[simp] theorem granted_tick (s : State) (kind : AccessKind) (va : Word) (n : Nat) :
    granted (tick s) kind va n = granted s kind va n := granted_congr rfl rfl rfl rfl rfl rfl kind va n

@[simp] theorem granted_tickSc (s : State) (kind : AccessKind) (va : Word) (n : Nat) :
    granted (tickSc s) kind va n = granted s kind va n := granted_congr rfl rfl rfl rfl rfl rfl kind va n

/-! ## States an access leaves -/

/-- Everything but memory, the stored addresses, the device events and the counters of free values is the same. -/
structure SameCore (s t : State) : Prop where
  cfg : t.cfg = s.cfg
  x : t.x = s.x
  pc : t.pc = s.pc
  priv : t.priv = s.priv
  mprv : t.mprv = s.mprv
  mpp : t.mpp = s.mpp
  pmp : t.pmp = s.pmp
  resv : t.resv = s.resv
  stale : t.stale = s.stale
  trap : t.trap = s.trap

theorem SameCore.refl (s : State) : SameCore s s := ⟨rfl, rfl, rfl, rfl, rfl, rfl, rfl, rfl, rfl, rfl⟩

theorem SameCore.trans {s t u : State} (h : SameCore s t) (k : SameCore t u) : SameCore s u :=
  ⟨k.cfg.trans h.cfg, k.x.trans h.x, k.pc.trans h.pc, k.priv.trans h.priv, k.mprv.trans h.mprv, k.mpp.trans h.mpp,
    k.pmp.trans h.pmp, k.resv.trans h.resv, k.stale.trans h.stale, k.trap.trans h.trap⟩

theorem sameCore_tick (s : State) : SameCore s (tick s) := ⟨rfl, rfl, rfl, rfl, rfl, rfl, rfl, rfl, rfl, rfl⟩

theorem sameCore_tickSc (s : State) : SameCore s (tickSc s) := ⟨rfl, rfl, rfl, rfl, rfl, rfl, rfl, rfl, rfl, rfl⟩

theorem sameCore_afterView (s : State) : SameCore s (afterView s) := by constructor <;> simp

theorem sameCore_afterRead (pa n : Nat) (s : State) : SameCore s (afterRead pa n s) := by constructor <;> simp

theorem sameCore_memWrite (pa n : Nat) (v : BitVec (8 * n)) (s : State) : SameCore s (memWrite pa n v s) := by
  constructor <;> simp

theorem SameCore.granted {s t : State} (h : SameCore s t) (kind : AccessKind) (va : Word) (n : Nat) :
    granted t kind va n = granted s kind va n :=
  granted_congr h.cfg h.priv h.mprv h.mpp h.pmp h.stale kind va n

theorem SameCore.pmpViews {s t : State} (h : SameCore s t) : pmpViews t = pmpViews s :=
  pmpViews_congr h.cfg h.pmp h.stale

theorem SameCore.effPriv {s t : State} (h : SameCore s t) (kind : AccessKind) : effPriv t kind = effPriv s kind :=
  effPriv_congr h.priv h.mprv h.mpp kind

theorem SameCore.readReg {s t : State} (h : SameCore s t) (r : Reg) : readReg t r = readReg s r :=
  readReg_congr h.cfg h.x r

theorem SameCore.curPc {s t : State} (h : SameCore s t) : curPc t = curPc s := by
  simp [Sys2Proof.Machine.curPc, h.cfg, h.pc]

/-- The states a sequence of reads passes through from `s0`: free values drawn, device reads recorded. -/
inductive Reads (s0 : State) : State → Prop where
  | start : Reads s0 s0
  | tick {s : State} : Reads s0 s → Reads s0 (tick s)
  | tickSc {s : State} : Reads s0 s → Reads s0 (tickSc s)
  | read {s : State} (pa n : Nat) : Reads s0 s → Reads s0 (afterRead pa n s)

/-- The states a sequence of reads, and of writes of bytes of the value `src` to their places from `lo` on, passes through
from `s0`: each write passed its own checks as it was made. -/
inductive Writes {size : Nat} (lo : Nat) (src : BitVec (8 * size)) (s0 : State) : State → Prop where
  | start : Writes lo src s0 s0
  | tick {s : State} : Writes lo src s0 s → Writes lo src s0 (tick s)
  | tickSc {s : State} : Writes lo src s0 s → Writes lo src s0 (tickSc s)
  | read {s : State} (pa n : Nat) : Writes lo src s0 s → Writes lo src s0 (afterRead pa n s)
  | write {s : State} (va : Word) (n : Nat) (kind : AccessKind) : Writes lo src s0 s →
      lo ≤ va.toNat → va.toNat + n ≤ lo + size → kind = .store ∨ kind = .sc ∨ (∃ op, kind = .amo op) →
      PartOk kind va n s → Writes lo src s0 (memWrite va.toNat n (src.extractLsb' (8 * (va.toNat - lo)) (8 * n)) s)

section
variable {size lo : Nat} {src : BitVec (8 * size)} {s0 s t : State}

theorem Reads.view (h : Reads s0 s) : Reads s0 (afterView s) := by
  unfold afterView; split
  · exact h
  · exact h.tick

theorem Reads.trans (h : Reads s0 s) (k : Reads s t) : Reads s0 t := by
  induction k with
  | start => exact h
  | tick _ ih => exact ih.tick
  | tickSc _ ih => exact ih.tickSc
  | read pa n _ ih => exact ih.read pa n

theorem Writes.view (h : Writes lo src s0 s) : Writes lo src s0 (afterView s) := by
  unfold afterView; split
  · exact h
  · exact h.tick

theorem Writes.trans (h : Writes lo src s0 s) (k : Writes lo src s t) : Writes lo src s0 t := by
  induction k with
  | start => exact h
  | tick _ ih => exact ih.tick
  | tickSc _ ih => exact ih.tickSc
  | read pa n _ ih => exact ih.read pa n
  | write va n kind _ h1 h2 h3 h4 ih => exact ih.write va n kind h1 h2 h3 h4

theorem Reads.writes (h : Reads s0 s) (lo : Nat) (src : BitVec (8 * size)) : Writes lo src s0 s := by
  induction h with
  | start => exact .start
  | tick _ ih => exact ih.tick
  | tickSc _ ih => exact ih.tickSc
  | read pa n _ ih => exact ih.read pa n

/-- Bytes of a part of a value are bytes of the value. -/
theorem extract_extract {k : Nat} {v : BitVec k} {a b n j : Nat} (h : b + n ≤ j) :
    (v.extractLsb' a j).extractLsb' b n = v.extractLsb' (a + b) n := by
  apply BitVec.eq_of_getLsbD_eq
  intro i hi
  simp only [BitVec.getLsbD_extractLsb', hi, decide_true, Bool.true_and, show b + i < j by omega]
  rw [Nat.add_assoc]

/-- The writes of a part of a value are writes of the value. -/
theorem Writes.widen {off m : Nat} (h : Writes (lo + off) (src.extractLsb' (8 * off) (8 * m)) s0 s)
    (hlen : off + m ≤ size) : Writes lo src s0 s := by
  induction h with
  | start => exact .start
  | tick _ ih => exact ih.tick
  | tickSc _ ih => exact ih.tickSc
  | read pa n _ ih => exact ih.read pa n
  | write va n kind _ h1 h2 h3 h4 ih =>
    have := Writes.write va n kind ih (by omega) (by omega) h3 h4
    rwa [extract_extract (by omega), show 8 * off + 8 * (va.toNat - (lo + off)) = 8 * (va.toNat - lo) by omega]

theorem Writes.core (h : Writes lo src s0 s) : SameCore s0 s := by
  induction h with
  | start => exact .refl _
  | tick _ ih => exact ih.trans (sameCore_tick _)
  | tickSc _ ih => exact ih.trans (sameCore_tickSc _)
  | read pa n _ ih => exact ih.trans (sameCore_afterRead ..)
  | write va n kind _ _ _ _ _ ih => exact ih.trans (sameCore_memWrite ..)

theorem Reads.core (h : Reads s0 s) : SameCore s0 s := (h.writes (size := 0) 0 0).core

theorem Reads.mem (h : Reads s0 s) : s.mem = s0.mem := by
  induction h with
  | start => rfl
  | tick _ ih => exact ih
  | tickSc _ ih => exact ih
  | read pa n _ ih => simpa using ih

theorem Reads.stored (h : Reads s0 s) : s.stored = s0.stored := by
  induction h with
  | start => rfl
  | tick _ ih => exact ih
  | tickSc _ ih => exact ih
  | read pa n _ ih => simpa using ih

/-- Outside its target a sequence of writes leaves memory alone. -/
theorem Writes.mem_out (h : Writes lo src s0 s) {a : Nat} (ha : a < lo ∨ lo + size ≤ a) :
    Memory.get s.mem a = Memory.get s0.mem a := by
  induction h with
  | start => rfl
  | tick _ ih => exact ih
  | tickSc _ ih => exact ih
  | read pa n _ ih => simpa using ih
  | write va n kind _ h1 h2 _ _ ih =>
    rw [memWrite_mem, Memory.get_write_out _ _ (by omega)]
    exact ih

theorem Writes.mem_wf (h : Writes lo src s0 s) (hm : Memory.wf s0.mem) : Memory.wf s.mem := by
  induction h with
  | start => exact hm
  | tick _ ih => exact ih
  | tickSc _ ih => exact ih
  | read pa n _ ih => simpa using ih
  | write va n kind _ _ _ _ _ ih => rw [memWrite_mem]; exact Memory.wf_write ih _ _ _

/-- A byte that a sequence of writes has changed holds its byte of the value. -/
theorem Writes.mem_changed (h : Writes lo src s0 s) (hm : Memory.wf s0.mem) {a : Nat}
    (hne : Memory.get s.mem a ≠ Memory.get s0.mem a) : Memory.get s.mem a = src.extractLsb' (8 * (a - lo)) 8 := by
  induction h with
  | start => exact absurd rfl hne
  | tick _ ih => exact ih hne
  | tickSc _ ih => exact ih hne
  | read pa n _ ih =>
    rw [afterRead_mem] at hne ⊢
    exact ih hne
  | write va n kind hw h1 h2 _ _ ih =>
    rw [memWrite_mem, Memory.get_write (hw.mem_wf hm)] at hne ⊢
    split at hne
    · rename_i hin
      rw [if_pos hin, extract_extract (by omega),
        show 8 * (va.toNat - lo) + 8 * (a - va.toNat) = 8 * (a - lo) by omega]
    · rename_i hout
      rw [if_neg hout]
      exact ih hne

/-- Device events only accumulate. -/
theorem Writes.events (h : Writes lo src s0 s) : ∃ new, s.events = s0.events ++ new := by
  induction h with
  | start => exact ⟨[], by simp⟩
  | tick _ ih => exact ih
  | tickSc _ ih => exact ih
  | read pa n _ ih =>
    obtain ⟨l, hl⟩ := ih
    exact ⟨_, by rw [afterRead_events, hl, List.append_assoc]⟩
  | write va n kind _ _ _ _ _ ih =>
    obtain ⟨l, hl⟩ := ih
    exact ⟨_, by rw [memWrite_events, hl, List.append_assoc]⟩

/-- Stored addresses only accumulate. -/
theorem Writes.stored (h : Writes lo src s0 s) {a : Nat} (ha : a ∈ s0.stored) : a ∈ s.stored := by
  induction h with
  | start => exact ha
  | tick _ ih => exact ih
  | tickSc _ ih => exact ih
  | read pa n _ ih => simpa using ih
  | write va n kind _ _ _ _ _ ih => rw [memWrite_stored, mem_insertAddrs]; exact .inl ih

end

/-! ## Reads and writes, whole and in parts -/

theorem access_state {kind : AccessKind} {va : Word} {n : Nat} {s s1 : State} {shape : Shape}
    (h : access kind va n s = .ok shape s1) : s1 = s ∨ s1 = afterView s := by
  rcases (access_ok h).2.2 with ⟨-, e, -⟩ | ⟨-, e⟩
  · exact .inr e
  · exact e

theorem access_reads {kind : AccessKind} {va : Word} {n : Nat} {s s1 : State} {shape : Shape}
    (h : access kind va n s = .ok shape s1) : Reads s s1 := by
  rcases access_state h with rfl | rfl
  · exact .start
  · exact Reads.start.view

theorem access_raise_reads {kind : AccessKind} {va : Word} {n : Nat} {s s1 : State} {t : Trap}
    (h : access kind va n s = .raise t s1) : Reads s s1 := by
  rcases (access_raise h).2.2 with rfl | rfl
  · exact .start
  · exact Reads.start.view

/-- A trap an access of a kind other than a fetch can raise, in a state with platform `c`. -/
def dataTrap (c : Cfg) (kind : AccessKind) (t : Trap) : Prop :=
  (t.exc = .accessFault (kindType kind) ∨ t.exc = .addrMisaligned (kindType kind)) ∧ t.tval.toNat < 2 ^ xlen c

theorem misalignedExc_cases (c : Cfg) (kind : AccessKind) (va : Word) :
    misalignedExc c kind va = .accessFault (kindType kind) ∨ misalignedExc c kind va = .addrMisaligned (kindType kind) := by
  unfold misalignedExc
  split
  · exact .inl rfl
  · split
    · exact .inr rfl
    · exact .inl rfl

theorem alignStage_misaligned {c : Cfg} {kind : AccessKind} {va : Word} {n : Nat} {e : Exc}
    (h : alignStage c kind va n = .misaligned e) : va.toNat % n ≠ 0 ∧ e = misalignedExc c kind va := by
  unfold alignStage at h
  split at h
  · cases h
  · rename_i hn
    refine ⟨hn, ?_⟩
    repeat' split at h
    all_goals first
      | (cases h; done)
      | (cases h; rfl)

theorem access_dataTrap {kind : AccessKind} {va : Word} {n : Nat} {s s1 : State} {t : Trap}
    (h : access kind va n s = .raise t s1) (hv : va.toNat < 2 ^ xlen s.cfg) : dataTrap s.cfg kind t := by
  obtain ⟨h1, h2, -⟩ := access_raise h
  refine ⟨?_, h1 ▸ hv⟩
  rcases h2 with h2 | h2
  · exact .inl h2
  · rw [(alignStage_misaligned h2).2]
    exact misalignedExc_cases ..

/-! ### The parts of an access -/

theorem naturalPart_one (a : Nat) : naturalPart a 1 = true := by simp [naturalPart, Nat.mod_one]

theorem stopsAlignment_eq_false {c : Cfg} {kind : AccessKind} {va : Word} {n : Nat} :
    stopsAlignment c kind va n = false ↔ alignStage c kind va n = .whole ∨ alignStage c kind va n = .parts := by
  unfold stopsAlignment
  cases alignStage c kind va n <;> simp

theorem stopsAlignment_eq_true {c : Cfg} {kind : AccessKind} {va : Word} {n : Nat} :
    stopsAlignment c kind va n = true ↔ ∃ e, alignStage c kind va n = .misaligned e := by
  unfold stopsAlignment
  cases alignStage c kind va n <;> simp

/-- Alignment does not stop a byte. -/
theorem widePart_one (c : Cfg) (kind : AccessKind) (a : Nat) : widePart c kind a 1 = true := by
  have : stopsAlignment c kind (BitVec.ofNat 64 a) 1 = false :=
    stopsAlignment_eq_false.2 (.inl (by simp [alignStage, Nat.mod_one]))
  rw [widePart, this]
  rcases xlen_eq c with e | e <;> simp [e]

theorem pickSize_cases {fits : Nat → Bool} (choice : Nat) {left : Nat} (h1 : fits 1 = true) (hl : 0 < left) :
    pickSize fits choice left ∈ [1, 2, 4, 8] ∧ fits (pickSize fits choice left) = true ∧ pickSize fits choice left ≤ left := by
  unfold pickSize
  dsimp only
  generalize hs : ([1, 2, 4, 8].filter fun m => fits m && decide (m ≤ left)) = sizes
  have hall : ∀ m ∈ sizes, m ∈ [1, 2, 4, 8] ∧ fits m = true ∧ m ≤ left := by
    intro m hm
    rw [← hs, List.mem_filter] at hm
    simpa using hm
  have hpos : 0 < sizes.length := List.length_pos_of_mem (a := 1) (by
    rw [← hs, List.mem_filter]; simp [h1]; omega)
  have hlt : choice % sizes.length < sizes.length := Nat.mod_lt _ hpos
  rw [List.getD_eq_getElem?_getD, List.getElem?_eq_getElem hlt, Option.getD_some]
  exact hall _ (List.getElem_mem hlt)

/-- Every part fits its address and lies inside the access. -/
theorem partsFrom_mem {fits : Nat → Nat → Bool} (h1 : ∀ a, fits a 1 = true) {fuel : Nat} {choices : List Nat}
    {pa off n : Nat} {p : Nat × Nat} (h : p ∈ partsFrom fuel choices fits pa off n) :
    p.2 ∈ [1, 2, 4, 8] ∧ fits (pa + p.1) p.2 = true ∧ off ≤ p.1 ∧ p.1 + p.2 ≤ n := by
  induction fuel generalizing choices off with
  | zero => simp [partsFrom] at h
  | succ fuel ih =>
    unfold partsFrom at h
    split at h
    · cases h
    · rename_i hn
      dsimp only at h
      have hp := pickSize_cases (choices.headD 0) (h1 (pa + off)) (show 0 < n - off by omega)
      rcases List.mem_cons.1 h with rfl | h
      · exact ⟨hp.1, hp.2.1, le_refl _, by dsimp only; omega⟩
      · have := ih h
        exact ⟨this.1, this.2.1, by omega, this.2.2.2⟩

/-- A choice of order is a permutation. -/
theorem reorder_perm {α : Type} (fuel : Nat) (choices : List Nat) (l : List α) : (reorder fuel choices l).Perm l := by
  induction fuel generalizing choices l with
  | zero => exact .refl _
  | succ fuel ih =>
    unfold reorder
    split
    · exact .refl _
    · rename_i a ha
      obtain ⟨hlt, rfl⟩ := List.getElem?_eq_some_iff.1 ha
      exact ((ih _ _).cons _).trans (List.getElem_cons_eraseIdx_perm hlt)

theorem splitPlan_perm (fits : Nat → Nat → Bool) (choices : List Nat) (pa n : Nat) :
    (splitPlan fits choices pa n).Perm (partsFrom n choices fits pa 0 n) := reorder_perm ..

/-- Every part of a plan fits its address and lies inside the access. -/
theorem splitPlan_mem {fits : Nat → Nat → Bool} (h1 : ∀ a, fits a 1 = true) {choices : List Nat} {pa n : Nat}
    {p : Nat × Nat} (h : p ∈ splitPlan fits choices pa n) :
    p.2 ∈ [1, 2, 4, 8] ∧ fits (pa + p.1) p.2 = true ∧ p.1 + p.2 ≤ n ∧ 0 < p.2 := by
  have := partsFrom_mem h1 ((splitPlan_perm ..).mem_iff.1 h)
  refine ⟨this.1, this.2.1, this.2.2.2, ?_⟩
  have h2 := this.1
  simp only [List.mem_cons, List.not_mem_nil, or_false] at h2
  omega

/-- The address of a part of an access that does not wrap. -/
theorem partAddr_toNat {c : Cfg} {va : Word} {n off : Nat} (h : va.toNat + n ≤ 2 ^ xlen c) (ho : off < n) :
    (partAddr c va off).toNat = va.toNat + off := by
  have hx : 2 ^ xlen c ≤ 2 ^ 64 := Nat.pow_le_pow_right (by decide) (by rcases xlen_eq c with e | e <;> omega)
  rw [partAddr, truncX_toNat, BitVec.toNat_add, BitVec.toNat_ofNat, Nat.mod_eq_of_lt (a := off) (by omega),
    Nat.mod_eq_of_lt (by omega), Nat.mod_eq_of_lt (by omega)]

theorem translatable_iff {c : Cfg} {va : Word} {n : Nat} :
    translatable c va n = true ↔ va.toNat + n ≤ 2 ^ xlen c ∧ va.toNat + n ≤ 2 ^ palen c := by
  simp [translatable]

/-- A naturally aligned access that passes is whole, and all its checks passed. -/
theorem access_ok_aligned {kind : AccessKind} {va : Word} {n : Nat} {s s1 : State} {shape : Shape}
    (h : access kind va n s = .ok shape s1) (hal : va.toNat % n = 0) :
    shape = .whole ∧ s1 = afterView s ∧ PartOk kind va n s := by
  obtain ⟨-, h2, h3⟩ := access_ok h
  rw [show alignStage s.cfg kind va n = .whole by simp [alignStage, hal]] at h2
  rcases h3 with ⟨-, h3⟩ | ⟨h4, -⟩
  · exact ⟨h2.symm, h3⟩
  · rw [← h2] at h4; cases h4

/-- The checks of a part do not depend on what has been read or written so far. -/
theorem PartOk.congr {kind : AccessKind} {va : Word} {m : Nat} {s t : State} (hc : SameCore s t)
    (h : PartOk kind va m s) : PartOk kind va m t := by
  refine ⟨?_, ?_⟩
  · rw [hc.cfg]; exact h.passed
  · rw [hc.pmpViews, hc.cfg, hc.effPriv]; exact h.permitted

/-! ### Loads -/

/-- All a load can do in a state: it reads, and what it raises is a load's. -/
def LoadDoes {α : Type} (s : State) (r : Res α) : Prop :=
  (∀ v s1, r = .ok v s1 → Reads s s1) ∧ ∀ t s1, r = .raise t s1 → Reads s s1 ∧ dataTrap s.cfg .load t

theorem LoadDoes.from {α : Type} {s s0 : State} {r : Res α} (h : LoadDoes s0 r) (hr : Reads s s0) : LoadDoes s r :=
  ⟨fun _ _ e => hr.trans (h.1 _ _ e), fun _ _ e => ⟨hr.trans (h.2 _ _ e).1, hr.core.cfg ▸ (h.2 _ _ e).2⟩⟩

/-- The parts of a load do what loads do when each of them does. -/
theorem loadParts_spec {one : Word → (m : Nat) → State → Res (BitVec (8 * m))} {va : Word} {n : Nat}
    (ps : List (Nat × Nat)) (acc : BitVec (8 * n)) (s : State)
    (hone : ∀ a m s', a.toNat < 2 ^ xlen s'.cfg → LoadDoes s' (one a m s')) : LoadDoes s (loadParts one va n ps acc s) := by
  induction ps generalizing acc s with
  | nil => exact ⟨fun v s1 h => by cases h; exact .start, fun t s1 h => by cases h⟩
  | cons p ps ih =>
    obtain ⟨off, m⟩ := p
    have h0 := hone (partAddr s.cfg va off) m s (truncX_lt _ _)
    refine ⟨fun v s1 h => ?_, fun t s1 h => ?_⟩
    · obtain ⟨w, s2, h1, h2⟩ := Res.bind_eq_ok h
      exact ((ih _ s2).from (h0.1 _ _ h1)).1 _ _ h2
    · rcases Res.bind_eq_raise h with h1 | ⟨w, s2, h1, h2⟩
      · exact h0.2 _ _ h1
      · exact ((ih _ s2).from (h0.1 _ _ h1)).2 _ _ h2

theorem readWhole_spec {va : Word} {n : Nat} {s : State} (hv : va.toNat < 2 ^ xlen s.cfg) :
    LoadDoes s (readWhole va n s) := by
  refine ⟨fun v s1 h => ?_, fun t s1 h => ?_⟩
  · obtain ⟨sh, s2, h1, h2⟩ := Res.bind_eq_ok h
    cases h2
    exact (access_reads h1).read _ _
  · rcases Res.bind_eq_raise h with h1 | ⟨sh, s2, h1, h2⟩
    · exact ⟨access_raise_reads h1, access_dataTrap h1 hv⟩
    · cases h2

theorem readData_spec {va : Word} {n : Nat} {s : State} (hv : va.toNat < 2 ^ xlen s.cfg) :
    LoadDoes s (readData va n s) := by
  have parts := fun s2 choices (hr : Reads s s2) =>
    (loadParts_spec (va := va) (n := n) (splitPlan naturalPart choices va.toNat n) 0 (tick s2)
      (fun _ _ _ => readWhole_spec)).from hr.tick
  refine ⟨fun v s1 h => ?_, fun t s1 h => ?_⟩
  · obtain ⟨sh, s2, h1, h2⟩ := Res.bind_eq_ok h
    split at h2
    · exact (parts _ _ (access_reads h1)).1 _ _ h2
    · cases h2; exact (access_reads h1).read _ _
  · rcases Res.bind_eq_raise h with h1 | ⟨sh, s2, h1, h2⟩
    · exact ⟨access_raise_reads h1, access_dataTrap h1 hv⟩
    · split at h2
      · exact (parts _ _ (access_reads h1)).2 _ _ h2
      · cases h2

theorem wideRead_spec {va : Word} {n : Nat} {s : State} (hv : va.toNat < 2 ^ xlen s.cfg) :
    LoadDoes s (wideRead va n s) := by
  unfold wideRead
  split
  · exact (readData_spec (s := tick s) hv).from Reads.start.tick
  · exact (loadParts_spec _ _ _ (fun _ _ _ => readData_spec)).from Reads.start.tick.tick

/-! ### Stores -/

/-- All a store of `v` can do in a state: it writes its own bytes, and what it raises is a store's. -/
def StoreDoes {n : Nat} (lo : Nat) (v : BitVec (8 * n)) (s : State) (r : Res Unit) : Prop :=
  (∀ u s1, r = .ok u s1 → Writes lo v s s1) ∧ ∀ t s1, r = .raise t s1 → Writes lo v s s1 ∧ dataTrap s.cfg .store t

/-- A sequence of writes from a state reached by reads alone. -/
theorem Reads.writes_trans {n : Nat} {lo : Nat} {v : BitVec (8 * n)} {s0 s t : State} (h : Reads s0 s)
    (k : Writes lo v s t) : Writes lo v s0 t := (h.writes lo v).trans k

theorem StoreDoes.from {n lo : Nat} {v : BitVec (8 * n)} {s s0 : State} {r : Res Unit} (h : StoreDoes lo v s0 r)
    (hw : Writes lo v s s0) : StoreDoes lo v s r :=
  ⟨fun _ _ e => hw.trans (h.1 _ _ e), fun _ _ e => ⟨hw.trans (h.2 _ _ e).1, hw.core.cfg ▸ (h.2 _ _ e).2⟩⟩

/-- The parts of a store do what stores do when each of them does. -/
theorem storeParts_spec {one : Word → (m : Nat) → BitVec (8 * m) → State → Res Unit} {va : Word} {n : Nat}
    {v : BitVec (8 * n)} (ps : List (Nat × Nat)) (s : State) (hva : va.toNat + n ≤ 2 ^ xlen s.cfg)
    (hps : ∀ p ∈ ps, p.1 + p.2 ≤ n ∧ 0 < p.2)
    (hone : ∀ p ∈ ps, ∀ s' w, s'.cfg = s.cfg →
      StoreDoes (va.toNat + p.1) w s' (one (partAddr s.cfg va p.1) p.2 w s')) :
    StoreDoes va.toNat v s (storeParts one va n v ps s) := by
  induction ps generalizing s with
  | nil => exact ⟨fun v s1 h => by cases h; exact .start, fun t s1 h => by cases h⟩
  | cons p ps ih =>
    obtain ⟨off, m⟩ := p
    obtain ⟨hlen, hpos⟩ := hps (off, m) (by simp)
    have h0 := hone (off, m) (by simp) s (v.extractLsb' (8 * off) (8 * m)) rfl
    dsimp only at hlen hpos h0
    have rest : ∀ s2, Writes va.toNat v s s2 → StoreDoes va.toNat v s (storeParts one va n v ps s2) := by
      intro s2 hw
      have hc := hw.core.cfg
      refine (ih s2 (by rw [hc]; exact hva) (fun p hp => hps p (by simp [hp])) ?_).from hw
      intro p hp s' w e
      rw [hc]
      exact hone p (by simp [hp]) s' w (e.trans hc)
    refine ⟨fun u s1 h => ?_, fun t s1 h => ?_⟩
    · obtain ⟨u, s2, h1, h2⟩ := Res.bind_eq_ok h
      exact (rest s2 ((h0.1 _ _ h1).widen hlen)).1 _ _ h2
    · rcases Res.bind_eq_raise h with h1 | ⟨u, s2, h1, h2⟩
      · exact ⟨(h0.2 _ _ h1).1.widen hlen, (h0.2 _ _ h1).2⟩
      · exact (rest s2 ((h0.1 _ _ h1).widen hlen)).2 _ _ h2

/-- A write of the whole value, after its checks have passed. -/
theorem Writes.one {n : Nat} {va : Word} {v : BitVec (8 * n)} {kind : AccessKind} {s0 s : State}
    (h : Writes va.toNat v s0 s) (hk : kind = .store ∨ kind = .sc ∨ (∃ op, kind = .amo op)) (hok : PartOk kind va n s) :
    Writes va.toNat v s0 (memWrite va.toNat n v s) := by
  have := Writes.write va n kind h (le_refl _) (le_refl _) hk hok
  have e : v.extractLsb' (8 * (va.toNat - va.toNat)) (8 * n) = v := by
    apply BitVec.eq_of_getLsbD_eq
    intro j hj
    simp [hj]
  rwa [e] at this

theorem writeWhole_spec {va : Word} {n : Nat} {v : BitVec (8 * n)} {s : State} (hv : va.toNat < 2 ^ xlen s.cfg)
    (hal : va.toNat % n = 0) : StoreDoes va.toNat v s (writeWhole va n v s) := by
  refine ⟨fun u s1 h => ?_, fun t s1 h => ?_⟩
  · obtain ⟨sh, s2, h1, h2⟩ := Res.bind_eq_ok h
    cases h2
    obtain ⟨-, rfl, hok⟩ := access_ok_aligned h1 hal
    exact (Reads.start.view.writes _ _).one (.inl rfl) (hok.congr (sameCore_afterView s))
  · rcases Res.bind_eq_raise h with h1 | ⟨sh, s2, h1, h2⟩
    · exact ⟨(access_raise_reads h1).writes _ _, access_dataTrap h1 hv⟩
    · cases h2

/-- What a store of `n` bytes can do: it is whole, or it is made in naturally aligned parts; a store that is not to be
made in parts and raises has only read. -/
theorem writeData_spec {va : Word} {n : Nat} {v : BitVec (8 * n)} {s : State} (hv : va.toNat < 2 ^ xlen s.cfg) :
    StoreDoes va.toNat v s (writeData va n v s) ∧
      (alignStage s.cfg .store va n ≠ .parts → ∀ t s1, writeData va n v s = .raise t s1 → Reads s s1) := by
  have parts : ∀ s2 choices, Reads s s2 → translatable s.cfg va n = true →
      StoreDoes va.toNat v s (storeParts writeWhole va n v (splitPlan naturalPart choices va.toNat n) (tick s2)) := by
    intro s2 choices hr htr
    have hc : (tick s2).cfg = s.cfg := hr.core.cfg
    have hx := (translatable_iff.1 htr).1
    refine (storeParts_spec _ _ (by rw [hc]; exact hx)
      (fun p hp => ((splitPlan_mem naturalPart_one hp).2.2)) ?_).from (hr.tick.writes _ _)
    intro p hp s' w e
    obtain ⟨-, h2, h3, h4⟩ := splitPlan_mem naturalPart_one hp
    have ha : (partAddr (tick s2).cfg va p.1).toNat = va.toNat + p.1 := by
      rw [hc]; exact partAddr_toNat hx (by omega)
    rw [← ha]
    exact writeWhole_spec (by rw [e]; exact truncX_lt _ _) (by rw [ha]; simpa [naturalPart] using h2)
  refine ⟨⟨fun u s1 h => ?_, fun t s1 h => ?_⟩, fun hnp t s1 h => ?_⟩
  · obtain ⟨sh, s2, h1, h2⟩ := Res.bind_eq_ok h
    obtain ⟨htr, hsh, h3⟩ := access_ok h1
    split at h2
    · exact (parts _ _ (access_reads h1) htr).1 _ _ h2
    · cases h2
      rcases h3 with ⟨-, rfl, hok⟩ | ⟨h4, -⟩
      · exact (Reads.start.view.writes _ _).one (.inl rfl) (hok.congr (sameCore_afterView s))
      · contradiction
  · rcases Res.bind_eq_raise h with h1 | ⟨sh, s2, h1, h2⟩
    · exact ⟨(access_raise_reads h1).writes _ _, access_dataTrap h1 hv⟩
    · split at h2
      · exact (parts _ _ (access_reads h1) (access_ok h1).1).2 _ _ h2
      · cases h2
  · rcases Res.bind_eq_raise h with h1 | ⟨sh, s2, h1, h2⟩
    · exact access_raise_reads h1
    · split at h2
      · rename_i hp
        exact absurd ((access_ok h1).2.1.trans hp) hnp
      · cases h2

/-- When an access wider than XLEN bits is made in parts. -/
theorem wideIsWhole_eq_false {s : State} {kind : AccessKind} {va : Word} {n : Nat} :
    wideIsWhole s kind va n = false ↔
      Config.wideAsOne s.draws = false ∧ translatable s.cfg va n = true ∧ stopsAlignment s.cfg kind va n = false := by
  simp [wideIsWhole, and_assoc]

/-- An access that alignment stops is told by one `Access`, whatever the platform's choice (R262, R301). -/
theorem wideIsWhole_of_stops {s : State} {kind : AccessKind} {va : Word} {n : Nat}
    (h : stopsAlignment s.cfg kind va n = true) : wideIsWhole s kind va n = true := by
  simp [wideIsWhole, h]

/-- What a store wider than XLEN bits can do; one made by one `Access`, not in parts, that raises has only read. -/
theorem wideWrite_spec {va : Word} {n : Nat} {v : BitVec (8 * n)} {s : State} (hv : va.toNat < 2 ^ xlen s.cfg) :
    StoreDoes va.toNat v s (wideWrite va n v s) ∧
      (wideIsWhole s .store va n = true → alignStage s.cfg .store va n ≠ .parts →
        ∀ t s1, wideWrite va n v s = .raise t s1 → Reads s s1) := by
  unfold wideWrite
  split
  · have h := writeData_spec (v := v) (s := tick s) hv
    exact ⟨h.1.from (Reads.start.tick.writes _ _), fun _ hnp t s1 e => Reads.start.tick.trans (h.2 hnp t s1 e)⟩
  · rename_i hw
    refine ⟨?_, fun h => absurd h hw⟩
    obtain ⟨-, htr, -⟩ := wideIsWhole_eq_false.1 (by simpa using hw)
    have hx := (translatable_iff.1 htr).1
    refine (storeParts_spec _ (tick (tick s)) hx (fun p hp => ((splitPlan_mem (widePart_one _ _) hp).2.2)) ?_).from
      (Reads.start.tick.tick.writes _ _)
    intro p hp s' w e
    obtain ⟨-, -, h3, h4⟩ := splitPlan_mem (widePart_one _ _) hp
    have ha : (partAddr (tick (tick s)).cfg va p.1).toNat = va.toNat + p.1 := partAddr_toNat hx (by omega)
    rw [← ha]
    exact (writeData_spec (by rw [e]; exact truncX_lt _ _)).1

end Sys2Proof.Machine
end

