-- ==== Sys2Proof/Laws/Encoding.lean ====
section
/-! SUPPORT. The fields of encoded words, and words rebuilt from their fields (30_encoding.md R171 to R177). -/

namespace Sys2Proof

/-! ## The fields of an R-type word (R171) -/

section RType
variable (f7 : BitVec 7) (rs2 rs1 : Reg) (f3 : BitVec 3) (rd : Reg) (op : BitVec 7)

@[simp] theorem opcodeOf_encodeR : opcodeOf (encodeR f7 rs2 rs1 f3 rd op) = op := by
  apply BitVec.eq_of_getLsbD_eq
  intro i hi
  simp only [opcodeOf, encodeR, BitVec.getLsbD_append, BitVec.getLsbD_extractLsb', hi]
  interval_cases i <;> simp

@[simp] theorem rdOf_encodeR : rdOf (encodeR f7 rs2 rs1 f3 rd op) = rd := by
  apply BitVec.eq_of_getLsbD_eq
  intro i hi
  simp only [rdOf, encodeR, BitVec.getLsbD_append, BitVec.getLsbD_extractLsb', hi]
  interval_cases i <;> simp

@[simp] theorem funct3Of_encodeR : funct3Of (encodeR f7 rs2 rs1 f3 rd op) = f3 := by
  apply BitVec.eq_of_getLsbD_eq
  intro i hi
  simp only [funct3Of, encodeR, BitVec.getLsbD_append, BitVec.getLsbD_extractLsb', hi]
  interval_cases i <;> simp

@[simp] theorem rs1Of_encodeR : rs1Of (encodeR f7 rs2 rs1 f3 rd op) = rs1 := by
  apply BitVec.eq_of_getLsbD_eq
  intro i hi
  simp only [rs1Of, encodeR, BitVec.getLsbD_append, BitVec.getLsbD_extractLsb', hi]
  interval_cases i <;> simp

@[simp] theorem rs2Of_encodeR : rs2Of (encodeR f7 rs2 rs1 f3 rd op) = rs2 := by
  apply BitVec.eq_of_getLsbD_eq
  intro i hi
  simp only [rs2Of, encodeR, BitVec.getLsbD_append, BitVec.getLsbD_extractLsb', hi]
  interval_cases i <;> simp

@[simp] theorem funct7Of_encodeR : funct7Of (encodeR f7 rs2 rs1 f3 rd op) = f7 := by
  apply BitVec.eq_of_getLsbD_eq
  intro i hi
  simp only [funct7Of, encodeR, BitVec.getLsbD_append, BitVec.getLsbD_extractLsb', hi]
  interval_cases i <;> simp

/-- A word is its six R-type fields. -/
theorem encodeR_fields (w : BitVec 32) :
    encodeR (funct7Of w) (rs2Of w) (rs1Of w) (funct3Of w) (rdOf w) (opcodeOf w) = w := by
  apply BitVec.eq_of_getLsbD_eq
  intro i hi
  simp only [encodeR, funct7Of, rs2Of, rs1Of, funct3Of, rdOf, opcodeOf, BitVec.getLsbD_append,
    BitVec.getLsbD_extractLsb']
  interval_cases i <;> simp

end RType

/-! ## The fields of an atomic word (R173) -/

section Atomic
variable (f5 : BitVec 5) (aq rl : Bool) (rs2 rs1 : Reg) (f3 : BitVec 3) (rd : Reg)

@[simp] theorem opcodeOf_encodeAtomic : opcodeOf (encodeAtomic f5 aq rl rs2 rs1 f3 rd) = 0b0101111#7 := by
  simp [encodeAtomic]

@[simp] theorem rdOf_encodeAtomic : rdOf (encodeAtomic f5 aq rl rs2 rs1 f3 rd) = rd := by simp [encodeAtomic]

@[simp] theorem funct3Of_encodeAtomic : funct3Of (encodeAtomic f5 aq rl rs2 rs1 f3 rd) = f3 := by simp [encodeAtomic]

@[simp] theorem rs1Of_encodeAtomic : rs1Of (encodeAtomic f5 aq rl rs2 rs1 f3 rd) = rs1 := by simp [encodeAtomic]

@[simp] theorem rs2Of_encodeAtomic : rs2Of (encodeAtomic f5 aq rl rs2 rs1 f3 rd) = rs2 := by simp [encodeAtomic]

@[simp] theorem funct5Of_encodeAtomic : funct5Of (encodeAtomic f5 aq rl rs2 rs1 f3 rd) = f5 := by
  apply BitVec.eq_of_getLsbD_eq
  intro i hi
  simp only [funct5Of, encodeAtomic, encodeR, BitVec.getLsbD_append, BitVec.getLsbD_extractLsb', hi]
  interval_cases i <;> simp

@[simp] theorem aqOf_encodeAtomic : aqOf (encodeAtomic f5 aq rl rs2 rs1 f3 rd) = aq := by
  simp only [aqOf, encodeAtomic, encodeR, BitVec.getLsbD_append]
  simp

@[simp] theorem rlOf_encodeAtomic : rlOf (encodeAtomic f5 aq rl rs2 rs1 f3 rd) = rl := by
  simp only [rlOf, encodeAtomic, encodeR, BitVec.getLsbD_append]
  simp

/-- A word of the AMO opcode is its seven atomic fields. -/
theorem encodeAtomic_fields (w : BitVec 32) (h : opcodeOf w = 0b0101111#7) :
    encodeAtomic (funct5Of w) (aqOf w) (rlOf w) (rs2Of w) (rs1Of w) (funct3Of w) (rdOf w) = w := by
  have e : funct5Of w ++ BitVec.ofBool (aqOf w) ++ BitVec.ofBool (rlOf w) = funct7Of w := by
    apply BitVec.eq_of_getLsbD_eq
    intro i hi
    simp only [funct5Of, funct7Of, aqOf, rlOf, BitVec.getLsbD_append, BitVec.getLsbD_extractLsb']
    interval_cases i <;> simp
  rw [encodeAtomic, e, ← h, encodeR_fields]

end Atomic

/-! ## The fields of an I-type word (R174, R176, R177) -/

section IType
variable (imm : BitVec 12) (rs1 : Reg) (f3 : BitVec 3) (rd : Reg) (op : BitVec 7)

@[simp] theorem opcodeOf_encodeI : opcodeOf (encodeI imm rs1 f3 rd op) = op := by
  apply BitVec.eq_of_getLsbD_eq
  intro i hi
  simp only [opcodeOf, encodeI, BitVec.getLsbD_append, BitVec.getLsbD_extractLsb', hi]
  interval_cases i <;> simp

@[simp] theorem rdOf_encodeI : rdOf (encodeI imm rs1 f3 rd op) = rd := by
  apply BitVec.eq_of_getLsbD_eq
  intro i hi
  simp only [rdOf, encodeI, BitVec.getLsbD_append, BitVec.getLsbD_extractLsb', hi]
  interval_cases i <;> simp

@[simp] theorem funct3Of_encodeI : funct3Of (encodeI imm rs1 f3 rd op) = f3 := by
  apply BitVec.eq_of_getLsbD_eq
  intro i hi
  simp only [funct3Of, encodeI, BitVec.getLsbD_append, BitVec.getLsbD_extractLsb', hi]
  interval_cases i <;> simp

@[simp] theorem rs1Of_encodeI : rs1Of (encodeI imm rs1 f3 rd op) = rs1 := by
  apply BitVec.eq_of_getLsbD_eq
  intro i hi
  simp only [rs1Of, encodeI, BitVec.getLsbD_append, BitVec.getLsbD_extractLsb', hi]
  interval_cases i <;> simp

@[simp] theorem immIOf_encodeI : immIOf (encodeI imm rs1 f3 rd op) = imm := by
  apply BitVec.eq_of_getLsbD_eq
  intro i hi
  simp only [immIOf, encodeI, BitVec.getLsbD_append, BitVec.getLsbD_extractLsb', hi]
  interval_cases i <;> simp

/-- A word is its five I-type fields. -/
theorem encodeI_fields (w : BitVec 32) : encodeI (immIOf w) (rs1Of w) (funct3Of w) (rdOf w) (opcodeOf w) = w := by
  apply BitVec.eq_of_getLsbD_eq
  intro i hi
  simp only [encodeI, immIOf, rs1Of, funct3Of, rdOf, opcodeOf, BitVec.getLsbD_append, BitVec.getLsbD_extractLsb']
  interval_cases i <;> simp

end IType

section Fence
variable (fm : BitVec 4) (p s : FenceSet) (rs1 : Reg) (f3 : BitVec 3) (rd : Reg) (op : BitVec 7)

@[simp] theorem fmOf_encodeI_fence :
    fmOf (encodeI (fm ++ encodeFenceSet p ++ encodeFenceSet s) rs1 f3 rd op) = fm := by
  apply BitVec.eq_of_getLsbD_eq
  intro i hi
  simp only [fmOf, encodeI, encodeFenceSet, BitVec.getLsbD_append, BitVec.getLsbD_extractLsb', hi]
  interval_cases i <;> simp

@[simp] theorem predOf_encodeI_fence :
    predOf (encodeI (fm ++ encodeFenceSet p ++ encodeFenceSet s) rs1 f3 rd op) = p := by
  obtain ⟨a, b, c, d⟩ := p
  simp only [predOf, encodeI, encodeFenceSet, BitVec.getLsbD_append]
  simp

@[simp] theorem succOf_encodeI_fence :
    succOf (encodeI (fm ++ encodeFenceSet p ++ encodeFenceSet s) rs1 f3 rd op) = s := by
  obtain ⟨a, b, c, d⟩ := s
  simp only [succOf, encodeI, encodeFenceSet, BitVec.getLsbD_append]
  simp

/-- The twelve upper bits of a `fence` word are `fm` and the two sets (R177). -/
theorem fence_fields (w : BitVec 32) : fmOf w ++ encodeFenceSet (predOf w) ++ encodeFenceSet (succOf w) = immIOf w := by
  apply BitVec.eq_of_getLsbD_eq
  intro i hi
  simp only [fmOf, predOf, succOf, immIOf, encodeFenceSet, BitVec.getLsbD_append, BitVec.getLsbD_extractLsb']
  interval_cases i <;> simp

end Fence

/-! ## The fields of an S-type word (R175) -/

section SType
variable (imm : BitVec 12) (rs2 rs1 : Reg) (f3 : BitVec 3) (op : BitVec 7)

@[simp] theorem opcodeOf_encodeS : opcodeOf (encodeS imm rs2 rs1 f3 op) = op := by simp [encodeS]

@[simp] theorem funct3Of_encodeS : funct3Of (encodeS imm rs2 rs1 f3 op) = f3 := by simp [encodeS]

@[simp] theorem rs1Of_encodeS : rs1Of (encodeS imm rs2 rs1 f3 op) = rs1 := by simp [encodeS]

@[simp] theorem rs2Of_encodeS : rs2Of (encodeS imm rs2 rs1 f3 op) = rs2 := by simp [encodeS]

@[simp] theorem immSOf_encodeS : immSOf (encodeS imm rs2 rs1 f3 op) = imm := by
  simp only [immSOf, encodeS, funct7Of_encodeR, rdOf_encodeR]
  apply BitVec.eq_of_getLsbD_eq
  intro i hi
  simp only [BitVec.getLsbD_append, BitVec.getLsbD_extractLsb']
  interval_cases i <;> simp

/-- A word is its five S-type fields. -/
theorem encodeS_fields (w : BitVec 32) : encodeS (immSOf w) (rs2Of w) (rs1Of w) (funct3Of w) (opcodeOf w) = w := by
  have h7 : (immSOf w).extractLsb' 5 7 = funct7Of w := by
    apply BitVec.eq_of_getLsbD_eq
    intro i hi
    simp only [immSOf, BitVec.getLsbD_append, BitVec.getLsbD_extractLsb', hi]
    interval_cases i <;> simp
  have h5 : (immSOf w).extractLsb' 0 5 = rdOf w := by
    apply BitVec.eq_of_getLsbD_eq
    intro i hi
    simp only [immSOf, BitVec.getLsbD_append, BitVec.getLsbD_extractLsb', hi]
    interval_cases i <;> simp
  rw [encodeS, h7, h5, encodeR_fields]

end SType

/-! ## Masks (R179) -/

/-- Masking a word masks its fields. -/
theorem encodeR_and (f7 g7 : BitVec 7) (rs2 q2 rs1 q1 : Reg) (f3 g3 : BitVec 3) (rd qd : Reg) (op oq : BitVec 7) :
    encodeR f7 rs2 rs1 f3 rd op &&& encodeR g7 q2 q1 g3 qd oq =
      encodeR (f7 &&& g7) (rs2 &&& q2) (rs1 &&& q1) (f3 &&& g3) (rd &&& qd) (op &&& oq) := by
  apply BitVec.eq_of_getLsbD_eq
  intro i hi
  simp only [encodeR, BitVec.getLsbD_and, BitVec.getLsbD_append]
  interval_cases i <;> simp

/-- Two words are equal when their fields are. -/
theorem encodeR_inj {f7 g7 : BitVec 7} {rs2 q2 rs1 q1 : Reg} {f3 g3 : BitVec 3} {rd qd : Reg} {op oq : BitVec 7} :
    encodeR f7 rs2 rs1 f3 rd op = encodeR g7 q2 q1 g3 qd oq ↔
      f7 = g7 ∧ rs2 = q2 ∧ rs1 = q1 ∧ f3 = g3 ∧ rd = qd ∧ op = oq := by
  constructor
  · intro h
    exact ⟨by simpa using congrArg funct7Of h, by simpa using congrArg rs2Of h, by simpa using congrArg rs1Of h,
      by simpa using congrArg funct3Of h, by simpa using congrArg rdOf h, by simpa using congrArg opcodeOf h⟩
  · rintro ⟨rfl, rfl, rfl, rfl, rfl, rfl⟩
    rfl

/-- Every row of the opcode table tests the major opcode and `funct3`. -/
theorem opcodeTable_mask : ∀ r ∈ opcodeTable, r.mask &&& 0x0000707F = 0x0000707F := by decide +kernel

/-- The major opcode and `funct3` of a word, in place. -/
theorem and_707F (w : BitVec 32) : w &&& 0x0000707F = encodeR 0 0 0 (funct3Of w) 0 (opcodeOf w) := by
  conv_lhs => rw [← encodeR_fields w, show (0x0000707F : BitVec 32) = encodeR 0 0 0 7 0 0x7F by decide, encodeR_and]
  rw [encodeR_inj]
  have h3 : ∀ x : BitVec 3, x &&& 7 = x := by decide
  have h7 : ∀ x : BitVec 7, x &&& 0x7F = x := by decide
  simp only [h3, h7, and_true, show ∀ x : BitVec 7, x &&& 0 = 0 from fun x => by simp,
    show ∀ x : Reg, x &&& 0 = 0 from fun x => by simp]

/-- The masked word of an AMO or store-conditional row. -/
theorem and_F800707F (w : BitVec 32) :
    w &&& 0xF800707F = encodeR (funct7Of w &&& 0x7C) 0 0 (funct3Of w) 0 (opcodeOf w) := by
  conv_lhs => rw [← encodeR_fields w, show (0xF800707F : BitVec 32) = encodeR 0x7C 0 0 7 0 0x7F by decide, encodeR_and]
  rw [encodeR_inj]
  have h3 : ∀ x : BitVec 3, x &&& 7 = x := by decide
  have h7 : ∀ x : BitVec 7, x &&& 0x7F = x := by decide
  simp only [h3, h7, and_true, show ∀ x : Reg, x &&& 0 = 0 from fun x => by simp]

/-- The masked word of a load-reserved row. -/
theorem and_F9F0707F (w : BitVec 32) :
    w &&& 0xF9F0707F = encodeR (funct7Of w &&& 0x7C) (rs2Of w) 0 (funct3Of w) 0 (opcodeOf w) := by
  conv_lhs => rw [← encodeR_fields w, show (0xF9F0707F : BitVec 32) = encodeR 0x7C 0x1F 0 7 0 0x7F by decide, encodeR_and]
  rw [encodeR_inj]
  have h3 : ∀ x : BitVec 3, x &&& 7 = x := by decide
  have h5 : ∀ x : Reg, x &&& 0x1F = x := by decide
  have h7 : ∀ x : BitVec 7, x &&& 0x7F = x := by decide
  simp only [h3, h5, h7, and_true, show ∀ x : Reg, x &&& 0 = 0 from fun x => by simp]

/-- The masked word of the `sfence.vma` row. -/
theorem and_FE007FFF (w : BitVec 32) :
    w &&& 0xFE007FFF = encodeR (funct7Of w) 0 0 (funct3Of w) (rdOf w) (opcodeOf w) := by
  conv_lhs => rw [← encodeR_fields w, show (0xFE007FFF : BitVec 32) = encodeR 0x7F 0 0 7 0x1F 0x7F by decide, encodeR_and]
  rw [encodeR_inj]
  have h3 : ∀ x : BitVec 3, x &&& 7 = x := by decide
  have h5 : ∀ x : Reg, x &&& 0x1F = x := by decide
  have h7 : ∀ x : BitVec 7, x &&& 0x7F = x := by decide
  simp only [h3, h5, h7, and_true, show ∀ x : Reg, x &&& 0 = 0 from fun x => by simp]

/-- The operation bits of an atomic word. -/
theorem funct7Of_encodeAtomic_and (f5 : BitVec 5) (aq rl : Bool) (rs2 rs1 : Reg) (f3 : BitVec 3) (rd : Reg) :
    funct7Of (encodeAtomic f5 aq rl rs2 rs1 f3 rd) &&& 0x7C = f5 ++ 0#2 := by
  rw [encodeAtomic, funct7Of_encodeR]
  revert f5 aq rl
  decide

/-- The rows with a given major opcode and `funct3`. -/
def rowsWith (f3 : BitVec 3) (op : BitVec 7) : List OpcodeRow :=
  opcodeTable.filter fun r => funct3Of r.value == f3 && opcodeOf r.value == op

/-- A row that accepts a word has the word's major opcode and `funct3`. -/
theorem accepts_fields {r : OpcodeRow} {w : BitVec 32} (hr : r ∈ opcodeTable) (h : r.accepts w = true) :
    funct3Of r.value = funct3Of w ∧ opcodeOf r.value = opcodeOf w := by
  have h1 : w &&& r.mask = r.value := by simpa [OpcodeRow.accepts] using h
  have h2 : r.value &&& 0x0000707F = w &&& 0x0000707F := by
    rw [← h1, BitVec.and_assoc, opcodeTable_mask r hr]
  rw [and_707F, and_707F, encodeR_inj] at h2
  exact ⟨h2.2.2.2.1, h2.2.2.2.2.2⟩

/-- The rows that accept a word are found among those with its major opcode and `funct3`. -/
theorem filter_accepts (w : BitVec 32) :
    opcodeTable.filter (fun r => r.accepts w) =
      (rowsWith (funct3Of w) (opcodeOf w)).filter (fun r => r.accepts w) := by
  rw [rowsWith, List.filter_filter]
  apply List.filter_congr
  intro r hr
  by_cases h : r.accepts w
  · obtain ⟨h3, h7⟩ := accepts_fields hr h
    simp [h, h3, h7]
  · simp [h]

end Sys2Proof
end

