-- ==== Sys2Proof/Laws/Exec.lean ====
section
/-! SUPPORT. What an instruction can do, said once: `exec_next` lists everything between the state before and the next
state, so that a frame or an invariant is a short case analysis over `Body`, `Accesses`, `Reads` and `Writes`. -/

namespace Sys2Proof.Machine

/-- The accesses of an instruction: reads, or reads and writes inside the memory it stores to. -/
def Accesses (i : Instr) (s0 s : State) : Prop :=
  Reads s0 s ∨ ∃ va n, ∃ src : BitVec (8 * n), storeTarget i s0 = some (va, n) ∧ Writes va src s0 s

/-- The accesses of an instruction that raises: reads, or those of a regular or floating-point store made in parts, of
which some may have been written (R143). -/
def TrapAccesses (i : Instr) (s0 s : State) : Prop :=
  Reads s0 s ∨ (isPlainStore i = true ∧ ∃ va n, dataAccess i s0 = some (.store, va, n) ∧
    madeInParts i s0 .store va n = true ∧ Writes va.toNat ((storedValue i s0).setWidth (8 * n)) s0 s)

/-- The states the body of an instruction that completes passes through, before the pc moves. -/
inductive Body (i : Instr) (s0 : State) : State → Prop where
  | access {s : State} : Accesses i s0 s → Body i s0 s
  | reg {s : State} (rd : Reg) (v : Word) : destOf i = some rd → Body i s0 s → Body i s0 (writeReg rd v s)
  | keepResv {s : State} : leavesReservation i = false → Body i s0 s → Body i s0 (freeResv s)
  | setResv {s : State} (o : Option Reservation) : leavesReservation i = false → (∀ r ∈ o, Reservation.legal s0.cfg r) →
      Body i s0 s → Body i s0 { s with resv := o }
  | dropStale : i = .sfenceVma 0 0 → s0.priv ≠ .user → Body i s0 { s0 with stale := [] }
  | csr (a : Nat) (v : Word) : isCsrInstr i = true → s0.priv = .machine → Body i s0 (csrWrite a v s0)

/-- How an instruction that answers a next state ended: it completed, and the pc moved; or it raised after some of its
accesses, and took the trap. -/
def Ends (i : Instr) (s t : State) : Prop :=
  (∃ u, Body i s u ∧ t = advance u) ∨
    ∃ u τ, TrapAccesses i s u ∧ Trap.legal s.cfg τ ∧ t = takeTrap τ u

theorem Accesses.core {i : Instr} {s0 s : State} (h : Accesses i s0 s) : SameCore s0 s := by
  rcases h with h | ⟨_, _, _, -, h⟩
  · exact h.core
  · exact h.core

theorem TrapAccesses.core {i : Instr} {s0 s : State} (h : TrapAccesses i s0 s) : SameCore s0 s := by
  rcases h with h | ⟨-, _, _, -, -, h⟩
  · exact h.core
  · exact h.core

/-- A raise of a data access is a legal trap. -/
theorem dataTrap.legal {c : Cfg} {kind : AccessKind} {t : Trap} (h : dataTrap c kind t) (hk : kindType kind ≠ .execute) :
    Trap.legal c t := by
  refine ⟨?_, h.2⟩
  rcases h.1 with e | e <;> rw [e]
  · intro h; cases h
  · intro h
    injection h with h
    exact hk h

/-- `raise IllegalInstruction` (R296). -/
theorem illegal_ends (i j : Instr) (s : State) {t : State} (h : illegal j s = .next t) : Ends i s t := by
  cases h
  refine .inr ⟨s, _, .inl .start, ⟨(fun e => by cases e), ?_⟩, rfl⟩
  have h1 : (encode j).toNat < 2 ^ 32 := (encode j).isLt
  have h2 : 2 ^ 32 ≤ 2 ^ xlen s.cfg := Nat.pow_le_pow_right (by decide) (by rcases xlen_eq s.cfg with e | e <;> omega)
  simp only [BitVec.toNat_setWidth]
  omega

/-- R202: what an AMO can do. -/
theorem amo_next {op : AmoOp} {n : Nat} {present : Bool} {i : Instr} {rd rs1 rs2 : Reg} {s t : State}
    (hd : destOf i = some rd) (hst : storeTarget i s = some ((readReg s rs1).toNat, n))
    (hl : leavesReservation i = false) (h : amo op n present i rd rs1 rs2 s = .next t) : Ends i s t := by
  unfold amo at h
  split at h
  · exact illegal_ends _ _ _ h
  · dsimp only at h
    rcases Res.finish_eq_next h with hb | ⟨τ, u, hb, ht⟩
    · obtain ⟨sh, s1, h1, h2⟩ := Res.bind_eq_ok hb
      cases h2
      obtain ⟨-, hal, h3⟩ := access_ok h1
      rcases h3 with ⟨-, rfl, hok⟩ | ⟨rfl, -⟩
      · exact .inl ⟨_, .keepResv hl (.reg rd _ hd (.access (.inr ⟨_, _, _, hst,
          ((Reads.start.view.read _ _).writes _ _).one (.inr (.inr ⟨op, rfl⟩))
            ((hok.congr (sameCore_afterView s)).congr (sameCore_afterRead ..))⟩))), rfl⟩
      · exfalso
        unfold alignStage at hal
        split at hal
        · cases hal
        · dsimp only at hal
          split at hal <;> cases hal
    · rcases Res.bind_eq_raise hb with h1 | ⟨_, _, _, h2⟩
      · exact .inr ⟨u, τ, .inl (access_raise_reads h1),
          (access_dataTrap h1 (readReg_lt ..)).legal (by simp [kindType]), ht⟩
      · cases h2

/-- R231: what a load-reserved can do. -/
theorem loadReserved_next {n : Nat} {present : Bool} {i : Instr} {rd rs1 : Reg} {s t : State} (hn : n = 4 ∨ n = 8)
    (hd : destOf i = some rd) (hl : leavesReservation i = false)
    (h : loadReserved n present i rd rs1 s = .next t) : Ends i s t := by
  unfold loadReserved at h
  split at h
  · exact illegal_ends _ _ _ h
  · dsimp only at h
    rcases Res.finish_eq_next h with hb | ⟨τ, u, hb, ht⟩
    · obtain ⟨sh, s1, h1, h2⟩ := Res.bind_eq_ok hb
      cases h2
      refine .inl ⟨_, .setResv _ hl ?_ (.reg rd _ hd (.access (.inl ((access_reads h1).read _ _)))), rfl⟩
      rintro r hr
      cases hr
      obtain ⟨htr, hal, -⟩ := access_ok h1
      refine ⟨hn, ?_, (translatable_iff.1 htr).2⟩
      by_contra hne
      rw [alignStage, if_neg hne] at hal
      rcases (access_ok h1).2.2 with ⟨rfl, -, -⟩ | ⟨rfl, -⟩ <;> cases hal
    · rcases Res.bind_eq_raise hb with h1 | ⟨_, _, _, h2⟩
      · exact .inr ⟨u, τ, .inl (access_raise_reads h1),
          (access_dataTrap h1 (readReg_lt ..)).legal (by simp [kindType]), ht⟩
      · cases h2

/-- R232: the checks of a store-conditional that fails. -/
theorem scFailTests_spec {va : Word} {n : Nat} {s : State} (hv : va.toNat < 2 ^ xlen s.cfg) :
    (∀ u s1, scFailTests va n s = .ok u s1 → Reads s s1) ∧
      (∀ t s1, scFailTests va n s = .raise t s1 → Reads s s1 ∧ Trap.legal s.cfg t) := by
  have hk : kindType .sc ≠ .execute := by simp [kindType]
  constructor
  · intro u s1 h
    unfold scFailTests at h
    split at h
    · obtain ⟨sh, s2, h1, h2⟩ := Res.bind_eq_ok h
      cases h2
      exact access_reads h1
    · unfold alignOnly at h
      split at h
      · cases h
      · split at h
        · cases h; exact .start
        · cases h
  · intro t s1 h
    unfold scFailTests at h
    split at h
    · rcases Res.bind_eq_raise h with h1 | ⟨_, _, _, h2⟩
      · exact ⟨access_raise_reads h1, (access_dataTrap h1 hv).legal hk⟩
      · cases h2
    · unfold alignOnly at h
      split at h
      · cases h; exact ⟨.start, ⟨(fun e => by cases e), hv⟩⟩
      · split at h
        · cases h
        · cases h
          exact ⟨.start, dataTrap.legal (kind := .sc) ⟨misalignedExc_cases .., hv⟩ hk⟩

/-- R232: what a store-conditional can do. -/
theorem storeConditional_next {n : Nat} {present : Bool} {i : Instr} {rd rs1 rs2 : Reg} {s t : State}
    (hd : destOf i = some rd) (hst : storeTarget i s = some ((readReg s rs1).toNat, n))
    (hl : leavesReservation i = false) (h : storeConditional n present i rd rs1 rs2 s = .next t) : Ends i s t := by
  have fails : ∀ s0, Reads s s0 → (scFails n rd (readReg s rs1) s0).finish = .next t → Ends i s t := by
    intro s0 hr h
    have hv : (readReg s rs1).toNat < 2 ^ xlen s0.cfg := by rw [hr.core.cfg]; exact readReg_lt ..
    rcases Res.finish_eq_next h with hb | ⟨τ, u, hb, ht⟩
    · obtain ⟨_, s1, h1, h2⟩ := Res.bind_eq_ok hb
      cases h2
      exact .inl ⟨_, .reg rd _ hd (.setResv none hl (by simp)
        (.access (.inl (hr.trans ((scFailTests_spec hv).1 _ _ h1))))), rfl⟩
    · rcases Res.bind_eq_raise hb with h1 | ⟨_, _, _, h2⟩
      · obtain ⟨h3, h4⟩ := (scFailTests_spec hv).2 _ _ h1
        exact .inr ⟨u, τ, .inl (hr.trans h3), by rw [← hr.core.cfg]; exact h4, ht⟩
      · cases h2
  unfold storeConditional at h
  split at h
  · exact illegal_ends _ _ _ h
  · dsimp only at h
    split at h
    · split at h
      · rcases Res.finish_eq_next h with hb | ⟨τ, u, hb, ht⟩
        · obtain ⟨sh, s1, h1, h2⟩ := Res.bind_eq_ok hb
          cases h2
          obtain ⟨-, hal, h3⟩ := access_ok h1
          rcases h3 with ⟨-, rfl, hok⟩ | ⟨rfl, -⟩
          · exact .inl ⟨_, .reg rd _ hd (.setResv none hl (by simp) (.access (.inr ⟨_, _, _, hst,
              (Reads.start.tickSc.view.writes _ _).one (.inr (.inl rfl)) (hok.congr (sameCore_afterView _))⟩))), rfl⟩
          · exfalso
            unfold alignStage at hal
            split at hal <;> cases hal
        · rcases Res.bind_eq_raise hb with h1 | ⟨_, _, _, h2⟩
          · exact .inr ⟨u, τ, .inl (Reads.start.tickSc.trans (access_raise_reads h1)),
              (access_dataTrap h1 (readReg_lt s rs1)).legal (by simp [kindType]), ht⟩
          · cases h2
      · exact fails _ Reads.start.tickSc h
    · exact fails _ .start h

/-- R245: what a load can do. -/
theorem load_next {n : Nat} {signed present : Bool} {i : Instr} {rd rs1 : Reg} {imm : BitVec 12} {s t : State}
    (hd : destOf i = some rd) (h : load n signed present i rd rs1 imm s = .next t) : Ends i s t := by
  unfold load at h
  split at h
  · exact illegal_ends _ _ _ h
  · rcases Res.finish_eq_next h with hb | ⟨τ, u, hb, ht⟩
    · obtain ⟨v, s1, h1, h2⟩ := Res.bind_eq_ok hb
      cases h2
      exact .inl ⟨_, .reg rd _ hd (.access (.inl ((readData_spec (effAddr_lt ..)).1 _ _ h1))), rfl⟩
    · rcases Res.bind_eq_raise hb with h1 | ⟨_, _, _, h2⟩
      · obtain ⟨h3, h4⟩ := (readData_spec (effAddr_lt ..)).2 _ _ h1
        exact .inr ⟨u, τ, .inl h3, h4.legal (by simp [kindType]), ht⟩
      · cases h2

/-- R246: what a store can do. -/
theorem store_next {n : Nat} {present : Bool} {i : Instr} {rs1 rs2 : Reg} {imm : BitVec 12} {s t : State}
    (hst : storeTarget i s = some ((effAddr s rs1 imm).toNat, n)) (hp : isPlainStore i = true)
    (hd : dataAccess i s = some (.store, effAddr s rs1 imm, n)) (hv : (storedValue i s).setWidth (8 * n) = source s rs2 n)
    (hl : leavesReservation i = false) (h : store n present i rs1 rs2 imm s = .next t) : Ends i s t := by
  unfold store at h
  split at h
  · exact illegal_ends _ _ _ h
  · have hw := writeData_spec (n := n) (v := source s rs2 n) (effAddr_lt s rs1 imm)
    rcases Res.finish_eq_next h with hb | ⟨τ, u, hb, ht⟩
    · obtain ⟨v, s1, h1, h2⟩ := Res.bind_eq_ok hb
      cases h2
      exact .inl ⟨_, .keepResv hl (.access (.inr ⟨_, _, _, hst, hw.1.1 _ _ h1⟩)), rfl⟩
    · rcases Res.bind_eq_raise hb with h1 | ⟨_, _, _, h2⟩
      · obtain ⟨h3, h4⟩ := hw.1.2 _ _ h1
        refine .inr ⟨u, τ, ?_, h4.legal (by simp [kindType]), ht⟩
        by_cases hal : alignStage s.cfg .store (effAddr s rs1 imm) n = .parts
        · exact .inr ⟨hp, _, _, hd, by simp [madeInParts, hal], hv ▸ h3⟩
        · exact .inl (hw.2 hal _ _ h1)
      · cases h2

/-- R259: what a floating-point load can do. -/
theorem floatLoad_next {n : Nat} {i : Instr} {rs1 : Reg} {imm : BitVec 12} {s t : State}
    (h : floatLoad n i rs1 imm s = .next t) : Ends i s t := by
  unfold floatLoad at h
  split at h
  · exact illegal_ends _ _ _ h
  · dsimp only at h
    have hr : LoadDoes s (if 8 * n ≤ xlen s.cfg then readData (effAddr s rs1 imm) n s
        else wideRead (effAddr s rs1 imm) n s) := by
      split
      · exact readData_spec (effAddr_lt ..)
      · exact wideRead_spec (effAddr_lt ..)
    rcases Res.finish_eq_next h with hb | ⟨τ, u, hb, ht⟩
    · obtain ⟨v, s1, h1, h2⟩ := Res.bind_eq_ok hb
      cases h2
      exact .inl ⟨_, .access (.inl (hr.1 _ _ h1)), rfl⟩
    · rcases Res.bind_eq_raise hb with h1 | ⟨_, _, _, h2⟩
      · obtain ⟨h3, h4⟩ := hr.2 _ _ h1
        exact .inr ⟨u, τ, .inl h3, h4.legal (by simp [kindType]), ht⟩
      · cases h2

/-- R259: what a floating-point store can do. -/
theorem floatStore_next {n : Nat} {i : Instr} {rs1 : Reg} {imm : BitVec 12} {s t : State}
    (hst : storeTarget i s = some ((effAddr s rs1 imm).toNat, n)) (hp : isPlainStore i = true)
    (hd : dataAccess i s = some (.store, effAddr s rs1 imm, n)) (hv : storedValue i s = Config.fpStoreValue s.draws)
    (ha : accessState i s = tick s)
    (hl : leavesReservation i = false) (h : floatStore n i rs1 imm s = .next t) : Ends i s t := by
  unfold floatStore at h
  split at h
  · exact illegal_ends _ _ _ h
  · dsimp only at h
    rw [← hv] at h
    have hlt : (effAddr s rs1 imm).toNat < 2 ^ xlen (tick s).cfg := effAddr_lt s rs1 imm
    have hw : StoreDoes (effAddr s rs1 imm).toNat ((storedValue i s).setWidth (8 * n)) (tick s)
        (if 8 * n ≤ xlen s.cfg then writeData (effAddr s rs1 imm) n ((storedValue i s).setWidth (8 * n)) (tick s)
          else wideWrite (effAddr s rs1 imm) n ((storedValue i s).setWidth (8 * n)) (tick s)) ∧
        (madeInParts i s .store (effAddr s rs1 imm) n = false → ∀ t s1,
          (if 8 * n ≤ xlen s.cfg then writeData (effAddr s rs1 imm) n ((storedValue i s).setWidth (8 * n)) (tick s)
            else wideWrite (effAddr s rs1 imm) n ((storedValue i s).setWidth (8 * n)) (tick s)) = .raise t s1 →
          Reads (tick s) s1) := by
      simp only [madeInParts, madeByOne, ha, Bool.or_eq_false_iff, Bool.not_eq_false', Bool.or_eq_true, decide_eq_true_eq,
        beq_eq_false_iff_ne]
      split
      · exact ⟨(writeData_spec hlt).1, fun hm => (writeData_spec hlt).2 hm.2⟩
      · rename_i hn
        exact ⟨(wideWrite_spec hlt).1, fun hm => (wideWrite_spec hlt).2 (hm.1.resolve_left hn) hm.2⟩
    have ht0 := (Reads.start (s0 := s)).tick
    rcases Res.finish_eq_next h with hb | ⟨τ, u, hb, ht⟩
    · obtain ⟨v, s1, h1, h2⟩ := Res.bind_eq_ok hb
      cases h2
      exact .inl ⟨_, .keepResv hl (.access (.inr ⟨_, _, _, hst, ht0.writes_trans (hw.1.1 _ _ h1)⟩)), rfl⟩
    · rcases Res.bind_eq_raise hb with h1 | ⟨_, _, _, h2⟩
      · obtain ⟨h3, h4⟩ := hw.1.2 _ _ h1
        refine .inr ⟨u, τ, ?_, dataTrap.legal (c := s.cfg) h4 (by simp [kindType]), ht⟩
        cases hm : madeInParts i s .store (effAddr s rs1 imm) n
        · exact .inl (ht0.trans (hw.2 hm _ _ h1))
        · exact .inr ⟨hp, _, _, hd, hm, ht0.writes_trans h3⟩
      · cases h2

/-- R281: what a CSR instruction can do. -/
theorem csrInstr_next {op : CsrOp} {i : Instr} {rd : Reg} {csr : BitVec 12} {src : Word} {z : Bool} {s t : State}
    (hd : destOf i = some rd) (hc : isCsrInstr i = true) (h : csrInstr op i rd csr src z s = .next t) : Ends i s t := by
  unfold csrInstr at h
  dsimp only at h
  split at h
  · cases h
  · split at h
    · exact illegal_ends _ _ _ h
    · rename_i hm
      split at h
      · exact illegal_ends _ _ _ h
      · have hb : ∀ u, Body i s u → ∀ b : Bool, ∀ v,
            (complete (if b then writeReg rd v u else u)).finish = .next t → Ends i s t := by
          intro u hu b v h
          cases b
          · cases h; exact .inl ⟨u, hu, rfl⟩
          · cases h; exact .inl ⟨_, .reg rd v hd hu, rfl⟩
        have hp : s.priv = .machine := by simpa using hm
        refine hb _ ?_ _ _ h
        split
        · exact .csr _ _ hc hp
        · exact .access (.inl .start)

/-- EVERYTHING AN INSTRUCTION CAN DO that answers a next state. -/
theorem exec_next {i : Instr} {s t : State} (h : exec i s = .next t) : Ends i s t := by
  cases i with
  | fence fm pred succ rd rs1 => cases h; exact .inl ⟨s, .access (.inl .start), rfl⟩
  | sfenceVma rs1 rs2 =>
    have h : execSfenceVma rs1 rs2 s = .next t := h
    unfold execSfenceVma at h
    split at h
    · exact illegal_ends _ _ _ h
    · split at h
      · rename_i hu hz
        cases h
        obtain ⟨rfl, rfl⟩ := hz
        exact .inl ⟨_, .dropStale rfl hu, rfl⟩
      · cases h; exact .inl ⟨s, .access (.inl .start), rfl⟩
  | lrW | lrD => simp only [exec, execLrW, execLrD] at h; exact loadReserved_next (by decide) rfl rfl h
  | scW | scD => simp only [exec, execScW, execScD] at h; exact storeConditional_next rfl rfl rfl h
  | lb | lh | lw | ld | lbu | lhu | lwu =>
    simp only [exec, execLb, execLh, execLw, execLd, execLbu, execLhu, execLwu] at h; exact load_next rfl h
  | sb | sh | sw | sd => simp only [exec, execSb, execSh, execSw, execSd] at h; exact store_next rfl rfl rfl (by simp [storedValue, source, BitVec.setWidth_setWidth_of_le]) rfl h
  | flw | fld | flq => simp only [exec, execFlw, execFld, execFlq] at h; exact floatLoad_next h
  | fsw | fsd | fsq =>
    simp only [exec, execFsw, execFsd, execFsq] at h; exact floatStore_next rfl rfl rfl rfl rfl rfl h
  | csrrw | csrrs | csrrc | csrrwi | csrrsi | csrrci =>
    simp only [exec, execCsrrw, execCsrrs, execCsrrc, execCsrrwi, execCsrrsi, execCsrrci] at h
    exact csrInstr_next rfl rfl h
  | _ =>
    simp only [exec, execAmoswapW, execAmoswapD, execAmoaddW, execAmoaddD, execAmoxorW, execAmoxorD, execAmoandW, execAmoandD, execAmoorW, execAmoorD, execAmominW, execAmominD, execAmomaxW, execAmomaxD, execAmominuW, execAmominuD, execAmomaxuW, execAmomaxuD] at h
    exact amo_next rfl rfl rfl h

end Sys2Proof.Machine
end

