-- ==== Sys2Proof/Laws/Parts.lean ====
section
/-! SUPPORT. Accesses that succeed whichever way they are made (R101, R143, R262): every plan holds every byte of its
access, and an access whole, in parts or wide returns what one read would have, or leaves what one write would have. -/

namespace Sys2Proof.Machine

/-! ## Plans -/

/-- Some part of the list holds byte `k` of the access. -/
def Covers (ps : List (Nat × Nat)) (k : Nat) : Prop := ∃ p ∈ ps, p.1 ≤ k ∧ k < p.1 + p.2

theorem covers_cons {p : Nat × Nat} {ps : List (Nat × Nat)} {k : Nat} :
    Covers (p :: ps) k ↔ (p.1 ≤ k ∧ k < p.1 + p.2) ∨ Covers ps k := by
  simp [Covers]

/-- The parts of a partition hold every byte of the access. -/
theorem partsFrom_covers {fits : Nat → Nat → Bool} (h1 : ∀ a, fits a 1 = true) {fuel : Nat} {choices : List Nat}
    {pa off n k : Nat} (hf : n ≤ off + fuel) (hk : off ≤ k) (hn : k < n) :
    Covers (partsFrom fuel choices fits pa off n) k := by
  induction fuel generalizing choices off with
  | zero => omega
  | succ fuel ih =>
    unfold partsFrom
    rw [if_neg (by omega)]
    dsimp only
    have hp := pickSize_cases (choices.headD 0) (h1 (pa + off)) (show 0 < n - off by omega)
    have hpos : 0 < pickSize (fits (pa + off)) (choices.headD 0) (n - off) := by
      have h0 := hp.1
      simp only [List.mem_cons, List.not_mem_nil, or_false] at h0
      omega
    rw [covers_cons]
    by_cases h : k < off + pickSize (fits (pa + off)) (choices.headD 0) (n - off)
    · exact .inl ⟨hk, h⟩
    · exact .inr (ih (by omega) (by omega))

/-- The parts of a plan hold every byte of the access. -/
theorem splitPlan_covers {fits : Nat → Nat → Bool} (h1 : ∀ a, fits a 1 = true) (choices : List Nat) (pa n : Nat) {k : Nat}
    (hk : k < n) : Covers (splitPlan fits choices pa n) k := by
  obtain ⟨p, hp, h⟩ :=
    partsFrom_covers h1 (choices := choices) (pa := pa) (fuel := n) (off := 0) (by omega) (Nat.zero_le k) hk
  exact ⟨p, (splitPlan_perm ..).mem_iff.2 hp, h⟩

theorem partAddr_eq {c : Cfg} {va : Word} {n off : Nat} (h : va.toNat + n ≤ 2 ^ xlen c) (ho : off < n) :
    partAddr c va off = va + BitVec.ofNat 64 off := by
  have h1 := partAddr_toNat h ho
  have hx : 2 ^ xlen c ≤ 2 ^ 64 := Nat.pow_le_pow_right (by decide) (by rcases xlen_eq c with e | e <;> omega)
  apply BitVec.eq_of_toNat_eq
  rw [h1, BitVec.toNat_add, BitVec.toNat_ofNat, Nat.mod_eq_of_lt (a := off) (by omega), Nat.mod_eq_of_lt (by omega)]

/-! ## What success depends on -/

theorem SameCore.checked {s t : State} (h : SameCore s t) (kind : AccessKind) (va : Word) (n : Nat) :
    checked t kind va n = checked s kind va n := by
  simp only [Sys2Proof.Machine.checked, h.cfg, h.pmpViews, h.effPriv]

theorem SameCore.denied {s t : State} (h : SameCore s t) (kind : AccessKind) (va : Word) (n : Nat) :
    denied t kind va n = denied s kind va n := by
  simp only [Sys2Proof.Machine.denied, h.cfg, h.pmpViews, h.effPriv]

theorem SameCore.oneSucceeds {s t : State} (h : SameCore s t) {kind : AccessKind} {va : Word} {n : Nat}
    (k : oneSucceeds s kind va n) : oneSucceeds t kind va n := by
  simpa only [Sys2Proof.Machine.oneSucceeds, splitGranted, partsGranted, h.granted, h.cfg, h.checked] using k

/-- An access that is to be made in parts, its whole-width checks passed, is made in parts. -/
theorem access_split {s : State} {kind : AccessKind} {va : Word} {n : Nat} (hk : kind = .load ∨ kind = .store)
    (h : splitGranted s kind va n) : alignStage s.cfg kind va n = .parts ∧
      ∃ u, access kind va n s = .ok .parts u ∧ Reads s u := by
  obtain ⟨h1, h2, h3, h4, h5, -⟩ := h
  have ha : alignStage s.cfg kind va n = .parts := by
    unfold alignStage
    rw [if_neg h2]
    have : (decide (8 * n ≤ xlen s.cfg) && inOneGranule s.cfg va.toNat n) = false := by
      by_cases h8 : 8 * n ≤ xlen s.cfg
      · simp [h3 h8]
      · simp [h8]
    rcases hk with rfl | rfl <;> simp [this, h1]
  refine ⟨ha, ?_⟩
  unfold access
  simp only [h4, Bool.not_true, Bool.false_eq_true, if_false, ha]
  split
  · exact ⟨_, rfl, .start⟩
  · rename_i hf
    rw [checkPart_checked (h5 (by simpa using hf))]
    exact ⟨_, rfl, Reads.start.view⟩

theorem oneSucceeds_whole {s : State} {kind : AccessKind} {va : Word} {n : Nat} (hk : kind = .load ∨ kind = .store)
    (h : oneSucceeds s kind va n) : translatable s.cfg va n = true ∧ stopsAlignment s.cfg kind va n = false := by
  rcases h with h | h
  · obtain ⟨h1, h2, -⟩ := granted_iff.1 h
    exact ⟨h1, stopsAlignment_eq_false.2 (.inl h2)⟩
  · exact ⟨h.2.2.2.1, stopsAlignment_eq_false.2 (.inr (access_split hk h).1)⟩

/-! ## Loads -/

/-- A load has completed with the value one read would have returned, and only read. -/
def LoadsAll (va n : Nat) (s : State) (r : Res (BitVec (8 * n))) : Prop :=
  ∃ v u, r = .ok v u ∧ Reads s u ∧
    ((∀ k, k < n → readIsFree s.cfg (va + k) = false) → v = Memory.read s.mem va n)

theorem LoadsAll.from {va n : Nat} {s s0 : State} {r : Res (BitVec (8 * n))} (h : LoadsAll va n s0 r) (hr : Reads s s0) :
    LoadsAll va n s r := by
  obtain ⟨v, u, e, h1, h2⟩ := h
  exact ⟨v, u, e, hr.trans h1, fun hf => by rw [← hr.mem]; exact h2 (by rw [hr.core.cfg]; exact hf)⟩

/-- The bits of a part of a value read are the bits of the value. -/
theorem read_part_bit {m : Memory} {va n off k j : Nat} (hlen : off + k ≤ n) (hj : j < 8 * n) :
    ((Memory.read m (va + off) k).setWidth (8 * n) <<< (8 * off)).getLsbD j = true ↔
      (off ≤ j / 8 ∧ j / 8 < off + k) ∧ (Memory.read m va n).getLsbD j = true := by
  rw [BitVec.getLsbD_shiftLeft, BitVec.getLsbD_setWidth, Memory.read_getLsbD _ _ _ _ hj]
  by_cases h1 : j < 8 * off
  · simp [h1]; omega
  · by_cases h2 : j - 8 * off < 8 * k
    · rw [Memory.read_getLsbD _ _ _ _ h2, show va + off + (j - 8 * off) / 8 = va + j / 8 by omega,
        show (j - 8 * off) % 8 = j % 8 by omega]
      simp [hj, h1, show off ≤ j / 8 by omega, show j / 8 < off + k by omega]; omega
    · rw [BitVec.getLsbD_of_ge _ _ (by omega)]
      simp; omega

/-- The parts of a load that each succeed are all made: away from free values, the bits of the parts are memory's. -/
theorem loadParts_bits {one : Word → (m : Nat) → State → Res (BitVec (8 * m))} {va : Word} {n : Nat}
    (ps : List (Nat × Nat)) (acc : BitVec (8 * n)) (s : State) (hva : va.toNat + n ≤ 2 ^ xlen s.cfg)
    (hps : ∀ p ∈ ps, p.1 + p.2 ≤ n ∧ 0 < p.2)
    (hone : ∀ p ∈ ps, ∀ s', SameCore s s' → LoadsAll (va.toNat + p.1) p.2 s' (one (va + BitVec.ofNat 64 p.1) p.2 s')) :
    ∃ v u, loadParts one va n ps acc s = .ok v u ∧ Reads s u ∧
      ((∀ k, k < n → readIsFree s.cfg (va.toNat + k) = false) → ∀ j, j < 8 * n →
        (v.getLsbD j = true ↔
          acc.getLsbD j = true ∨ (Covers ps (j / 8) ∧ (Memory.read s.mem va.toNat n).getLsbD j = true))) := by
  induction ps generalizing s acc with
  | nil => exact ⟨acc, s, rfl, .start, by simp [Covers]⟩
  | cons p ps ih =>
    obtain ⟨off, m⟩ := p
    obtain ⟨hlen, hpos⟩ := hps (off, m) (by simp)
    obtain ⟨w, s1, h0, hr, hw⟩ := hone (off, m) (by simp) s (.refl s)
    dsimp only at hlen hpos h0 hw
    obtain ⟨v, u, h1, h2, h3⟩ := ih (acc ||| (w.setWidth (8 * n) <<< (8 * off))) s1 (by rw [hr.core.cfg]; exact hva)
      (fun q hq => hps q (by simp [hq])) (fun q hq s' hc => hone q (by simp [hq]) s' (hr.core.trans hc))
    refine ⟨v, u, ?_, hr.trans h2, fun hf j hj => ?_⟩
    · unfold loadParts
      rw [partAddr_eq hva (by omega), h0]
      exact h1
    · rw [h3 (by rw [hr.core.cfg]; exact hf) j hj, hr.mem, BitVec.getLsbD_or, covers_cons, Bool.or_eq_true,
        hw (fun k hk => by rw [Nat.add_assoc]; exact hf _ (by omega)), read_part_bit hlen hj]
      tauto

/-- A load whose plan of parts succeeds part by part. -/
theorem loadParts_done {one : Word → (m : Nat) → State → Res (BitVec (8 * m))} {fits : Nat → Nat → Bool}
    (h1 : ∀ a, fits a 1 = true) {va : Word} {n : Nat} {s : State} (choices : List Nat) (hva : va.toNat + n ≤ 2 ^ xlen s.cfg)
    (hone : ∀ off m, m ∈ [1, 2, 4, 8] → off + m ≤ n → fits (va.toNat + off) m = true → ∀ s', SameCore s s' →
      LoadsAll (va.toNat + off) m s' (one (va + BitVec.ofNat 64 off) m s')) :
    LoadsAll va.toNat n s (loadParts one va n (splitPlan fits choices va.toNat n) 0 s) := by
  obtain ⟨v, u, e, hr, hv⟩ := loadParts_bits (one := one) (splitPlan fits choices va.toNat n) 0 s hva
    (fun p hp => (splitPlan_mem h1 hp).2.2)
    (fun p hp s' hc => hone _ _ (splitPlan_mem h1 hp).1 (splitPlan_mem h1 hp).2.2.1 (splitPlan_mem h1 hp).2.1 s' hc)
  refine ⟨v, u, e, hr, fun hf => BitVec.eq_of_getLsbD_eq fun j hj => ?_⟩
  rw [Bool.eq_iff_iff, hv hf j hj]
  simp [splitPlan_covers h1 choices va.toNat n (show j / 8 < n by omega)]

/-- The value read whole, of a granted access. -/
theorem loadsAll_whole {va : Word} {n : Nat} {s : State} (h0 : 0 < n) :
    LoadsAll va.toNat n s
      (.ok (readValue (afterView s) va.toNat n) (afterRead va.toNat n (afterView s))) := by
  refine ⟨_, _, rfl, Reads.start.view.read _ _, fun hf => ?_⟩
  unfold readValue
  rw [if_neg (by simpa using hf 0 h0), afterView_mem]

theorem readWhole_done {va : Word} {n : Nat} {s : State} (h0 : 0 < n) (h : granted s .load va n = true) :
    LoadsAll va.toNat n s (readWhole va n s) := by
  unfold readWhole
  rw [access_granted h]
  exact loadsAll_whole h0

/-- R99, R101, R245: a load whose `Access` succeeds, whole or in naturally aligned parts. -/
theorem readData_done {va : Word} {n : Nat} {s : State} (h0 : 0 < n) (h : oneSucceeds s .load va n) :
    LoadsAll va.toNat n s (readData va n s) := by
  unfold readData
  rcases h with h | h
  · rw [access_granted h]
    exact loadsAll_whole h0
  · obtain ⟨-, u, e, hr⟩ := access_split (.inl rfl) h
    have hc := hr.tick.core
    rw [e]
    refine LoadsAll.from (loadParts_done naturalPart_one _ ?_ ?_) hr.tick
    · rw [hc.cfg]; exact (translatable_iff.1 h.2.2.2.1).1
    · intro off m hm hlen hfit s' hc'
      have hg := h.2.2.2.2.2 off m hm hlen (by simpa [naturalPart] using hfit)
      have ha : (va + BitVec.ofNat 64 off).toNat = va.toNat + off := by
        have hx := (translatable_iff.1 h.2.2.2.1).1
        have hpos : 0 < m := by simp at hm; omega
        rw [← partAddr_eq hx (show off < n by omega), partAddr_toNat hx (by omega)]
      rw [← ha]
      exact readWhole_done (by simp at hm; omega) (by rw [(hc.trans hc').granted]; exact hg)

/-- R262: a load wider than XLEN bits that succeeds whichever way it is made. -/
theorem wideRead_done {va : Word} {n : Nat} {s : State} (h0 : 0 < n) (hn : xlen s.cfg < 8 * n)
    (h : accessSucceeds s .load va n) : LoadsAll va.toNat n s (wideRead va n s) := by
  have hx := (translatable_iff.1 (oneSucceeds_whole (.inl rfl) h.1).1).1
  unfold wideRead
  split
  · exact (readData_done h0 ((sameCore_tick s).oneSucceeds h.1)).from Reads.start.tick
  · refine LoadsAll.from (loadParts_done (widePart_one _ _) _ hx ?_) Reads.start.tick.tick
    intro off m hm hlen hfit s' hc
    have hpos : 0 < m := by simp at hm; omega
    have ha : (va + BitVec.ofNat 64 off).toNat = va.toNat + off := by
      rw [← partAddr_eq hx (show off < n by omega), partAddr_toNat hx (by omega)]
    rw [← ha]
    exact readData_done hpos (((sameCore_tick s).trans ((sameCore_tick _).trans hc)).oneSucceeds (h.2 hn off m hm hlen hfit))

/-! ## Stores -/

/-- A store of `v` has completed, and left what one write would have. -/
def StoresAll {n : Nat} (pa : Nat) (v : BitVec (8 * n)) (s : State) (r : Res Unit) : Prop :=
  ∃ u, r = .ok () u ∧ SameCore s u ∧ Memory.wf u.mem ∧ eventsExtend s u ∧ storesBytes s u pa n v

theorem Memory.get_of_read {m : Memory} {pa n : Nat} {v : BitVec (8 * n)} (h : Memory.read m pa n = v) {k : Nat}
    (hk : k < n) : Memory.get m (pa + k) = v.extractLsb' (8 * k) 8 := by
  apply BitVec.eq_of_getLsbD_eq
  intro j hj
  rw [← h, BitVec.getLsbD_extractLsb', Memory.read_getLsbD _ _ _ _ (by omega)]
  simp [hj, show (8 * k + j) / 8 = k by omega, show (8 * k + j) % 8 = j by omega]

theorem Memory.read_of_get {m : Memory} {pa n : Nat} {v : BitVec (8 * n)}
    (h : ∀ k, k < n → Memory.get m (pa + k) = v.extractLsb' (8 * k) 8) : Memory.read m pa n = v := by
  apply BitVec.eq_of_getLsbD_eq
  intro j hj
  rw [Memory.read_getLsbD _ _ _ _ hj, h (j / 8) (by omega), BitVec.getLsbD_extractLsb']
  simp [show j % 8 < 8 by omega, show 8 * (j / 8) + j % 8 = j by omega]

theorem StoresAll.from {n pa : Nat} {v : BitVec (8 * n)} {s s0 : State} {r : Res Unit} (h : StoresAll pa v s0 r)
    (hr : Reads s s0) : StoresAll pa v s r := by
  obtain ⟨u, e, hc, hm, ⟨l2, hl2⟩, h1, h2, h3⟩ := h
  obtain ⟨l1, hl1⟩ := (hr.writes (size := 0) 0 0).events
  exact ⟨u, e, hr.core.trans hc, hm, ⟨l1 ++ l2, by rw [hl2, hl1, List.append_assoc]⟩, h1,
    fun a ha => by rw [h2 a ha, hr.mem], fun a => by rw [h3, hr.stored]⟩

/-- The parts of a store that each succeed are all made: a byte some part holds is the byte of the value stored. -/
theorem storeParts_bytes {one : Word → (m : Nat) → BitVec (8 * m) → State → Res Unit} {va : Word} {n : Nat}
    {v : BitVec (8 * n)} (ps : List (Nat × Nat)) (s : State) (hva : va.toNat + n ≤ 2 ^ xlen s.cfg) (hm : Memory.wf s.mem)
    (hps : ∀ p ∈ ps, p.1 + p.2 ≤ n ∧ 0 < p.2)
    (hone : ∀ p ∈ ps, ∀ s' w, SameCore s s' → Memory.wf s'.mem →
      StoresAll (va.toNat + p.1) w s' (one (va + BitVec.ofNat 64 p.1) p.2 w s')) :
    ∃ u, storeParts one va n v ps s = .ok () u ∧ SameCore s u ∧ Memory.wf u.mem ∧ eventsExtend s u ∧
      (∀ k, k < n → (Covers ps k → Memory.get u.mem (va.toNat + k) = v.extractLsb' (8 * k) 8) ∧
        (¬Covers ps k → Memory.get u.mem (va.toNat + k) = Memory.get s.mem (va.toNat + k))) ∧
      sameMemOutside s u va.toNat n ∧
      (∀ a, a ∈ u.stored ↔ a ∈ s.stored ∨ ∃ k, a = va.toNat + k ∧ Covers ps k) := by
  induction ps generalizing s with
  | nil => exact ⟨s, rfl, .refl s, hm, ⟨[], by simp⟩, by simp [Covers], fun _ _ => rfl, by simp [Covers]⟩
  | cons p ps ih =>
    obtain ⟨off, m⟩ := p
    obtain ⟨hlen, hpos⟩ := hps (off, m) (by simp)
    obtain ⟨s1, h0, hc, hm1, ⟨l1, hl1⟩, hb, ho, hs⟩ :=
      hone (off, m) (by simp) s (v.extractLsb' (8 * off) (8 * m)) (.refl s) hm
    dsimp only at hlen hpos h0 hb ho hs
    obtain ⟨u, h1, h2, h3, ⟨l2, hl2⟩, h5, h6, h7⟩ := ih s1 (by rw [hc.cfg]; exact hva) hm1
      (fun q hq => hps q (by simp [hq])) (fun q hq s' w hc' hm' => hone q (by simp [hq]) s' w (hc.trans hc') hm')
    refine ⟨u, ?_, hc.trans h2, h3, ⟨l1 ++ l2, by rw [hl2, hl1, List.append_assoc]⟩, ?_, ?_, ?_⟩
    · unfold storeParts
      rw [partAddr_eq hva (by omega), h0]
      exact h1
    · intro k hk
      by_cases hck : Covers ps k
      · exact ⟨fun _ => (h5 k hk).1 hck, fun h => absurd (covers_cons.2 (.inr hck)) h⟩
      · rw [(h5 k hk).2 hck]
        constructor
        · intro hcov
          have hin : off ≤ k ∧ k < off + m := (covers_cons.1 hcov).resolve_right hck
          rw [show va.toNat + k = va.toNat + off + (k - off) by omega, Memory.get_of_read hb (by omega),
            extract_extract (by omega), show 8 * off + 8 * (k - off) = 8 * k by omega]
        · intro hcov
          refine ho _ ?_
          by_contra h
          exact hcov (covers_cons.2 (.inl (by dsimp only; omega)))
    · intro a ha
      rw [h6 a ha, ho a (by omega)]
    · intro a
      rw [h7, hs]
      constructor
      · rintro ((h | h) | ⟨k, e, h⟩)
        · exact .inl h
        · exact .inr ⟨a - va.toNat, by omega, covers_cons.2 (.inl (by dsimp only; omega))⟩
        · exact .inr ⟨k, e, covers_cons.2 (.inr h)⟩
      · rintro (h | ⟨k, e, h⟩)
        · exact .inl (.inl h)
        · rcases covers_cons.1 h with h | h
          · exact .inl (.inr (by dsimp only at h; omega))
          · exact .inr ⟨k, e, h⟩

/-- A store whose plan of parts succeeds part by part. -/
theorem storeParts_done {one : Word → (m : Nat) → BitVec (8 * m) → State → Res Unit} {fits : Nat → Nat → Bool}
    (h1 : ∀ a, fits a 1 = true) {va : Word} {n : Nat} {v : BitVec (8 * n)} {s : State} (choices : List Nat)
    (hva : va.toNat + n ≤ 2 ^ xlen s.cfg) (hm : Memory.wf s.mem)
    (hone : ∀ off m, m ∈ [1, 2, 4, 8] → off + m ≤ n → fits (va.toNat + off) m = true → ∀ s' w, SameCore s s' →
      Memory.wf s'.mem → StoresAll (va.toNat + off) w s' (one (va + BitVec.ofNat 64 off) m w s')) :
    StoresAll va.toNat v s (storeParts one va n v (splitPlan fits choices va.toNat n) s) := by
  obtain ⟨u, e, hc, hw, he, hb, ho, hs⟩ := storeParts_bytes (one := one) (v := v) (splitPlan fits choices va.toNat n) s
    hva hm (fun p hp => (splitPlan_mem h1 hp).2.2)
    (fun p hp s' w hc => hone _ _ (splitPlan_mem h1 hp).1 (splitPlan_mem h1 hp).2.2.1 (splitPlan_mem h1 hp).2.1 s' w hc)
  refine ⟨u, e, hc, hw, he, Memory.read_of_get fun k hk => (hb k hk).1 (splitPlan_covers h1 choices _ _ hk), ho, fun a => ?_⟩
  rw [hs]
  constructor
  · rintro (h | ⟨k, rfl, p, hp, hk⟩)
    · exact .inl h
    · have := (splitPlan_mem h1 hp).2.2.1
      exact .inr (by omega)
  · rintro (h | h)
    · exact .inl h
    · exact .inr ⟨a - va.toNat, by omega, splitPlan_covers h1 choices _ _ (by omega)⟩

/-- The value written whole. -/
theorem storesAll_whole {va : Word} {n : Nat} {v : BitVec (8 * n)} {s : State} (hm : Memory.wf s.mem) :
    StoresAll va.toNat v s (.ok () (memWrite va.toNat n v (afterView s))) := by
  refine ⟨_, rfl, (sameCore_afterView s).trans (sameCore_memWrite ..), ?_, ⟨_, by rw [memWrite_events, afterView_events]⟩,
    ?_, fun a ha => ?_, fun a => ?_⟩
  · rw [memWrite_mem]; exact Memory.wf_write (by simpa using hm) _ _ _
  · rw [memWrite_mem]; exact Memory.read_write_self (by simpa using hm) _ _ _
  · rw [memWrite_mem, Memory.get_write_out _ _ ha, afterView_mem]
  · rw [memWrite_stored, mem_insertAddrs, afterView_stored]

theorem writeWhole_done {va : Word} {n : Nat} {v : BitVec (8 * n)} {s : State} (hm : Memory.wf s.mem)
    (h : granted s .store va n = true) : StoresAll va.toNat v s (writeWhole va n v s) := by
  unfold writeWhole
  rw [access_granted h]
  exact storesAll_whole hm

/-- R99, R101, R143, R246: a store whose `Access` succeeds, whole or in naturally aligned parts. -/
theorem writeData_done {va : Word} {n : Nat} {v : BitVec (8 * n)} {s : State} (hm : Memory.wf s.mem)
    (h : oneSucceeds s .store va n) : StoresAll va.toNat v s (writeData va n v s) := by
  unfold writeData
  rcases h with h | h
  · rw [access_granted h]
    exact storesAll_whole hm
  · obtain ⟨-, u, e, hr⟩ := access_split (.inr rfl) h
    have hx := (translatable_iff.1 h.2.2.2.1).1
    have hc := hr.tick.core
    rw [e]
    refine StoresAll.from (storeParts_done naturalPart_one _ (by rw [hc.cfg]; exact hx) (by rw [hr.tick.mem]; exact hm) ?_)
      hr.tick
    intro off m hmem hlen hfit s' w hc' hm'
    have hg := h.2.2.2.2.2 off m hmem hlen (by simpa [naturalPart] using hfit)
    have hpos : 0 < m := by simp at hmem; omega
    have ha : (va + BitVec.ofNat 64 off).toNat = va.toNat + off := by
      rw [← partAddr_eq hx (show off < n by omega), partAddr_toNat hx (by omega)]
    rw [← ha]
    exact writeWhole_done hm' (by rw [(hc.trans hc').granted]; exact hg)

/-- R262: a store wider than XLEN bits that succeeds whichever way it is made. -/
theorem wideWrite_done {va : Word} {n : Nat} {v : BitVec (8 * n)} {s : State} (hm : Memory.wf s.mem)
    (hn : xlen s.cfg < 8 * n) (h : accessSucceeds s .store va n) : StoresAll va.toNat v s (wideWrite va n v s) := by
  have hx := (translatable_iff.1 (oneSucceeds_whole (.inr rfl) h.1).1).1
  unfold wideWrite
  split
  · exact (writeData_done (s := tick s) hm ((sameCore_tick s).oneSucceeds h.1)).from Reads.start.tick
  · refine StoresAll.from (storeParts_done (s := tick (tick s)) (widePart_one _ _) _ hx hm ?_) Reads.start.tick.tick
    intro off m hmem hlen hfit s' w hc hm'
    have hpos : 0 < m := by simp at hmem; omega
    have ha : (va + BitVec.ofNat 64 off).toNat = va.toNat + off := by
      rw [← partAddr_eq hx (show off < n by omega), partAddr_toNat hx (by omega)]
    rw [← ha]
    exact writeData_done hm' (((sameCore_tick s).trans ((sameCore_tick _).trans hc)).oneSucceeds
      (h.2 hn off m hmem hlen hfit))

end Sys2Proof.Machine
end

