-- ==== Sys2Proof/Laws/PerInstr.lean ====
section
/-! SUPPORT. The per-instruction family `OwnRow`: the word of an instruction is accepted by its own row of the opcode
table and by no other (30_encoding.md R179). One lemma per constructor. -/

namespace Sys2Proof.Laws.OwnRow

open Sys2Proof

/-- Exactly one row of the opcode table accepts the word of the instruction, the row of its mnemonic (R179). -/
def Statement (i : Instr) : Prop :=
  (opcodeTable.filter fun r => r.accepts (encode i)).map OpcodeRow.mnemonic = [i.mnemonic]

/-- An I-type or S-type word whose opcode and `funct3` belong to one row. -/
theorem of_rows {w : BitVec 32} {m : String} {f3 : BitVec 3} {op : BitVec 7} (h3 : funct3Of w = f3)
    (h7 : opcodeOf w = op) (hrows : rowsWith f3 op = [⟨m, encodeR 0 0 0 f3 0 op, 0x0000707F⟩]) :
    (opcodeTable.filter fun r => r.accepts w).map OpcodeRow.mnemonic = [m] := by
  have hacc : (⟨m, encodeR 0 0 0 f3 0 op, 0x0000707F⟩ : OpcodeRow).accepts w = true := by
    simp only [OpcodeRow.accepts, and_707F, h3, h7, beq_self_eq_true]
  rw [filter_accepts, h3, h7, hrows, List.filter, hacc]
  rfl

/-- An atomic word: the row is found by `funct5` and, for the load-reserved row, by `rs2`. -/
theorem of_atomic {f5 : BitVec 5} {aq rl : Bool} {rs2 rs1 : Reg} {f3 : BitVec 3} {rd : Reg} {m : String}
    (hf3 : f3 = 2 ∨ f3 = 3) (hlr : f5 = 0b00010#5 → rs2 = 0)
    (hrows : (rowsWith f3 0b0101111#7).filter (fun r => decide (r.value = encodeR (f5 ++ 0#2) 0 0 f3 0 0b0101111#7)) =
      (rowsWith f3 0b0101111#7).filter (fun r => r.mnemonic == m) ∧
      ((rowsWith f3 0b0101111#7).filter (fun r => r.mnemonic == m)).map OpcodeRow.mnemonic = [m]) :
    (opcodeTable.filter fun r => r.accepts (encodeAtomic f5 aq rl rs2 rs1 f3 rd)).map OpcodeRow.mnemonic = [m] := by
  rw [filter_accepts, funct3Of_encodeAtomic, opcodeOf_encodeAtomic, ← hrows.2, ← hrows.1]
  congr 1
  have hmask : ∀ r ∈ rowsWith f3 0b0101111#7, r.mask = 0xF800707F ∨
      (r.mask = 0xF9F0707F ∧ r.value = encodeR (0b00010#5 ++ 0#2) 0 0 f3 0 0b0101111#7) := by
    rcases hf3 with rfl | rfl <;> decide +kernel
  apply List.filter_congr
  intro r hr
  rw [OpcodeRow.accepts]
  rcases hmask r hr with h | ⟨h, hv⟩
  · rw [h, and_F800707F, funct7Of_encodeAtomic_and, funct3Of_encodeAtomic, opcodeOf_encodeAtomic]
    rw [Bool.eq_iff_iff, beq_iff_eq, decide_eq_true_iff]
    exact eq_comm
  · rw [h, and_F9F0707F, funct7Of_encodeAtomic_and, funct3Of_encodeAtomic, opcodeOf_encodeAtomic, rs2Of_encodeAtomic, hv]
    rw [Bool.eq_iff_iff, beq_iff_eq, decide_eq_true_iff, encodeR_inj, encodeR_inj]
    have hinj : ∀ x y : BitVec 5, x ++ 0#2 = y ++ 0#2 → x = y := by decide +kernel
    constructor
    · rintro ⟨h5, -⟩
      exact ⟨h5.symm, rfl, rfl, rfl, rfl, rfl⟩
    · rintro ⟨h5, -⟩
      exact ⟨h5.symm, hlr (hinj _ _ h5).symm, rfl, rfl, rfl, rfl⟩

theorem amoswapW (aq rl : Bool) (rd rs1 rs2 : Reg) : Statement (.amoswapW aq rl rd rs1 rs2) :=
  of_atomic (m := "amoswap.w") (by decide) (fun h => absurd h (by decide)) (by decide)

theorem amoswapD (aq rl : Bool) (rd rs1 rs2 : Reg) : Statement (.amoswapD aq rl rd rs1 rs2) :=
  of_atomic (m := "amoswap.d") (by decide) (fun h => absurd h (by decide)) (by decide)

theorem amoaddW (aq rl : Bool) (rd rs1 rs2 : Reg) : Statement (.amoaddW aq rl rd rs1 rs2) :=
  of_atomic (m := "amoadd.w") (by decide) (fun h => absurd h (by decide)) (by decide)

theorem amoaddD (aq rl : Bool) (rd rs1 rs2 : Reg) : Statement (.amoaddD aq rl rd rs1 rs2) :=
  of_atomic (m := "amoadd.d") (by decide) (fun h => absurd h (by decide)) (by decide)

theorem amoxorW (aq rl : Bool) (rd rs1 rs2 : Reg) : Statement (.amoxorW aq rl rd rs1 rs2) :=
  of_atomic (m := "amoxor.w") (by decide) (fun h => absurd h (by decide)) (by decide)

theorem amoxorD (aq rl : Bool) (rd rs1 rs2 : Reg) : Statement (.amoxorD aq rl rd rs1 rs2) :=
  of_atomic (m := "amoxor.d") (by decide) (fun h => absurd h (by decide)) (by decide)

theorem amoandW (aq rl : Bool) (rd rs1 rs2 : Reg) : Statement (.amoandW aq rl rd rs1 rs2) :=
  of_atomic (m := "amoand.w") (by decide) (fun h => absurd h (by decide)) (by decide)

theorem amoandD (aq rl : Bool) (rd rs1 rs2 : Reg) : Statement (.amoandD aq rl rd rs1 rs2) :=
  of_atomic (m := "amoand.d") (by decide) (fun h => absurd h (by decide)) (by decide)

theorem amoorW (aq rl : Bool) (rd rs1 rs2 : Reg) : Statement (.amoorW aq rl rd rs1 rs2) :=
  of_atomic (m := "amoor.w") (by decide) (fun h => absurd h (by decide)) (by decide)

theorem amoorD (aq rl : Bool) (rd rs1 rs2 : Reg) : Statement (.amoorD aq rl rd rs1 rs2) :=
  of_atomic (m := "amoor.d") (by decide) (fun h => absurd h (by decide)) (by decide)

theorem amominW (aq rl : Bool) (rd rs1 rs2 : Reg) : Statement (.amominW aq rl rd rs1 rs2) :=
  of_atomic (m := "amomin.w") (by decide) (fun h => absurd h (by decide)) (by decide)

theorem amominD (aq rl : Bool) (rd rs1 rs2 : Reg) : Statement (.amominD aq rl rd rs1 rs2) :=
  of_atomic (m := "amomin.d") (by decide) (fun h => absurd h (by decide)) (by decide)

theorem amomaxW (aq rl : Bool) (rd rs1 rs2 : Reg) : Statement (.amomaxW aq rl rd rs1 rs2) :=
  of_atomic (m := "amomax.w") (by decide) (fun h => absurd h (by decide)) (by decide)

theorem amomaxD (aq rl : Bool) (rd rs1 rs2 : Reg) : Statement (.amomaxD aq rl rd rs1 rs2) :=
  of_atomic (m := "amomax.d") (by decide) (fun h => absurd h (by decide)) (by decide)

theorem amominuW (aq rl : Bool) (rd rs1 rs2 : Reg) : Statement (.amominuW aq rl rd rs1 rs2) :=
  of_atomic (m := "amominu.w") (by decide) (fun h => absurd h (by decide)) (by decide)

theorem amominuD (aq rl : Bool) (rd rs1 rs2 : Reg) : Statement (.amominuD aq rl rd rs1 rs2) :=
  of_atomic (m := "amominu.d") (by decide) (fun h => absurd h (by decide)) (by decide)

theorem amomaxuW (aq rl : Bool) (rd rs1 rs2 : Reg) : Statement (.amomaxuW aq rl rd rs1 rs2) :=
  of_atomic (m := "amomaxu.w") (by decide) (fun h => absurd h (by decide)) (by decide)

theorem amomaxuD (aq rl : Bool) (rd rs1 rs2 : Reg) : Statement (.amomaxuD aq rl rd rs1 rs2) :=
  of_atomic (m := "amomaxu.d") (by decide) (fun h => absurd h (by decide)) (by decide)

theorem lrW (aq rl : Bool) (rd rs1 : Reg) : Statement (.lrW aq rl rd rs1) :=
  of_atomic (m := "lr.w") (by decide) (fun _ => rfl) (by decide)

theorem lrD (aq rl : Bool) (rd rs1 : Reg) : Statement (.lrD aq rl rd rs1) :=
  of_atomic (m := "lr.d") (by decide) (fun _ => rfl) (by decide)

theorem scW (aq rl : Bool) (rd rs1 rs2 : Reg) : Statement (.scW aq rl rd rs1 rs2) :=
  of_atomic (m := "sc.w") (by decide) (fun h => absurd h (by decide)) (by decide)

theorem scD (aq rl : Bool) (rd rs1 rs2 : Reg) : Statement (.scD aq rl rd rs1 rs2) :=
  of_atomic (m := "sc.d") (by decide) (fun h => absurd h (by decide)) (by decide)

theorem lb (rd rs1 : Reg) (imm : BitVec 12) : Statement (.lb rd rs1 imm) :=
  of_rows (m := "lb") (funct3Of_encodeI ..) (opcodeOf_encodeI ..) (by decide)

theorem lh (rd rs1 : Reg) (imm : BitVec 12) : Statement (.lh rd rs1 imm) :=
  of_rows (m := "lh") (funct3Of_encodeI ..) (opcodeOf_encodeI ..) (by decide)

theorem lw (rd rs1 : Reg) (imm : BitVec 12) : Statement (.lw rd rs1 imm) :=
  of_rows (m := "lw") (funct3Of_encodeI ..) (opcodeOf_encodeI ..) (by decide)

theorem ld (rd rs1 : Reg) (imm : BitVec 12) : Statement (.ld rd rs1 imm) :=
  of_rows (m := "ld") (funct3Of_encodeI ..) (opcodeOf_encodeI ..) (by decide)

theorem lbu (rd rs1 : Reg) (imm : BitVec 12) : Statement (.lbu rd rs1 imm) :=
  of_rows (m := "lbu") (funct3Of_encodeI ..) (opcodeOf_encodeI ..) (by decide)

theorem lhu (rd rs1 : Reg) (imm : BitVec 12) : Statement (.lhu rd rs1 imm) :=
  of_rows (m := "lhu") (funct3Of_encodeI ..) (opcodeOf_encodeI ..) (by decide)

theorem lwu (rd rs1 : Reg) (imm : BitVec 12) : Statement (.lwu rd rs1 imm) :=
  of_rows (m := "lwu") (funct3Of_encodeI ..) (opcodeOf_encodeI ..) (by decide)

theorem sb (rs1 rs2 : Reg) (imm : BitVec 12) : Statement (.sb rs1 rs2 imm) :=
  of_rows (m := "sb") (funct3Of_encodeS ..) (opcodeOf_encodeS ..) (by decide)

theorem sh (rs1 rs2 : Reg) (imm : BitVec 12) : Statement (.sh rs1 rs2 imm) :=
  of_rows (m := "sh") (funct3Of_encodeS ..) (opcodeOf_encodeS ..) (by decide)

theorem sw (rs1 rs2 : Reg) (imm : BitVec 12) : Statement (.sw rs1 rs2 imm) :=
  of_rows (m := "sw") (funct3Of_encodeS ..) (opcodeOf_encodeS ..) (by decide)

theorem sd (rs1 rs2 : Reg) (imm : BitVec 12) : Statement (.sd rs1 rs2 imm) :=
  of_rows (m := "sd") (funct3Of_encodeS ..) (opcodeOf_encodeS ..) (by decide)

theorem flw (fd rs1 : Reg) (imm : BitVec 12) : Statement (.flw fd rs1 imm) :=
  of_rows (m := "flw") (funct3Of_encodeI ..) (opcodeOf_encodeI ..) (by decide)

theorem fld (fd rs1 : Reg) (imm : BitVec 12) : Statement (.fld fd rs1 imm) :=
  of_rows (m := "fld") (funct3Of_encodeI ..) (opcodeOf_encodeI ..) (by decide)

theorem flq (fd rs1 : Reg) (imm : BitVec 12) : Statement (.flq fd rs1 imm) :=
  of_rows (m := "flq") (funct3Of_encodeI ..) (opcodeOf_encodeI ..) (by decide)

theorem fsw (rs1 fs2 : Reg) (imm : BitVec 12) : Statement (.fsw rs1 fs2 imm) :=
  of_rows (m := "fsw") (funct3Of_encodeS ..) (opcodeOf_encodeS ..) (by decide)

theorem fsd (rs1 fs2 : Reg) (imm : BitVec 12) : Statement (.fsd rs1 fs2 imm) :=
  of_rows (m := "fsd") (funct3Of_encodeS ..) (opcodeOf_encodeS ..) (by decide)

theorem fsq (rs1 fs2 : Reg) (imm : BitVec 12) : Statement (.fsq rs1 fs2 imm) :=
  of_rows (m := "fsq") (funct3Of_encodeS ..) (opcodeOf_encodeS ..) (by decide)

theorem fence (fm : BitVec 4) (pred succ : FenceSet) (rd rs1 : Reg) : Statement (.fence fm pred succ rd rs1) :=
  of_rows (m := "fence") (funct3Of_encodeI ..) (opcodeOf_encodeI ..) (by decide)

theorem sfenceVma (rs1 rs2 : Reg) : Statement (.sfenceVma rs1 rs2) := by
  have hacc : (⟨"sfence.vma", encodeR 0b0001001#7 0 0 0b000#3 0 0b1110011#7, 0xFE007FFF⟩ : OpcodeRow).accepts
      (encodeR 0b0001001#7 rs2 rs1 0b000#3 0 0b1110011#7) = true := by
    simp only [OpcodeRow.accepts, and_FE007FFF, funct7Of_encodeR, funct3Of_encodeR, rdOf_encodeR, opcodeOf_encodeR,
      beq_self_eq_true]
  show (opcodeTable.filter fun r => r.accepts (encodeR 0b0001001#7 rs2 rs1 0b000#3 0 0b1110011#7)).map
    OpcodeRow.mnemonic = ["sfence.vma"]
  rw [filter_accepts, funct3Of_encodeR, opcodeOf_encodeR,
    show rowsWith 0b000#3 0b1110011#7 = [⟨"sfence.vma", encodeR 0b0001001#7 0 0 0b000#3 0 0b1110011#7, 0xFE007FFF⟩] by
      decide, List.filter, hacc]
  rfl

theorem csrrw (rd : Reg) (csr : BitVec 12) (rs1 : Reg) : Statement (.csrrw rd csr rs1) :=
  of_rows (m := "csrrw") (funct3Of_encodeI ..) (opcodeOf_encodeI ..) (by decide)

theorem csrrs (rd : Reg) (csr : BitVec 12) (rs1 : Reg) : Statement (.csrrs rd csr rs1) :=
  of_rows (m := "csrrs") (funct3Of_encodeI ..) (opcodeOf_encodeI ..) (by decide)

theorem csrrc (rd : Reg) (csr : BitVec 12) (rs1 : Reg) : Statement (.csrrc rd csr rs1) :=
  of_rows (m := "csrrc") (funct3Of_encodeI ..) (opcodeOf_encodeI ..) (by decide)

theorem csrrwi (rd : Reg) (csr : BitVec 12) (uimm : BitVec 5) : Statement (.csrrwi rd csr uimm) :=
  of_rows (m := "csrrwi") (funct3Of_encodeI ..) (opcodeOf_encodeI ..) (by decide)

theorem csrrsi (rd : Reg) (csr : BitVec 12) (uimm : BitVec 5) : Statement (.csrrsi rd csr uimm) :=
  of_rows (m := "csrrsi") (funct3Of_encodeI ..) (opcodeOf_encodeI ..) (by decide)

theorem csrrci (rd : Reg) (csr : BitVec 12) (uimm : BitVec 5) : Statement (.csrrci rd csr uimm) :=
  of_rows (m := "csrrci") (funct3Of_encodeI ..) (opcodeOf_encodeI ..) (by decide)

end Sys2Proof.Laws.OwnRow
end

