-- ==== Sys2Proof/Laws/Pmp.lean ====
section
/-! SUPPORT. Physical memory protection, said once: which entry decides a check, the bits of an address mask, and what a
write of a PMP register can do. -/

namespace Sys2Proof.Machine

/-! ## The check (R136) -/

theorem hitsSome_iff {c : Cfg} {p : PmpRegs} {i pa n : Nat} :
    hitsSome c p i pa n = true ↔ ∃ k, k < n ∧ matchEntry c p i (pa + k) = true := by
  simp [hitsSome]

theorem hitsAll_iff {c : Cfg} {p : PmpRegs} {i pa n : Nat} :
    hitsAll c p i pa n = true ↔ ∀ k, k < n → matchEntry c p i (pa + k) = true := by
  simp [hitsAll]

/-- Entries that match no byte of the access do not take part. -/
theorem pmpScan_skip {c : Cfg} {p : PmpRegs} {pa n : Nat} {t : AccessType} {mode : Priv} (l l' : List Nat)
    (h : ∀ j ∈ l, hitsSome c p j pa n = false) : pmpScan c p pa n t mode (l ++ l') = pmpScan c p pa n t mode l' := by
  induction l with
  | nil => rfl
  | cons j l ih =>
    simp only [List.cons_append, pmpScan, h j (by simp)]
    simpa using ih (fun j hj => h j (by simp [hj]))

/-- The first entry that matches some byte decides. -/
theorem pmpCheck_first {c : Cfg} {p : PmpRegs} {pa n i : Nat} {t : AccessType} {mode : Priv} (hi : i < npmp c)
    (h : ∀ j, j < i → hitsSome c p j pa n = false) (hs : hitsSome c p i pa n = true) :
    pmpCheck c p pa n t mode = (hitsAll c p i pa n && permit (readLane c p i) t mode) := by
  have : List.range (npmp c) = List.range i ++ (i :: (List.range (npmp c - i - 1)).map (· + (i + 1))) := by
    rw [show npmp c = i + (1 + (npmp c - i - 1)) by omega, List.range_add]
    congr 1
    rw [Nat.add_comm 1, List.range_succ_eq_map]
    simp; intro a _; omega
  rw [pmpCheck, this, pmpScan_skip _ _ (by simpa using h)]
  simp only [pmpScan, hs]
  cases hitsAll c p i pa n <;> simp

/-- With no entry that matches a byte, `NoMatch` decides (R139). -/
theorem pmpCheck_none {c : Cfg} {p : PmpRegs} {pa n : Nat} {t : AccessType} {mode : Priv}
    (h : ∀ j, j < npmp c → hitsSome c p j pa n = false) : pmpCheck c p pa n t mode = noMatch c mode := by
  rw [pmpCheck, ← List.append_nil (List.range _), pmpScan_skip _ _ (by simpa using h)]
  rfl

/-! ## Numbers (R15, R126) -/

theorem torval_eq (c : Cfg) (p : PmpRegs) (j : Nat) : torval c p j = storedAddr c p j / 2 ^ c.grain * 2 ^ c.grain := by
  simp [torval, Nat.shiftRight_eq_div_pow, Nat.shiftLeft_eq]

/-- The number of low ones of `… 0 1 … 1`. -/
theorem ctz1_eq (fuel t b : Nat) (h : t ≤ fuel) : ctz1 fuel (b * 2 ^ (t + 1) + (2 ^ t - 1)) = t := by
  induction t generalizing fuel with
  | zero => cases fuel <;> simp [ctz1]
  | succ t ih =>
    obtain ⟨f, rfl⟩ : ∃ f, fuel = f + 1 := ⟨fuel - 1, by omega⟩
    have hp : 0 < 2 ^ t := by positivity
    have e : b * 2 ^ (t + 1 + 1) + (2 ^ (t + 1) - 1) = 2 * (b * 2 ^ (t + 1) + (2 ^ t - 1)) + 1 := by
      have e1 : 2 ^ (t + 1 + 1) = 2 * 2 ^ (t + 1) := by ring
      have e2 : 2 ^ (t + 1) = 2 * 2 ^ t := by ring
      rw [e1, ← Nat.mul_assoc, Nat.mul_comm b 2, Nat.mul_assoc]
      omega
    rw [e, ctz1, if_pos (by omega),
      show (2 * (b * 2 ^ (t + 1) + (2 ^ t - 1)) + 1) / 2 = b * 2 ^ (t + 1) + (2 ^ t - 1) by omega, ih f (by omega)]

/-- A value whose `k` low bits are ones has at least `k` low ones. -/
theorem ctz1_ge (fuel k v : Nat) (hk : k ≤ fuel) (h : ∀ j, j < k → v.testBit j = true) : k ≤ ctz1 fuel v := by
  induction k generalizing fuel v with
  | zero => omega
  | succ k ih =>
    obtain ⟨f, rfl⟩ : ∃ f, fuel = f + 1 := ⟨fuel - 1, by omega⟩
    have : v % 2 = 1 := by simpa [Nat.testBit_zero] using h 0 (by omega)
    rw [ctz1, if_pos this]
    have := ih f (v / 2) (by omega) (fun j hj => by rw [← Nat.testBit_succ]; exact h (j + 1) (by omega))
    omega

/-- A stored address has at most XLEN bits. -/
theorem palen_le_xlen (c : Cfg) : palen c - 2 ≤ xlen c := by
  unfold palen xlen; cases c.mxlen <;> simp

theorem npmp_le (c : Cfg) : npmp c ≤ 64 := by
  unfold npmp; cases c.npmp <;> simp

/-! ## Reading and writing (R51 to R57) -/

theorem readLane_of_lt {c : Cfg} {p : PmpRegs} {i : Fin 64} (h : i.val < npmp c) : readLane c p i = p.cfg[i] := by
  unfold readLane; rw [dif_pos i.isLt, if_pos h]; rfl

/-- An entry that reads as locked is implemented, and its byte is locked. -/
theorem readLane_locked {c : Cfg} {p : PmpRegs} {i : Fin 64} (h : laneL (readLane c p i) = true) :
    i.val < npmp c ∧ laneL p.cfg[i] = true ∧ readLane c p i = p.cfg[i] := by
  by_cases hn : i.val < npmp c
  · rw [readLane_of_lt hn] at h ⊢
    exact ⟨hn, h, rfl⟩
  · unfold readLane at h
    rw [dif_pos i.isLt, if_neg hn] at h
    simp [laneL] at h

theorem legalLane_zero (c : Cfg) : legalLane c 0 = true := by simp [legalLane, laneR, laneW, laneMode]

/-- A legal byte stays legal through legalisation. -/
theorem legalLane_legalizeCfg {c : Cfg} {i : Nat} {old w : Byte} (h : legalLane c old = true) :
    legalLane c (legalizeCfg c i old w) = true := by
  unfold legalizeCfg
  split
  · exact h
  · dsimp only
    split
    · assumption
    · split
      · assumption
      · exact legalLane_zero c

/-- Everything a write of a configuration byte can do: nothing, or put the legalised byte into its entry, which is
implemented and not locked. -/
theorem writeLane_cases (c : Cfg) (i : Nat) (w : Byte) (p : PmpRegs) :
    writeLane c i w p = p ∨ ∃ h : i < 64, i < npmp c ∧ laneL p.cfg[i] = false ∧
      writeLane c i w p = { p with cfg := p.cfg.set i (legalizeCfg c i p.cfg[i] w) } := by
  unfold writeLane
  split
  · rename_i h
    split
    · exact .inl rfl
    · split
      · exact .inl rfl
      · rename_i h1 h2
        exact .inr ⟨h, by omega, by simpa using h2, rfl⟩
  · exact .inl rfl

theorem writeLane_addr (c : Cfg) (i : Nat) (w : Byte) (p : PmpRegs) : (writeLane c i w p).addr = p.addr := by
  rcases writeLane_cases c i w p with e | ⟨h, -, -, e⟩ <;> rw [e]

/-- Everything a write of an address register can do: nothing, or put the legalised value into its entry, which is not
frozen. -/
theorem writeAddr_cases (c : Cfg) (i : Nat) (v : Word) (p : PmpRegs) :
    writeAddr c i v p = p ∨ ∃ h : i < 64, addrFrozen c p i = false ∧
      writeAddr c i v p = { p with addr := p.addr.set i (legalizeAddr c v) } := by
  unfold writeAddr
  split
  · rename_i h
    split
    · exact .inl rfl
    · rename_i h1
      exact .inr ⟨h, by simpa using h1, rfl⟩
  · exact .inl rfl

/-- Legal registers stay legal through a write of a configuration byte. -/
theorem legal_writeLane {c : Cfg} {p : PmpRegs} (h : p.legal c) (i : Nat) (w : Byte) : (writeLane c i w p).legal c := by
  rcases writeLane_cases c i w p with e | ⟨hi, hn, -, e⟩
  · rw [e]; exact h
  · rw [e]
    intro j
    obtain ⟨h1, h2, h3⟩ := h j
    by_cases hij : i = j.val
    · subst hij
      refine ⟨?_, h2, fun h => by omega⟩
      simp only [Fin.getElem_fin, Vector.getElem_set_self]
      exact legalLane_legalizeCfg h1
    · simp only [Fin.getElem_fin, Vector.getElem_set_ne _ _ hij]
      exact ⟨h1, h2, h3⟩

/-- Legal registers stay legal through a write of an address register. -/
theorem legal_writeAddr {c : Cfg} {p : PmpRegs} (h : p.legal c) (i : Nat) (v : Word) : (writeAddr c i v p).legal c := by
  rcases writeAddr_cases c i v p with e | ⟨hi, hf, e⟩
  · rw [e]; exact h
  · rw [e]
    intro j
    obtain ⟨h1, h2, h3⟩ := h j
    by_cases hij : i = j.val
    · subst hij
      have hn : ¬npmp c ≤ j.val := by
        intro hn
        rw [addrFrozen, decide_eq_true hn] at hf
        simp at hf
      refine ⟨h1, ?_, fun h => absurd h hn⟩
      simp only [Fin.getElem_fin, Vector.getElem_set_self, legalizeAddr, BitVec.toNat_ofNat]
      exact lt_of_le_of_lt (Nat.mod_le _ _) (Nat.mod_lt _ (by positivity))
    · simp only [Fin.getElem_fin, Vector.getElem_set_ne _ _ hij]
      exact ⟨h1, h2, h3⟩

/-- Legal registers stay legal through a CSR write. -/
theorem legal_csrWriteRegs {c : Cfg} {p : PmpRegs} (h : p.legal c) (a : Nat) (v : Word) : (csrWriteRegs c a v p).legal c := by
  unfold csrWriteRegs
  split
  · unfold writeCfgCsr
    generalize List.range (xlen c / 8) = l
    induction l generalizing p with
    | nil => exact h
    | cons k l ih => exact ih (legal_writeLane h _ _)
  · exact legal_writeAddr h _ _

end Sys2Proof.Machine
end

