-- ==== Sys2Proof/Laws/Step.lean ====
section
/-! SUPPORT. What a fetch and a step can do, said once (R19). -/

namespace Sys2Proof.Machine

/-- A fetch at an aligned pc: the value read, or the instruction access-fault at the pc. -/
theorem fetch_spec {s : State} (hal : (curPc s).toNat % 4 = 0) :
    (∀ w s1, fetch s = .ok w s1 → Reads s s1 ∧ w = valueAt s (curPc s) 4 ∧
        s1 = afterRead (curPc s).toNat 4 (afterView s)) ∧
      (∀ t s1, fetch s = .raise t s1 → Reads s s1 ∧ t = ⟨.accessFault .execute, curPc s⟩) := by
  constructor
  · intro w s1 h
    obtain ⟨sh, s2, h1, h2⟩ := Res.bind_eq_ok h
    obtain ⟨-, rfl, -⟩ := access_ok_aligned h1 hal
    split at h2
    · cases h2
    · cases h2
      exact ⟨Reads.start.view.read _ _, rfl, rfl⟩
  · intro t s1 h
    rcases Res.bind_eq_raise h with h1 | ⟨_, _, _, h2⟩
    · obtain ⟨h3, h4, h5⟩ := access_raise h1
      refine ⟨access_raise_reads h1, ?_⟩
      rcases h4 with h4 | h4
      · cases t; simp only at h3 h4; rw [h3, h4]; rfl
      · exact absurd hal (alignStage_misaligned h4).1
    · split at h2 <;> cases h2

theorem touchesStored_iff {s : State} {pa n : Nat} : touchesStored s pa n = true ↔ ∃ k, k < n ∧ pa + k ∈ s.stored := by
  simp [touchesStored]

/-- A granted fetch is refused when the hart has stored to one of its bytes, and otherwise gives the value read. -/
theorem fetch_granted {s : State} (hg : granted s .fetch (curPc s) 4 = true) :
    fetch s = if touchesStored s (curPc s).toNat 4 then .refuse .selfModifyingCode
      else .ok (valueAt s (curPc s) 4) (afterRead (curPc s).toNat 4 (afterView s)) := by
  unfold fetch
  rw [access_granted hg]
  simp [touchesStored, valueAt]

/-- EVERYTHING A STEP CAN DO that answers a next state: the fetch took its access fault, or the instruction fetched ran in
the state the fetch left. -/
theorem step_next {s t : State} (h : step s = .next t) :
    s.trap = none ∧ (curPc s).toNat % 4 = 0 ∧
      ((∃ u, Reads s u ∧ t = takeTrap ⟨.accessFault .execute, curPc s⟩ u) ∨
        ∃ i u, Reads s u ∧ u = afterRead (curPc s).toNat 4 (afterView s) ∧ decode (valueAt s (curPc s) 4) = some i ∧
          exec i u = .next t ∧ Ends i u t) := by
  unfold step at h
  split at h
  · cases h
  · rename_i htr
    split at h
    · cases h
    · rename_i hal
      have hal : (curPc s).toNat % 4 = 0 := by simpa using hal
      refine ⟨htr, hal, ?_⟩
      split at h
      · rename_i t' s1 hf
        obtain ⟨h1, rfl⟩ := (fetch_spec hal).2 _ _ hf
        cases h
        exact .inl ⟨s1, h1, rfl⟩
      · cases h
      · rename_i w s1 hf
        obtain ⟨h1, rfl, hu⟩ := (fetch_spec hal).1 _ _ hf
        split at h
        · cases h
        · rename_i i hi
          exact .inr ⟨i, s1, h1, hu, hi, h, exec_next h⟩

end Sys2Proof.Machine
end

