-- ==== Sys2Proof/Machine/Flags.lean ====
section
/-! DEFINITION. Flags: the machine has none (10_state.md R37: "There are no status flags, condition codes or predicate
registers"). No instruction reads or writes one, so this file defines nothing. -/
end

