-- ==== Sys2Proof/Tests/Slice0.lean ====
section
/-! SUPPORT. Tests: what well-formedness refuses, words written out from the spec's encodings, one step of each
instruction with the result the spec gives, and for each statement with hypotheses a state and operands that meet them.
Expected results come from the examples of spec/40 to 44 and from spec/95_test_vectors.md, as cited. -/

namespace Sys2Proof.Tests

open Sys2Proof Sys2Proof.Machine

/-! ## Small states -/

/-- The platform of 95_test_vectors.md section 0 for RV32. -/
def rv32 : Cfg := Cfg.vectors .rv32 .f64
/-- The platform of 95_test_vectors.md section 0 for RV64. -/
def rv64 : Cfg := Cfg.vectors .rv64 .f64

/-- After reset on a platform, with `x10 = a` and `x6 = b`. -/
def start (c : Cfg) (a b : Nat) : State :=
  { State.resetOn c with x := ((Vector.replicate 32 0).set 10 (BitVec.ofNat 64 a)).set 6 (BitVec.ofNat 64 b) }

/-- Bytes put into memory from outside. -/
def put (s : State) (pa : Nat) (l : List Nat) : State :=
  { s with mem := Memory.setBytes s.mem pa (l.map (BitVec.ofNat 8)) }

/-- PMP entry 0 with a configuration byte and a stored address. -/
def entry0 (cfg addr : Nat) : PmpRegs :=
  { cfg := (Vector.replicate 64 0).set 0 (BitVec.ofNat 8 cfg)
    addr := (Vector.replicate 64 0).set 0 (BitVec.ofNat 64 addr) }

/-- The next state of one step that runs a word placed at the pc. -/
def after (s : State) (w : Nat) : Option State :=
  match step (s.withFetchWord 32 w) with
  | .next t => some t
  | _ => none

/-- The trap of one step: cause code and trap value. -/
def trapOf (s : State) (w : Nat) : Option (Nat × Nat) :=
  (after s w).bind fun t => t.trap.map fun τ => (Exc.code τ.exc, τ.tval.toNat)

/-- The register `r` and the `n` bytes at `a` after one step. -/
def shows (s : State) (w : Nat) (r : Reg) (a n : Nat) : Option (Nat × Nat) :=
  (after s w).map fun t => ((readReg t r).toNat, (Memory.read t.mem a n).toNat)

/-! ## What well-formedness refuses -/

theorem test_wf_refuses_64bit_amo_on_rv32 : (Instr.amoaddD false false 5 10 6).wellFormed rv32 = false := by decide
theorem test_wf_refuses_lwu_on_rv32 : (Instr.lwu 5 10 0).wellFormed rv32 = false := by decide
theorem test_wf_refuses_flq_beyond_flen : (Instr.flq 1 10 0).wellFormed rv64 = false := by decide
theorem test_wf_refuses_flw_without_fp : (Instr.flw 1 10 0).wellFormed (Cfg.vectors .rv64 .absent) = false := by decide
theorem test_wf_accepts : (Instr.ld 5 10 8).wellFormed rv64 = true ∧ (Instr.fsd 10 1 8).wellFormed rv32 = true := by
  decide
theorem test_region_refuses_read_width : { PmaRegion.vectorRam with readWidths := [3] }.wf = false := by decide
theorem test_region_refuses_write_width : { PmaRegion.vectorRam with writeWidths := [32] }.wf = false := by decide
theorem test_region_refuses_granule : { PmaRegion.vectorRam with mag := some 12 }.wf = false := by decide
theorem test_region_refuses_memory_not_idempotent :
    { PmaRegion.vectorRam with readIdempotent := false }.wf = false := by decide
theorem test_region_refuses_coherent_impl_defined :
    { PmaRegion.vectorRam with memModel := .implDefined }.wf = false := by decide
theorem test_region_advice : PmaRegion.vectorIo.followsMisalignedAdvice = true ∧
    { PmaRegion.vectorIo with misalignedExc := .addressMisaligned }.followsMisalignedAdvice = false := by decide
theorem test_cfg_accepts : rv32.wf = true ∧ rv64.wf = true ∧ State.reset.cfg.wf = true := by decide
theorem test_cfg_refuses_pabits : { rv32 with pabits := 35 }.wf = false ∧ { rv32 with pabits := 1 }.wf = false := by
  decide
/-- The least `PABITS` that D4 of 90_conflicts.md admits. -/
theorem test_cfg_accepts_pabits : { rv32 with pabits := 2, grain := 0 }.wf = true := by decide
theorem test_cfg_refuses_grain : { rv32 with grain := 33 }.wf = false := by decide
theorem test_cfg_refuses_reset_vector :
    { rv64 with resetVector := 2 }.wf = false ∧ { rv32 with resetVector := 0x100000000 }.wf = false := by decide
theorem test_cfg_refuses_overlap :
    { rv32 with pma := [PmaRegion.vectorRam, { PmaRegion.vectorRam with base := 0x8000FFFF }] }.wf = false := by decide
theorem test_cfg_refuses_region_outside :
    { rv32 with pma := [{ PmaRegion.vectorRam with base := 2 ^ 34 - 1 }] }.wf = false := by decide
theorem test_cfg_refuses_bad_region : { rv32 with pma := [{ PmaRegion.vectorRam with mag := some 1 }] }.wf = false := by
  decide
theorem test_cfg_refuses_wide_implicit_reads :
    { rv64 with hasPagedVM := true, implicitReadRegionLog2 := 13 }.wf = false := by decide

/-! ## Words written out from the spec's encodings, one for every constructor (the examples of R204 to R288) -/

theorem test_decode_amo_w : [0x086522AF, 0x006522AF, 0x206522AF, 0x606522AF, 0x406522AF, 0x806522AF, 0xA06522AF,
      0xC06522AF, 0xE06522AF].map decode =
    [some (.amoswapW false false 5 10 6), some (.amoaddW false false 5 10 6), some (.amoxorW false false 5 10 6),
      some (.amoandW false false 5 10 6), some (.amoorW false false 5 10 6), some (.amominW false false 5 10 6),
      some (.amomaxW false false 5 10 6), some (.amominuW false false 5 10 6), some (.amomaxuW false false 5 10 6)] := by
  decide
theorem test_decode_amo_d : [0x086532AF, 0x006532AF, 0x206532AF, 0x606532AF, 0x406532AF, 0x806532AF, 0xA06532AF,
      0xC06532AF, 0xE06532AF].map decode =
    [some (.amoswapD false false 5 10 6), some (.amoaddD false false 5 10 6), some (.amoxorD false false 5 10 6),
      some (.amoandD false false 5 10 6), some (.amoorD false false 5 10 6), some (.amominD false false 5 10 6),
      some (.amomaxD false false 5 10 6), some (.amominuD false false 5 10 6), some (.amomaxuD false false 5 10 6)] := by
  decide
/-- `amoswap.w.aqrl t2, t0, (a1)` of program P5, and its two neighbours with one ordering bit. -/
theorem test_decode_ordering_bits : [0x0E55A3AF, 0x0C55A3AF, 0x0A55A3AF].map decode =
    [some (.amoswapW true true 7 11 5), some (.amoswapW true false 7 11 5), some (.amoswapW false true 7 11 5)] := by
  decide
theorem test_decode_lr_sc : [0x100522AF, 0x100532AF, 0x186523AF, 0x186533AF].map decode =
    [some (.lrW false false 5 10), some (.lrD false false 5 10), some (.scW false false 7 10 6),
      some (.scD false false 7 10 6)] := by decide
theorem test_decode_loads :
    [0x00450283, 0x00451283, 0x00452283, 0x00853283, 0x00454283, 0x00455283, 0x00456283].map decode =
    [some (.lb 5 10 4), some (.lh 5 10 4), some (.lw 5 10 4), some (.ld 5 10 8), some (.lbu 5 10 4), some (.lhu 5 10 4),
      some (.lwu 5 10 4)] := by decide
theorem test_decode_stores : [0xFE650E23, 0xFE651E23, 0xFE652E23, 0xFE653C23].map decode =
    [some (.sb 10 6 (-4)), some (.sh 10 6 (-4)), some (.sw 10 6 (-4)), some (.sd 10 6 (-8))] := by decide
theorem test_decode_float : [0x00852087, 0x00853087, 0x01054087, 0x00152427, 0x00153427, 0x00154827].map decode =
    [some (.flw 1 10 8), some (.fld 1 10 8), some (.flq 1 10 16), some (.fsw 10 1 8), some (.fsd 10 1 8),
      some (.fsq 10 1 16)] := by decide
theorem test_decode_fences : [0x0FF0000F, 0x0330000F, 0x0CC0000F, 0x12000073, 0x12050073].map decode =
    [some (.fence 0 ⟨true, true, true, true⟩ ⟨true, true, true, true⟩ 0 0),
      some (.fence 0 ⟨false, false, true, true⟩ ⟨false, false, true, true⟩ 0 0),
      some (.fence 0 ⟨true, true, false, false⟩ ⟨true, true, false, false⟩ 0 0), some (.sfenceVma 0 0),
      some (.sfenceVma 10 0)] := by decide
theorem test_decode_csr : [0x3B029073, 0x3B002373, 0x3A02B073, 0x3A005073, 0x3A0FE073, 0x3A0C7073].map decode =
    [some (.csrrw 0 0x3B0 5), some (.csrrs 6 0x3B0 0), some (.csrrc 0 0x3A0 5), some (.csrrwi 0 0x3A0 0),
      some (.csrrsi 0 0x3A0 31), some (.csrrci 0 0x3A0 24)] := by decide
/-- `lr.w` with `rs2` not zero, `fence.i`, `ecall`, a compressed word, an all-zero word, `addi` (R179, R180, R274). -/
theorem test_decode_none : [0x101522AF, 0x0000100F, 0x00000073, 0x00000001, 0x00000000, 0x00000013].map decode =
    [none, none, none, none, none, none] := by decide
theorem test_decode_table_word : decodeTableWord 32 0x00450283 = some (.lb 5 10 4) ∧ decodeTableWord 32 0 = none := by
  decide

/-! ## One step of each instruction (the examples of R204 to R288) -/

theorem test_amoswap_w : shows (put (start rv32 0x80001000 0x22222222) 0x80001000 [0x11, 0x11, 0x11, 0x11]) 0x086522AF
    5 0x80001000 4 = some (0x11111111, 0x22222222) := by decide
theorem test_amoswap_d : shows (put (start rv64 0x80001000 0x2222222222222222) 0x80001000
    [0x11, 0x11, 0x11, 0x11, 0x11, 0x11, 0x11, 0x11]) 0x086532AF 5 0x80001000 8 =
    some (0x1111111111111111, 0x2222222222222222) := by decide
/-- The sum wraps and the old value is sign-extended on RV64. -/
theorem test_amoadd_w : shows (put (start rv64 0x80001000 1) 0x80001000 [0xFF, 0xFF, 0xFF, 0xFF]) 0x006522AF
    5 0x80001000 4 = some (0xFFFFFFFFFFFFFFFF, 0) := by decide
theorem test_amoadd_d : shows (put (start rv64 0x80001000 1) 0x80001000 [255, 255, 255, 255, 255, 255, 255, 255])
    0x006532AF 5 0x80001000 8 = some (0xFFFFFFFFFFFFFFFF, 0) := by decide
/-- 95_test_vectors.md section 2: `rd`, `rs1` and `rs2` the same register. -/
theorem test_amoadd_w_same_register : shows (put (start rv32 0x80001000 0) 0x80001000 [0x10]) 0x00A5252F
    10 0x80001000 4 = some (0x10, 0x80001010) := by decide
theorem test_amoxor_w : shows (put (start rv32 0x80001000 0x0FF00FF0) 0x80001000 [0, 0xFF, 0, 0xFF]) 0x206522AF
    5 0x80001000 4 = some (0xFF00FF00, 0xF0F0F0F0) := by decide
theorem test_amoxor_d : shows (put (start rv64 0x80001000 0x0FF00FF00FF00FF0) 0x80001000
    [0, 0xFF, 0, 0xFF, 0, 0xFF, 0, 0xFF]) 0x206532AF 5 0x80001000 8 = some (0xFF00FF00FF00FF00, 0xF0F0F0F0F0F0F0F0) := by
  decide
theorem test_amoand_w : shows (put (start rv32 0x80001000 0x0FF00FF0) 0x80001000 [0, 0xFF, 0, 0xFF]) 0x606522AF
    5 0x80001000 4 = some (0xFF00FF00, 0x0F000F00) := by decide
theorem test_amoand_d : shows (put (start rv64 0x80001000 0x0FF00FF00FF00FF0) 0x80001000
    [0, 0xFF, 0, 0xFF, 0, 0xFF, 0, 0xFF]) 0x606532AF 5 0x80001000 8 = some (0xFF00FF00FF00FF00, 0x0F000F000F000F00) := by
  decide
theorem test_amoor_w : shows (put (start rv32 0x80001000 0x0FF00FF0) 0x80001000 [0, 0xFF, 0, 0xFF]) 0x406522AF
    5 0x80001000 4 = some (0xFF00FF00, 0xFFF0FFF0) := by decide
theorem test_amoor_d : shows (put (start rv64 0x80001000 0x0FF00FF00FF00FF0) 0x80001000
    [0, 0xFF, 0, 0xFF, 0, 0xFF, 0, 0xFF]) 0x406532AF 5 0x80001000 8 = some (0xFF00FF00FF00FF00, 0xFFF0FFF0FFF0FFF0) := by
  decide
theorem test_amomin_w : shows (put (start rv32 0x80001000 1) 0x80001000 [0xFF, 0xFF, 0xFF, 0xFF]) 0x806522AF
    5 0x80001000 4 = some (0xFFFFFFFF, 0xFFFFFFFF) := by decide
theorem test_amomin_d : shows (put (start rv64 0x80001000 1) 0x80001000 [255, 255, 255, 255, 255, 255, 255, 255])
    0x806532AF 5 0x80001000 8 = some (0xFFFFFFFFFFFFFFFF, 0xFFFFFFFFFFFFFFFF) := by decide
theorem test_amomax_w : shows (put (start rv32 0x80001000 1) 0x80001000 [0xFF, 0xFF, 0xFF, 0xFF]) 0xA06522AF
    5 0x80001000 4 = some (0xFFFFFFFF, 1) := by decide
theorem test_amomax_d : shows (put (start rv64 0x80001000 1) 0x80001000 [255, 255, 255, 255, 255, 255, 255, 255])
    0xA06532AF 5 0x80001000 8 = some (0xFFFFFFFFFFFFFFFF, 1) := by decide
theorem test_amominu_w : shows (put (start rv32 0x80001000 1) 0x80001000 [0xFF, 0xFF, 0xFF, 0xFF]) 0xC06522AF
    5 0x80001000 4 = some (0xFFFFFFFF, 1) := by decide
theorem test_amominu_d : shows (put (start rv64 0x80001000 1) 0x80001000 [255, 255, 255, 255, 255, 255, 255, 255])
    0xC06532AF 5 0x80001000 8 = some (0xFFFFFFFFFFFFFFFF, 1) := by decide
theorem test_amomaxu_w : shows (put (start rv32 0x80001000 1) 0x80001000 [0xFF, 0xFF, 0xFF, 0xFF]) 0xE06522AF
    5 0x80001000 4 = some (0xFFFFFFFF, 0xFFFFFFFF) := by decide
theorem test_amomaxu_d : shows (put (start rv64 0x80001000 1) 0x80001000 [255, 255, 255, 255, 255, 255, 255, 255])
    0xE06532AF 5 0x80001000 8 = some (0xFFFFFFFFFFFFFFFF, 0xFFFFFFFFFFFFFFFF) := by decide
/-- 95_test_vectors.md E2 and P5: inside one granule an AMO is whole, across a granule it traps. -/
theorem test_amo_granule : shows (put (start rv32 0x80010002 1) 0x80010002 [255, 255, 255, 255]) 0x006522AF
      5 0x80010002 4 = some (0xFFFFFFFF, 0) ∧
    trapOf (start rv32 0x8001000E 1) 0x006522AF = some (6, 0x8001000E) := by decide
/-- 95_test_vectors.md P6: `IO` supports logical AMOs, not arithmetic ones. -/
theorem test_amo_class : trapOf (start rv32 0x10000000 1) 0x006522AF = some (7, 0x10000000) ∧
    trapOf (start rv32 0x10000000 1) 0x406522AF = none := by decide

theorem test_lr_w : (after (put (start rv64 0x80001000 0) 0x80001000 [0x78, 0x56, 0x34, 0x92]) 0x100522AF).map
    (fun t => ((readReg t 5).toNat, t.resv)) = some (0xFFFFFFFF92345678, some ⟨0x80001000, 4⟩) := by decide
theorem test_lr_d : (after (put (start rv64 0x80001000 0) 0x80001000 [1, 2, 3, 4, 5, 6, 7, 8]) 0x100532AF).map
    (fun t => ((readReg t 5).toNat, t.resv)) = some (0x0807060504030201, some ⟨0x80001000, 8⟩) := by decide
/-- 95_test_vectors.md P4 step 3: no reservation, code 1, nothing written. -/
theorem test_sc_w : shows (start rv32 0x80001000 0x11223344) 0x186523AF 7 0x80001000 4 = some (1, 0) := by decide
/-- A reservation of the other width does not count and is dropped. -/
theorem test_sc_d : (after { start rv64 0x80001000 5 with resv := some ⟨0x80001000, 4⟩ } 0x186533AF).map
    (fun t => ((readReg t 7).toNat, t.resv)) = some (1, none) := by decide

theorem test_lb : shows (put (start rv32 0x80001000 0) 0x80001004 [0x80]) 0x00450283 5 0x80001004 1 =
    some (0xFFFFFF80, 0x80) := by decide
theorem test_lh : shows (put (start rv64 0x80001000 0) 0x80001004 [0x34, 0xF2]) 0x00451283 5 0x80001004 2 =
    some (0xFFFFFFFFFFFFF234, 0xF234) := by decide
theorem test_lw : shows (put (start rv64 0x80001000 0) 0x80001004 [0x78, 0x56, 0x34, 0x92]) 0x00452283 5 0x80001004 4 =
    some (0xFFFFFFFF92345678, 0x92345678) := by decide
theorem test_ld : shows (put (start rv64 0x80001000 0) 0x80001008 [1, 2, 3, 4, 5, 6, 7, 8]) 0x00853283 5 0x80001008 8 =
    some (0x0807060504030201, 0x0807060504030201) := by decide
theorem test_lbu : shows (put (start rv64 0x80001000 0) 0x80001004 [0x80]) 0x00454283 5 0x80001004 1 =
    some (0x80, 0x80) := by decide
theorem test_lhu : shows (put (start rv64 0x80001000 0) 0x80001004 [0x34, 0xF2]) 0x00455283 5 0x80001004 2 =
    some (0xF234, 0xF234) := by decide
theorem test_lwu : shows (put (start rv64 0x80001000 0) 0x80001004 [0x78, 0x56, 0x34, 0x92]) 0x00456283 5 0x80001004 4 =
    some (0x92345678, 0x92345678) := by decide
/-- 95_test_vectors.md section 2: the effective address wraps modulo `2^XLEN`; `rd = x0` discards the value. -/
theorem test_lw_wraps : trapOf (start rv32 0xFFFFFFFC 0) 0x00452283 = some (5, 0) ∧
    shows (put (start rv32 0x80001000 0) 0x80001000 [9]) 0x00052003 0 0x80001000 1 = some (0, 9) := by decide

theorem test_sb : shows (start rv32 0x80001000 0x123456AB) 0xFE650E23 6 0x80000FFC 2 = some (0x123456AB, 0xAB) := by
  decide
theorem test_sh : shows (start rv32 0x80001000 0x1234ABCD) 0xFE651E23 6 0x80000FFC 4 = some (0x1234ABCD, 0xABCD) := by
  decide
theorem test_sw : shows (start rv32 0x80001000 0xDEADBEEF) 0xFE652E23 6 0x80000FFC 4 =
    some (0xDEADBEEF, 0xDEADBEEF) := by decide
theorem test_sd : shows (start rv64 0x80001000 0x1122334455667788) 0xFE653C23 6 0x80000FF8 8 =
    some (0x1122334455667788, 0x1122334455667788) := by decide

theorem test_flw : (after (start rv32 0x80001000 0) 0x00852087).map (fun t => (t.pc, t.x)) =
    some (0x80000004, (start rv32 0x80001000 0).x) := by decide
theorem test_fld : (after (start rv64 0x80001000 0) 0x00853087).map (fun t => (t.pc, t.stored)) =
    some (0x80000004, []) := by decide
theorem test_flq_needs_flen : trapOf (start rv64 0x80001000 0) 0x01054087 = some (2, 0x01054087) := by decide
theorem test_fsw : (after (start rv32 0x80001000 0) 0x00152427).map (fun t => (t.pc, t.stored)) =
    some (0x80000004, [0x80001008, 0x80001009, 0x8000100A, 0x8000100B]) := by decide
theorem test_fsd_traps_at_width : trapOf (start rv64 0x10000000 0) 0x00153027 = some (7, 0x10000000) := by decide
theorem test_fsq_needs_flen : trapOf (start rv64 0x80001000 0) 0x00154827 = some (2, 0x00154827) := by decide

theorem test_fence : (after (start rv32 0 0) 0x0FF0000F).map (fun t => (t.pc, t.trap)) = some (0x80000004, none) := by
  decide
theorem test_sfence_vma : (after { start rv64 0 0 with stale := [entry0 0x1F 7] } 0x12000073).map State.stale = some [] ∧
    (after { start rv64 0 0 with stale := [entry0 0x1F 7] } 0x12050073).map State.stale = some [entry0 0x1F 7] := by decide

theorem test_csrrw : (after { start rv32 0 0 with x := (Vector.replicate 32 0).set 5 0x20000400 } 0x3B029073).map
    (fun t => t.pmp.addr[0]) = some 0x20000400 := by decide
theorem test_csrrs : (after { start rv32 0 0 with pmp := entry0 0 0x20000400 } 0x3B002373).map
    (fun t => ((readReg t 6).toNat, t.pmp)) = some (0x20000400, entry0 0 0x20000400) := by decide
theorem test_csrrc : (after { start rv32 0 0 with pmp := entry0 0x0F 0, x := (Vector.replicate 32 0).set 5 0x02 }
    0x3A02B073).map (fun t => t.pmp.cfg[0]) = some 0x0D := by decide
theorem test_csrrwi : (after { start rv32 0 0 with pmp := entry0 0x1F 0 } 0x3A005073).map (fun t => t.pmp.cfg[0]) =
    some 0 := by decide
theorem test_csrrsi : (after (start rv32 0 0) 0x3A0FE073).map (fun t => t.pmp.cfg[0]) = some 0x1F := by decide
theorem test_csrrci : (after { start rv32 0 0 with pmp := entry0 0x1F 0 } 0x3A0C7073).map (fun t => t.pmp.cfg[0]) =
    some 0x07 := by decide
/-- 95_test_vectors.md section 2.10: bits 6:5 are not stored. -/
theorem test_cfg_reserved_bits : (writeLane rv32 0 0x7F PmpRegs.reset).cfg[0] = 0x1F := by decide
/-- 95_test_vectors.md E4: the packing of `pmpcfg2`. -/
theorem test_csr_packing : let p : PmpRegs := { PmpRegs.reset with
      cfg := ((((Vector.replicate 64 0).set 8 0x18).set 9 0x19).set 10 0x1A).set 15 0x1F }
    (csrRead rv32 p 0x3A2).toNat = 0x001A1918 ∧ (csrRead rv64 p 0x3A2).toNat = 0x1F000000001A1918 := by decide
/-- 95_test_vectors.md E12: the value read follows the mode, the value stored does not. -/
theorem test_napot_reads_ones : let c : Cfg := { rv32 with grain := 3 }
    (readAddr c (entry0 0x19 0x20000404) 0).toNat = 0x20000407 ∧
      (readAddr c (entry0 0x09 0x20000404) 0).toNat = 0x20000400 := by decide
/-- 95_test_vectors.md E1, E7, E11: partial match, TOR entry 0. -/
theorem test_pmp_check : pmpCheck rv32 (entry0 0x17 3) 0x8 8 .read .machine = false ∧
    pmpCheck rv32 (entry0 0x17 3) 0xC 4 .read .user = true ∧ pmpCheck rv32 (entry0 0x17 3) 0x8 4 .read .user = false ∧
    matchEntry rv32 (entry0 0x09 0x20000400) 0 0x80000FFF = true ∧
    matchEntry rv32 (entry0 0x09 0x20000400) 0 0x80001000 = false := by decide

/-! ## Stops and traps of a step (95_test_vectors.md section 2.11) -/

theorem test_fetch_traps : trapOf { start rv32 0 0 with pc := 0x10000000 } 0 = some (1, 0x10000000) ∧
    trapOf { start rv32 0 0 with priv := .user } 0x0FF0000F = some (1, 0x80000000) := by decide
theorem test_mprv_load : trapOf { start rv32 0x80001000 0 with mprv := true, mpp := .user } 0x00052283 =
    some (5, 0x80001000) := by decide
theorem test_reset_has_no_program : step State.reset = .refused .notInScope := rfl
theorem test_csr_out_of_scope : step ((start rv32 0 0).withFetchWord 32 0x30002373) = .refused (.csrOutOfScope 0x300) :=
  rfl

/-! ## States and operands that meet the hypotheses of the statements -/

/-- A state with the word of `lw x5, 4(x10)` at the pc and a mapped address in `x10`. -/
def loadState : State := (start rv64 0x80001000 0).withFetchWord 32 0x00452283

theorem witness_EncodeDecode : decode 0x00450283 = some (.lb 5 10 4) := by decide

theorem witness_StepRunsDecoded : loadState.trap = none ∧ (curPc loadState).toNat % 4 = 0 ∧
    granted loadState .fetch (curPc loadState) 4 = true ∧ (∀ k, k < 4 → (curPc loadState).toNat + k ∉ loadState.stored) ∧
    decode (valueAt loadState (curPc loadState) 4) = some (.lw 5 10 4) ∧ loadState.cfg.hasPagedVM = false ∧
    isDevice loadState.cfg (curPc loadState).toNat = false ∧ plainRead loadState (curPc loadState) = true := by decide

theorem witness_PlacedWordRuns : State.reset.trap = none ∧ (curPc State.reset).toNat % 4 = 0 ∧
    granted State.reset .fetch (curPc State.reset) 4 = true ∧ plainRead State.reset (curPc State.reset) = true ∧
    Memory.wf State.reset.mem := by decide

/-- A platform whose main memory has an implementation-defined memory model. -/
def ownModel : Cfg :=
  { rv32 with pma := [{ PmaRegion.vectorRam with coherent := false, memModel := .implDefined }] }

theorem witness_StepStopsByName_trap :
    { start rv32 0 0 with trap := some ⟨.illegalInstruction, 0⟩ }.trap = some ⟨.illegalInstruction, 0⟩ := by decide
theorem witness_StepStopsByName_misaligned : (curPc { start rv32 0 0 with pc := 0x80000002 }).toNat % 4 ≠ 0 := by decide
theorem witness_StepStopsByName_model : translatable ownModel (curPc (start ownModel 0 0)) 4 = true ∧
    ∃ r, pmaOf ownModel (curPc (start ownModel 0 0)).toNat = some r ∧
      sameRegion r (curPc (start ownModel 0 0)).toNat 4 = true ∧ refusesModel r = true :=
  ⟨by decide, _, rfl, by decide, by decide⟩
theorem witness_StepStopsByName_stored : granted { loadState with stored := [0x80000003] } .fetch (curPc loadState) 4 = true ∧
    (curPc loadState).toNat + 3 ∈ [0x80000003] := by decide
theorem witness_StepStopsByName_noRow : granted State.reset .fetch (curPc State.reset) 4 = true ∧
    decode (valueAt State.reset (curPc State.reset) 4) = none := by decide

/-- The highest pc of the address space, an RV64 pc above `2^PALEN`, a vacant one, a region without execute, a denied
one. -/
theorem witness_FetchFailureTraps : translatable rv64 (curPc { start rv64 0 0 with pc := 0x100000000000000 }) 4 = false ∧
    denied { start rv32 0 0 with pc := 0xFFFFFFFC } .fetch 0xFFFFFFFC 4 = true ∧
    denied { start rv32 0 0 with pc := 0x10000000 } .fetch 0x10000000 4 = true ∧
    denied { start rv32 0 0 with priv := .user } .fetch 0x80000000 4 = true := by decide

theorem witness_StepKeepsInv : State.Inv loadState ∧ ∃ t, step loadState = .next t := ⟨by decide, _, rfl⟩
/-- The invariant holds with memory, a reservation, a snapshot and a trap that are not empty. -/
theorem witness_StepKeepsInv_full : State.Inv { put (start rv64 1 2) 0x8000FFFF [7] with
    cfg := { rv64 with hasPagedVM := true }, stored := [0x8000FFFF], resv := some ⟨0x80001000, 8⟩
    stale := [entry0 0x1F 7], pmp := entry0 0x9F 7, trap := some ⟨.accessFault .read, 3⟩ } := by decide
theorem witness_ResetMeetsInv : (Cfg.vectors .rv32 .absent).wf = true ∧ (Cfg.vectors .rv64 .f128).wf = true := by decide
theorem witness_ResetState : npmp rv64 ≠ 0 ∧ Priv.user ≠ .machine := by decide
theorem witness_StepKeepsModeAndPlatform : ∃ t, step loadState = .next t := ⟨_, rfl⟩
/-- A store that completes, whose frame covers the byte before and the byte after the bytes stored to. -/
theorem witness_CompletedFrame : (∃ t, exec (.sw 10 6 0) (start rv32 0x80001000 5) = .next t ∧ t.trap = none) ∧
    isCsrInstr (.sw 10 6 0) = false ∧ storeTarget (.sw 10 6 0) (start rv32 0x80001000 5) = some (0x80001000, 4) ∧
    destOf (.sw 10 6 0) = none ∧ leavesReservation (.lb 5 10 4) = true := by
  refine ⟨⟨_, rfl, by decide⟩, ?_⟩
  decide
theorem witness_TrapIsPrecise : ∃ t τ, step ((start rv32 0x80001001 0).withFetchWord 32 0x00052283) = .next t ∧
    t.trap = some τ := ⟨_, _, rfl, rfl⟩
theorem witness_MemoryChangesOnlyWherePermitted : ∃ t, step ((start rv32 0x80001000 5).withFetchWord 32 0x00652023) =
    .next t ∧ Memory.get t.mem 0x80001000 ≠ Memory.get ((start rv32 0x80001000 5).withFetchWord 32 0x00652023).mem 0x80001000 :=
  ⟨_, rfl, by decide⟩
theorem witness_PmpChangesOnlyInMMode : ∃ t, step ((start rv32 0 0).withFetchWord 32 0x3A0FE073) = .next t ∧
    t.pmp ≠ (start rv32 0 0).pmp := ⟨_, rfl, by decide⟩
/-- A locked TOR entry 1 above entry 0, and one step. -/
theorem witness_LockedEntriesStay :
    let s := { loadState with pmp := { entry0 0 7 with cfg := (Vector.replicate 64 0).set 1 0x8F } }
    (∃ t, runsTo 1 s t) ∧ laneL (readLane s.cfg s.pmp (1 : Fin 64)) = true ∧ laneMode s.pmp.cfg[(1 : Fin 64)] = .tor ∧
      (0 : Fin 64).val + 1 = (1 : Fin 64).val :=
  ⟨⟨_, _, rfl, rfl⟩, by decide, by decide, by decide⟩
theorem witness_RecordsOnlyGrow : ∃ t, step { loadState with stored := [5] } = .next t ∧
    5 ∈ { loadState with stored := [5] }.stored := ⟨_, rfl, by decide⟩

theorem witness_NonexistentFormsAreIllegal : (Instr.amoaddD false false 5 10 6).wellFormed (start rv32 0 0).cfg = false ∧
    (Instr.flq 1 10 0).wellFormed (start rv64 0 0).cfg = false := by decide
/-- RV64 with registers for `flq`. -/
def quad64 : Cfg := { rv64 with flen := .f128 }
/-- RV32 with the checks before alignment. -/
def checksFirst : Cfg := { rv32 with misalignedFirst := false }
/-- U-mode, for data accesses. -/
def asUser (s : State) : State := { s with mprv := true, mpp := .user }

/-- The first address an 8-byte access cannot reach, in 64 bits and, wider than XLEN, in 32. -/
theorem witness_DeniedAccessTraps_untranslatable :
    dataAccess (.ld 5 10 0) (start rv64 0xFFFFFFFFFFFFFFF9 0) = some (.load, 0xFFFFFFFFFFFFFFF9, 8) ∧
    translatable rv64 0xFFFFFFFFFFFFFFF9 8 = false ∧ (Instr.ld 5 10 0).wellFormed rv64 = true ∧
    dataAccess (.fsd 10 1 0) (start rv32 0xFFFFFFF9 0) = some (.store, 0xFFFFFFF9, 8) ∧
    translatable rv32 0xFFFFFFF9 8 = false ∧ (Instr.fsd 10 1 0).wellFormed rv32 = true := by decide
/-- A vacant address; a store-conditional whose failing form is checked; an AMO the region does not support; an access
inside one granule; one misaligned with the checks first. -/
theorem witness_DeniedAccessTraps_whole :
    dataAccess (.lw 5 10 0) (start rv32 0x20000000 0) = some (.load, 0x20000000, 4) ∧
    madeByOne (.lw 5 10 0) (start rv32 0x20000000 0) .load 0x20000000 4 = true ∧
    denied (start rv32 0x20000000 0) .load 0x20000000 4 = true ∧ alignStage rv32 .load 0x20000000 4 = .whole ∧
    dataAccess (.scW false false 7 10 6) (start { rv32 with scFailChecks := true } 0x10000000 0) =
      some (.sc, 0x10000000, 4) ∧
    denied (start { rv32 with scFailChecks := true } 0x10000000 0) .sc 0x10000000 4 = true ∧
    denied (start rv32 0x10000000 0) (.amo .amoadd) 0x10000000 4 = true ∧
    denied (asUser (start rv32 0x80010002 0)) .load 0x80010002 4 = true ∧
    alignStage rv32 .load 0x80010002 4 = .whole ∧
    denied (asUser (start checksFirst 0x80001001 0)) .load 0x80001001 4 = true ∧
    checksFirst.misalignedFirst = false := by decide
/-- A misaligned access wider than XLEN, the checks first: one `Access` of its whole width tells the exception. -/
theorem witness_DeniedAccessTraps_wide :
    dataAccess (.fld 1 10 0) (asUser (start checksFirst 0x80001001 0)) = some (.load, 0x80001001, 8) ∧
    madeByOne (.fld 1 10 0) (asUser (start checksFirst 0x80001001 0)) .load 0x80001001 8 = true ∧
    denied (asUser (start checksFirst 0x80001001 0)) .load 0x80001001 8 = true :=
  ⟨rfl, by rw [madeByOne, wideIsWhole_of_stops (by decide), Bool.or_true], by decide⟩
/-- A `fsq` to a vacant block: every part is denied. -/
theorem witness_DeniedAccessTraps_parts :
    dataAccess (.fsq 10 1 0) (start quad64 0x20000000 0) = some (.store, 0x20000000, 16) ∧
    (Instr.fsq 10 1 0).wellFormed quad64 = true ∧ translatable quad64 0x20000000 16 = true ∧
    stopsAlignment quad64 .store 0x20000000 16 = false ∧
    ∀ off m, m ∈ [1, 2, 4, 8, 16] → off + m ≤ 16 →
      denied (start quad64 0x20000000 0) .store (0x20000000 + BitVec.ofNat 64 off) m = true := by
  refine ⟨rfl, by decide, by decide, by decide, fun off m hm h => ?_⟩
  have hall : ∀ off, off < 17 → ∀ m ∈ [1, 2, 4, 8, 16],
      denied (start quad64 0x20000000 0) .store (0x20000000 + BitVec.ofNat 64 off) m = true := by decide
  exact hall off (by omega) m hm
/-- A load one byte past alignment in memory and in the I/O region, and at a vacant address; an AMO across a granule; one
wider than XLEN, inside a granule; the checks first. -/
theorem witness_MisalignedAccessTraps :
    dataAccess (.lw 5 10 0) (start rv32 0x80001001 0) = some (.load, 0x80001001, 4) ∧
    stoppedByAlignment rv32 .load 0x80001001 4 ∧ translatable rv32 0x80001001 4 = true ∧ rv32.misalignedFirst = true ∧
    stoppedByAlignment rv32 .load 0x10000001 4 ∧ stoppedByAlignment rv32 .load 0x20000001 4 ∧
    stoppedByAlignment rv32 (.amo .amoadd) 0x8001000E 4 ∧ stoppedByAlignment rv32 .lr 0x80010002 4 ∧
    dataAccess (.fld 1 10 0) (start rv32 0x80010001 0) = some (.load, 0x80010001, 8) ∧
    stoppedByAlignment rv32 .load 0x80010001 8 ∧ translatable rv32 0x80010001 8 = true ∧
    checked (start checksFirst 0x80001001 0) .load 0x80001001 4 = true := by
  simp only [stoppedByAlignment]
  decide
/-- A misaligned access wider than XLEN is told whole, before any part is performed: the misalignment, and with the checks
first the access-fault (R262, R300). -/
theorem test_wide_misaligned :
    (∃ u, wideRead 0x80001001 8 (start rv32 0 0) = .raise ⟨.addrMisaligned .read, 0x80001001⟩ u) ∧
    ∃ u, wideRead 0x80001001 8 (asUser (start checksFirst 0 0)) = .raise ⟨.accessFault .read, 0x80001001⟩ u := by
  constructor
  · rw [wideRead, wideIsWhole_of_stops (by decide)]
    exact ⟨_, rfl⟩
  · rw [wideRead, wideIsWhole_of_stops (by decide)]
    exact ⟨_, rfl⟩
theorem witness_LrScMisalignedNeverCompletes :
    dataAccess (.lrW false false 5 10) (start rv32 0x80010002 0) = some (.lr, 0x80010002, 4) ∧
    (0x80010002 : Word).toNat % 4 ≠ 0 ∧ (∃ t, exec (.lrW false false 5 10) (start rv32 0x80010002 0) = .next t) ∧
    dataAccess (.scW false false 7 10 6) (start rv32 0x80010002 0) = some (.sc, 0x80010002, 4) ∧
    ∃ t, exec (.scW false false 7 10 6) (start rv32 0x80010002 0) = .next t :=
  ⟨by decide, by decide, ⟨_, rfl⟩, by decide, ⟨_, rfl⟩⟩
theorem witness_TrapEntryAndReturn :
    { start rv32 0 0 with trap := some ⟨.accessFault .read, 4⟩, priv := .user }.trap = some ⟨.accessFault .read, 4⟩ ∧
    Priv.user ≠ .machine := by decide

/-- Entry 0 matches the last byte of the access only, and all of it. -/
theorem witness_PmpVerdict : 0 < npmp rv32 ∧ matchEntry rv32 (entry0 0x17 3) 0 (0x9 + 3) = true ∧
    matchEntry rv32 (entry0 0x17 3) 0 0x9 = false ∧ (∀ k, k < 4 → matchEntry rv32 (entry0 0x17 3) 0 (0xC + k) = true) ∧
    laneMode (readLane rv32 (entry0 0x17 3) 0) = .na4 ∧ (readAddr rv32 (entry0 0x17 3) 0).toNat = 3 := by decide
theorem witness_NoMatchRule : (∀ i k, i < npmp rv32 → k < 4 → matchEntry rv32 (entry0 0x17 3) i (0x8 + k) = false) ∧
    (∀ i, i < npmp rv32 → laneMode (readLane rv32 PmpRegs.reset i) = .off) ∧ npmp rv32 ≠ 0 ∧ Priv.user ≠ .machine := by
  refine ⟨?_, ?_, by decide, by decide⟩
  · have h : ∀ i, i < 16 → ∀ k, k < 4 → matchEntry rv32 (entry0 0x17 3) i (0x8 + k) = false := by decide
    exact fun i k hi hk => h i hi k hk
  · show ∀ i, i < 16 → laneMode (readLane rv32 PmpRegs.reset i) = .off
    decide
theorem witness_PermitRule : laneLegal rv32 0x9B ∧ permit 0x9B .write .user = true := by
  simp only [laneLegal]
  decide
/-- A TOR entry 0, a TOR entry 1 above it, and an empty one. -/
theorem witness_TorRange : laneMode (readLane rv32 (entry0 0x0F 5) 0) = .tor ∧
    laneMode (readLane rv32 { entry0 0 5 with cfg := (Vector.replicate 64 0).set 1 0x0F } 1) = .tor ∧
    storedAddr rv32 { entry0 0 5 with cfg := (Vector.replicate 64 0).set 1 0x0F } 1 ≤
      storedAddr rv32 { entry0 0 5 with cfg := (Vector.replicate 64 0).set 1 0x0F } 0 := by decide
/-- OFF, NA4, the smallest NAPOT region and the whole 34-bit space of RV32 (all ones, `t = 32`). -/
theorem witness_NaturallyAlignedRegions : laneMode (readLane rv32 (entry0 0 5) 0) = .off ∧
    laneMode (readLane rv32 (entry0 0x17 5) 0) = .na4 ∧ laneMode (readLane rv32 (entry0 0x1F 4) 0) = .napot ∧
    (readAddr rv32 (entry0 0x1F 4) 0).toNat = 2 * 2 ^ (0 + 1) + (2 ^ 0 - 1) ∧
    (readAddr rv32 (entry0 0x1F 0xFFFFFFFF) 0).toNat = 0 * 2 ^ (32 + 1) + (2 ^ 32 - 1) := by decide
theorem witness_GrainIsHonoured : { rv32 with grain := 3 }.wf = true ∧ (entry0 0x1F 0xF7).legal { rv32 with grain := 3 } ∧
    32 / 2 ^ (3 + 2) = 63 / 2 ^ (3 + 2) := by decide

theorem witness_LegalizeContract : laneLegal rv32 0 ∧ laneLegal rv32 ((0x7F : Byte) &&& 0x9F) ∧
    rv32.hardwired.contains 0 = false ∧ { rv32 with hardwired := [0] }.hardwired.contains 0 = true := by
  simp only [laneLegal]
  decide
/-- The first unimplemented entry, a locked entry, the last implemented entry. -/
theorem witness_WriteCfgRule : npmp rv32 ≤ (16 : Fin 64).val ∧ laneL (entry0 0x80 0).cfg[(0 : Fin 64)] = true ∧
    (15 : Fin 64).val < npmp rv32 ∧ laneL (entry0 0x80 0).cfg[(15 : Fin 64)] = false ∧
    laneL (writeLane rv32 (15 : Fin 64) 0x80 PmpRegs.reset).cfg[(15 : Fin 64)] = true := by decide
/-- The first unimplemented entry, a locked one, one below a locked TOR entry, and the last implemented entry. -/
theorem witness_WriteAddrRule : rv32.hardwired.contains (15 : Fin 64).val = false ∧ npmp rv32 ≤ (16 : Fin 64).val ∧
    laneL (readLane rv32 (entry0 0x80 0) (0 : Fin 64)) = true ∧
    laneL (readLane rv32 { entry0 0 0 with cfg := (Vector.replicate 64 0).set 1 0x88 } ((0 : Fin 64).val + 1)) = true ∧
    laneMode (readLane rv32 { entry0 0 0 with cfg := (Vector.replicate 64 0).set 1 0x88 } ((0 : Fin 64).val + 1)) = .tor ∧
    laneL (readLane rv32 PmpRegs.reset (15 : Fin 64)) = false ∧ ¬(15 : Fin 64).val + 1 < npmp rv32 := by decide
theorem witness_ReadAddrRule : (entry0 0x19 0x20000404).addr[(0 : Fin 64)].toNat < 2 ^ (palen rv32 - 2) ∧
    npmp rv32 ≤ (16 : Fin 64).val ∧ (15 : Fin 64).val < npmp rv32 ∧ 31 < xlen rv32 := by decide
theorem witness_UnimplementedEntries : npmp rv32 ≤ 16 ∧ npmp rv32 ≤ 64 ∧ csrReady (start rv32 0 0) 0x3EF = true := by
  decide
theorem witness_CsrReadPacks : 15 < 16 ∧ 3 < xlen rv32 / 8 ∧ 7 < xlen rv64 / 8 ∧ 63 < 64 := by decide
/-- The last lane of `pmpcfg15`, and the entries beside `pmpcfg2`. -/
theorem witness_CsrWriteLanes : (63 : Fin 64).val = 4 * 15 + 3 ∧ 3 < xlen rv32 / 8 ∧ (7 : Fin 64).val < 4 * 2 ∧
    4 * 2 + xlen rv64 / 8 ≤ (16 : Fin 64).val := by decide
/-- The smallest and the largest grain of the statement. -/
theorem witness_GrainDetection :
    let s := fun g => { start { rv32 with grain := g } 0 0 with x := (Vector.replicate 32 0).set 5 0xFFFFFFFF }
    (s 0).priv = .machine ∧ 0 < npmp (s 0).cfg ∧ (s 0).cfg.hardwired.contains 0 = false ∧
      laneL (readLane (s 0).cfg (s 0).pmp 0) = false ∧ laneL (readLane (s 0).cfg (s 0).pmp 1) = false ∧
      (s 31).cfg.grain + 3 ≤ (s 31).cfg.pabits ∧ (s 31).cfg.pabits ≤ palen (s 31).cfg ∧
      (readReg (s 31) 5).toNat = 2 ^ xlen (s 31).cfg - 1 := by decide

/-- The lowest and the highest PMP CSR, and an odd `pmpcfgN` of RV32. -/
theorem witness_CsrResult : csrReady (start rv64 0 0) 0x3A0 = true ∧ csrReady (start rv64 0 0) 0x3EF = true ∧
    csrReady (start rv32 0 0) 0x3AF = true := by decide
theorem witness_CsrTraps : Priv.supervisor ≠ .machine ∧ (0x3A0 ≤ (0x3EF : BitVec 12).toNat ∧ (0x3EF : BitVec 12).toNat ≤ 0x3EF) ∧
    (rv64.mxlen = .rv64 ∧ (0x3AF : BitVec 12).toNat ≤ 0x3AF ∧ (0x3AF : BitVec 12).toNat % 2 = 1) ∧
    (0x39F : BitVec 12).toNat < 0x3A0 ∧ 0x3EF < (0x3F0 : BitVec 12).toNat := by decide

/-- The last aligned addresses of `RAM`, and a misaligned one inside a granule of `RAMG`. -/
theorem witness_AmoResult : granted (start rv64 0x8000FFFC 0) (.amo .amoswap) (readReg (start rv64 0x8000FFFC 0) 10) 4 = true ∧
    granted (start rv64 0x8000FFF8 0) (.amo .amomaxu) (readReg (start rv64 0x8000FFF8 0) 10) 8 = true ∧
    granted (start rv32 0x80010002 0) (.amo .amoadd) (readReg (start rv32 0x80010002 0) 10) 4 = true ∧
    Memory.wf (start rv64 0 0).mem ∧ rv64.mxlen = .rv64 := by decide
theorem witness_OneGranule : inOneGranule rv64 (0x80010004 : Word).toNat 8 = true ∧
    inOneGranule rv64 (0x8001000C : Word).toNat 8 = false ∧ 8 * 8 ≤ xlen rv64 := by decide
theorem witness_LrResult : granted (start rv64 0x8000FFFC 0) .lr (readReg (start rv64 0x8000FFFC 0) 10) 4 = true ∧
    granted (start rv64 0x8000FFF8 0) .lr (readReg (start rv64 0x8000FFF8 0) 10) 8 = true := by decide
/-- No reservation; one of another width; the one needed. -/
theorem witness_ScResult : (start rv64 0x80001000 5).resv ≠ some ⟨0x80001000 % 2 ^ palen rv64, 8⟩ ∧
    (some ⟨0x80001000, 4⟩ : Option Reservation) ≠ some ⟨0x80001000 % 2 ^ palen rv64, 8⟩ ∧
    translatable rv64 0x80001000 8 = true ∧ rv64.scFailChecks = false ∧
    granted { start rv64 0x80001000 5 with resv := some ⟨0x80001000, 8⟩ } .sc 0x80001000 8 = true ∧
    readReg { start rv64 0x80001000 5 with resv := some ⟨0x80001000, 8⟩ } 10 = 0x80001000 := by decide
/-- A store-conditional that completes without a reservation, and one that completes with it whatever the free boolean
says. -/
theorem witness_ScCodeTellsTheStore :
    (∃ t, exec (.scW false false 7 10 6) (start rv32 0x80001000 5) = .next t ∧ t.trap = none) ∧
    ∃ t, exec (.scW false false 7 10 6) { start rv32 0x80001000 5 with resv := some ⟨0x80001000, 4⟩ } = .next t ∧
      t.trap = none := by
  refine ⟨⟨_, rfl, by decide⟩, ?_⟩
  have : exec (.scW false false 7 10 6) { start rv32 0x80001000 5 with resv := some ⟨0x80001000, 4⟩ } =
    (if Config.scOk 0x80001000 0 = true then
      scSucceeds 4 7 0x80001000 5 (tickSc { start rv32 0x80001000 5 with resv := some ⟨0x80001000, 4⟩ })
    else scFails 4 7 0x80001000 (tickSc { start rv32 0x80001000 5 with resv := some ⟨0x80001000, 4⟩ })).finish := rfl
  rw [this]
  cases Config.scOk 0x80001000 0 with
  | false => exact ⟨_, rfl, by decide⟩
  | true => exact ⟨_, rfl, by decide⟩

/-- The platform of 95_test_vectors.md with its memory promising eventual success. -/
def eventual32 : Cfg := { rv32 with pma := [{ PmaRegion.vectorRam with rsrv := .rsrvEventual }] }
/-- The state of turn `k` of a loop that stores zero over zero at 0x80001000: no reservation yet. -/
def atLr (k : Nat) : State :=
  { start eventual32 0x80001000 0 with stored := [0x80001000, 0x80001001, 0x80001002, 0x80001003], scDraws := k }
/-- The same turn after its load-reserved. -/
def atSc (k : Nat) : State := { atLr k with resv := some ⟨0x80001000, 4⟩ }

theorem test_loop_granted (k : Nat) : granted (atLr k) .lr 0x80001000 4 = true ∧
    granted (tickSc (atSc k)) .sc 0x80001000 4 = true :=
  (by decide : granted (atLr 0) .lr 0x80001000 4 = true ∧ granted (tickSc (atSc 0)) .sc 0x80001000 4 = true)
theorem test_loop_reserves (k : Nat) : ∃ u, exec (.lrW false false 5 10) (atLr k) = .next u ∧ u.trap = none ∧
    onlyBetween u (atSc k) := by
  have : exec (.lrW false false 5 10) (atLr k) = ((access .lr 0x80001000 4 (atLr k)).bind fun _ s1 =>
    complete { writeReg 5 (sextX eventual32 (readValue s1 0x80001000 4)) (afterRead 0x80001000 4 s1) with
      resv := some ⟨0x80001000, 4⟩ }).finish := rfl
  rw [this, access_granted (test_loop_granted k).1]
  refine ⟨_, rfl, ?_, ?_⟩ <;> rfl
theorem test_loop_turn (k : Nat) : ∃ u, exec (.scW false false 7 10 6) (atSc k) = .next u ∧ u.trap = none ∧
    onlyBetween u (atLr (k + 1)) := by
  have : exec (.scW false false 7 10 6) (atSc k) = (if Config.scOk 0x80001000 k = true then
      scSucceeds 4 7 0x80001000 0 (tickSc (atSc k)) else scFails 4 7 0x80001000 (tickSc (atSc k))).finish := rfl
  rw [this]
  cases Config.scOk 0x80001000 k with
  | false => refine ⟨_, rfl, ?_, ?_⟩ <;> rfl
  | true =>
    simp only [if_true, scSucceeds]
    rw [access_granted (test_loop_granted k).2]
    refine ⟨_, rfl, ?_, ?_⟩ <;> rfl
/-- Two store-conditionals in a row; and a constrained loop that never ends, on a `RsrvEventual` location. -/
theorem witness_SecondScFailsLoopSucceeds :
    (isSc (.scW false false 7 10 6) = true ∧ destOf (.scW false false 7 10 6) = some 7 ∧
      ∃ u t, exec (.scW false false 7 10 6) (start rv32 0x80001000 5) = .next u ∧ u.trap = none ∧
        exec (.scW false false 7 10 6) u = .next t ∧ t.trap = none) ∧
    constrainedLoop (.lrW false false 5 10) (.scW false false 7 10 6) 0x80001000 4 atLr atSc ∧
    (∀ k, (atSc k).cfg = eventual32 ∧ granted (atSc k) .sc 0x80001000 4 = true ∧ Memory.wf (atSc k).mem) ∧
    eventualAt eventual32 (0x80001000 : Word).toNat :=
  ⟨⟨rfl, rfl, _, _, rfl, by decide, rfl, by decide⟩,
    fun k => ⟨rfl, rfl, test_loop_reserves k, test_loop_turn k⟩,
    fun k => ⟨rfl, (by decide : granted (atSc 0) .sc 0x80001000 4 = true), (by decide : Memory.wf (atSc 0).mem)⟩,
    ⟨_, rfl, rfl⟩⟩

theorem witness_AddressAndExtension : 0 < 8 ∧ 32 ≤ xlen rv32 ∧ 64 ≤ xlen rv64 := by decide
theorem witness_ReadsAreMemoryOrFree : plainRead (start rv32 0 0) 0x80001000 = true ∧
    plainRead (start rv32 0 0) 0x10000000 = false := by decide
theorem witness_LittleEndianMemory : 15 < 16 ∧ Memory.wf (put (start rv32 0 0) 5 [1, 0, 2]).mem := by decide
/-- The last bytes of `RAM`, one address for each width; and the device. -/
theorem witness_LoadResult : granted (start rv64 0x8000FFFF 0) .load (effAddr (start rv64 0x8000FFFF 0) 10 0) 1 = true ∧
    granted (start rv64 0x8000FFFE 0) .load (effAddr (start rv64 0x8000FFFE 0) 10 0) 2 = true ∧
    granted (start rv64 0x80010000 0) .load (effAddr (start rv64 0x80010000 0) 10 (-4)) 4 = true ∧
    granted (start rv64 0x8000FFF8 0) .load (effAddr (start rv64 0x8000FFF8 0) 10 0) 8 = true ∧
    granted (start rv32 0x10000000 0) .load (effAddr (start rv32 0x10000000 0) 10 0) 4 = true := by decide
theorem witness_StoreResult : granted (start rv64 0x8000FFFF 0) .store (effAddr (start rv64 0x8000FFFF 0) 10 0) 1 = true ∧
    granted (start rv64 0x8000FFFE 0) .store (effAddr (start rv64 0x8000FFFE 0) 10 0) 2 = true ∧
    granted (start rv64 0x80010000 0) .store (effAddr (start rv64 0x80010000 0) 10 (-4)) 4 = true ∧
    granted (start rv64 0x8000FFF8 0) .store (effAddr (start rv64 0x8000FFF8 0) 10 0) 8 = true ∧
    Memory.wf (start rv64 0 0).mem := by decide

/-- RV32, RV64 with misaligned accesses made in parts. -/
def split32 : Cfg := { rv32 with misalignedLdSt := .split }
def split64 : Cfg := { rv64 with misalignedLdSt := .split, flen := .f128 }

/-- Parts of an access of at most 16 bytes, checked one by one. -/
theorem partsGranted_of_all {s : State} {kind : AccessKind} {va : Word} {n : Nat}
    (h : ((List.range n).all fun off => [1, 2, 4, 8].all fun m =>
      !decide (off + m ≤ n) || !decide ((va.toNat + off) % m = 0) || granted s kind (va + BitVec.ofNat 64 off) m) = true) :
    partsGranted s kind va n := by
  intro off m hm h1 h2
  have hpos : 0 < m := by
    simp only [List.mem_cons, List.not_mem_nil, or_false] at hm
    omega
  have h3 := List.all_eq_true.1 (List.all_eq_true.1 h off (List.mem_range.2 (by omega))) m hm
  simpa [h1, h2] using h3

/-- A 4-byte access one byte past alignment, across the end of a granule. -/
theorem witness_SplitLoadResult : splitGranted (start split32 0x8001000F 0) .load (effAddr (start split32 0x8001000F 0) 10 0) 4 :=
  ⟨rfl, by decide, by decide, by decide, by decide, partsGranted_of_all (by decide)⟩
theorem witness_SplitLoadResult_ld :
    splitGranted (start split64 0x80001001 0) .load (effAddr (start split64 0x80001001 0) 10 0) 8 :=
  ⟨rfl, by decide, by decide, by decide, by decide, partsGranted_of_all (by decide)⟩
theorem witness_SplitStoreResult :
    splitGranted (start split32 0x8001000F 0) .store (effAddr (start split32 0x8001000F 0) 10 0) 2 ∧
    Memory.wf (start split32 0x8001000F 0).mem :=
  ⟨⟨rfl, by decide, by decide, by decide, by decide, partsGranted_of_all (by decide)⟩, by decide⟩
/-- An access of at most XLEN bits succeeds when it is granted; a wider one of at most 16 bytes too, when its parts are. -/
theorem accessSucceeds_of_all {s : State} {kind : AccessKind} {va : Word} {n : Nat} (hg : granted s kind va n = true)
    (h : ((List.range n).all fun off => [1, 2, 4, 8].all fun m => !decide (off + m ≤ n) ||
      !widePart s.cfg kind (va.toNat + off) m || granted s kind (va + BitVec.ofNat 64 off) m) = true) :
    accessSucceeds s kind va n := by
  refine ⟨.inl hg, fun _ off m hm h1 h2 => .inl ?_⟩
  have hpos : 0 < m := by
    simp only [List.mem_cons, List.not_mem_nil, or_false] at hm
    omega
  have h3 := List.all_eq_true.1 (List.all_eq_true.1 h off (List.mem_range.2 (by omega))) m hm
  simpa [h1, h2] using h3

/-- A `flw`, a `fld` of RV32 and a `flq`, both wider than XLEN, at aligned addresses. -/
theorem witness_FloatLoadResult : 8 * 4 ≤ flen rv32 ∧ 8 * 16 ≤ flen quad64 ∧
    accessSucceeds (start rv32 0x80001000 0) .load (effAddr (start rv32 0x80001000 0) 10 0) 4 ∧
    accessSucceeds (start rv32 0x80001000 0) .load (effAddr (start rv32 0x80001000 0) 10 0) 8 ∧
    accessSucceeds (start quad64 0x80001000 0) .load (effAddr (start quad64 0x80001000 0) 10 0) 16 :=
  ⟨by decide, by decide, accessSucceeds_of_all (by decide) (by decide), accessSucceeds_of_all (by decide) (by decide),
    accessSucceeds_of_all (by decide) (by decide)⟩
/-- A `fld` of RV32 at 0x80001002, made in parts of any alignment; its part at 0x80001002 is split in turn. -/
theorem witness_FloatLoadResult_misaligned :
    splitGranted (start split32 0x80001002 0) .load 0x80001002 8 ∧ widePart split32 .load 0x80001002 4 = true ∧
    splitGranted (start split32 0x80001002 0) .load 0x80001002 4 ∧ widePart rv32 .load 0x80001002 4 = false :=
  ⟨⟨rfl, by decide, by decide, by decide, by decide, partsGranted_of_all (by decide)⟩, by decide,
    ⟨rfl, by decide, by decide, by decide, by decide, partsGranted_of_all (by decide)⟩, by decide⟩
theorem witness_FloatStoreResult : 8 * 16 ≤ flen quad64 ∧ Memory.wf (start quad64 0x80001000 0).mem ∧
    accessSucceeds (start rv32 0x80001000 0) .store (effAddr (start rv32 0x80001000 0) 10 0) 4 ∧
    accessSucceeds (start quad64 0x80001000 0) .store (effAddr (start quad64 0x80001000 0) 10 0) 16 :=
  ⟨by decide, by decide, accessSucceeds_of_all (by decide) (by decide), accessSucceeds_of_all (by decide) (by decide)⟩

theorem witness_SfenceResult : Priv.supervisor ≠ .user ∧ ((0 : Reg) = 0 ∧ (0 : Reg) = 0) ∧ ¬((10 : Reg) = 0 ∧ (0 : Reg) = 0) := by
  decide
theorem witness_ChannelOneIsAFence : PmaRegion.vectorIo.kind = .io ∧ channelOf PmaRegion.vectorIo = some 1 ∧
    { PmaRegion.vectorIo with ioOrder := .relaxed }.kind = .io ∧ PmaRegion.vectorRam.kind = .mainMemory := by decide

end Sys2Proof.Tests
end

section
/-! # The scope of the machine (00_scope.md): the step, addresses and extensions, the PMP grain -/

namespace Sys2Proof

/-! ## Decoding the word of an instruction (R178, R179) -/

/-- An atomic word of width `w` is decoded by its operation alone (R173). -/
theorem decode_encodeAtomic_word (f5 : BitVec 5) (aq rl : Bool) (rs2 rs1 rd : Reg) :
    decode (encodeAtomic f5 aq rl rs2 rs1 0b010#3 rd) = decodeAmoW (encodeAtomic f5 aq rl rs2 rs1 0b010#3 rd) := by
  simp [decode, decodeAmo]

/-- An atomic word of width `d` is decoded by its operation alone (R173). -/
theorem decode_encodeAtomic_double (f5 : BitVec 5) (aq rl : Bool) (rs2 rs1 rd : Reg) :
    decode (encodeAtomic f5 aq rl rs2 rs1 0b011#3 rd) = decodeAmoD (encodeAtomic f5 aq rl rs2 rs1 0b011#3 rd) := by
  simp [decode, decodeAmo]

/-- The decoder undoes the encoder, format by format. -/
theorem decode_encode (i : Instr) : decode (encode i) = some i := by
  cases i
  case amoswapW | amoaddW | amoxorW | amoandW | amoorW | amominW | amomaxW | amominuW | amomaxuW | lrW | scW =>
    rw [encode, decode_encodeAtomic_word]
    simp [decodeAmoW]
  case amoswapD | amoaddD | amoxorD | amoandD | amoorD | amominD | amomaxD | amominuD | amomaxuD | lrD | scD =>
    rw [encode, decode_encodeAtomic_double]
    simp [decodeAmoD]
  case lb | lh | lw | ld | lbu | lhu | lwu => simp [encode, decode, decodeLoad]
  case flw | fld | flq => simp [encode, decode, decodeLoadFp]
  case sb | sh | sw | sd => simp [encode, decode, decodeStore]
  case fsw | fsd | fsq => simp [encode, decode, decodeStoreFp]
  case fence => simp [encode, decode, decodeMiscMem]
  case sfenceVma | csrrw | csrrs | csrrc | csrrwi | csrrsi | csrrci => simp [encode, decode, decodeSystem]

end Sys2Proof

namespace Sys2Proof.Machine

/-! ## The step (R19, R83) -/

/-- A granted fetch of bytes the hart has not stored to, decoded and run. -/
theorem step_of_decode {s : State} {i : Instr} (htr : s.trap = none) (hal : (curPc s).toNat % 4 = 0)
    (hg : granted s .fetch (curPc s) 4 = true) (hst : ∀ k, k < 4 → (curPc s).toNat + k ∉ s.stored)
    (hi : decode (valueAt s (curPc s) 4) = some i) :
    step s = exec i (afterRead (curPc s).toNat 4 (afterView s)) := by
  have hts : touchesStored s (curPc s).toNat 4 = false := by
    rw [Bool.eq_false_iff, Ne, touchesStored_iff]
    rintro ⟨k, hk, hmem⟩
    exact hst k hk hmem
  simp [step, htr, hal, fetch_granted hg, hts, hi]

/-- Only a device's reads are free (R120). -/
theorem readIsFree_eq_false_of_not_isDevice {c : Cfg} {pa : Nat} (h : isDevice c pa = false) :
    readIsFree c pa = false := by
  unfold isDevice at h
  unfold readIsFree
  split at h <;> simp_all

/-- Away from devices a read leaves the state alone (R118, R120). -/
theorem afterRead_of_not_isDevice {s : State} {pa : Nat} (n : Nat) (h : isDevice s.cfg pa = false) :
    afterRead pa n s = s := by
  simp [afterRead, recordEvent, readIsFree_eq_false_of_not_isDevice h, h]

/-- Where reads are not free they return memory (R82, R118). -/
theorem valueAt_of_plainRead {s : State} {va : Word} (n : Nat) (h : plainRead s va = true) :
    valueAt s va n = Memory.read s.mem va.toNat n := by
  have hfree : readIsFree s.cfg va.toNat = false := by simpa [plainRead] using h
  simp [valueAt, readValue, hfree]

/-- Settles O5: a granted fetch gives the value read, and `step` runs what it decodes to. -/
theorem stepRunsDecoded : Obligations.StepRunsDecoded := by
  unfold Obligations.StepRunsDecoded
  intro s i htr hal hg hst hi
  have hstep := step_of_decode htr hal hg hst hi
  refine ⟨hstep, fun hvm hdev => ?_, valueAt_of_plainRead 4⟩
  rw [hstep, afterView_of_noPaging hvm, afterRead_of_not_isDevice 4 hdev]

/-! ## Placing an instruction at the pc (notes/assumptions/6.md) -/

/-- The bytes of a word are its little-endian bytes (R82, R83), so placing them is a write of the word. -/
theorem setBytes_bytesOfWord (m : Memory) (pa : Nat) (w : BitVec 32) :
    Memory.setBytes m pa (bytesOfWord w) = Memory.write m pa 4 w := rfl

/-- The word placed is the word that stands at the pc. -/
theorem read_withFetchWord {s : State} (hm : Memory.wf s.mem) (w : BitVec 32) :
    Memory.read (s.withFetchWord 32 w.toNat).mem (curPc s).toNat 4 = w := by
  have hw : BitVec.ofNat 32 (w.toNat % 2 ^ 32) = w := by
    rw [Nat.mod_eq_of_lt w.isLt, BitVec.ofNat_toNat, BitVec.setWidth_eq]
  rw [State.withFetchWord, hw, setBytes_bytesOfWord]
  exact Memory.read_write_self hm _ 4 w

/-- The bytes placed count as loaded from outside, not as stored by the hart (R151). -/
theorem not_mem_stored_withFetchWord (s : State) (nbits w : Nat) {k : Nat} (hk : k < 4) :
    (curPc s).toNat + k ∉ (s.withFetchWord nbits w).stored := by
  simp [State.withFetchWord, hk]

@[simp] theorem curPc_withFetchWord (s : State) (nbits w : Nat) : curPc (s.withFetchWord nbits w) = curPc s := rfl

@[simp] theorem plainRead_withFetchWord (s : State) (nbits w : Nat) (va : Word) :
    plainRead (s.withFetchWord nbits w) va = plainRead s va := rfl

@[simp] theorem granted_withFetchWord (s : State) (nbits w : Nat) (kind : AccessKind) (va : Word) (n : Nat) :
    granted (s.withFetchWord nbits w) kind va n = granted s kind va n :=
  granted_congr rfl rfl rfl rfl rfl rfl kind va n

/-- Settles O6: the word placed is read back at the pc and decodes to the instruction encoded. -/
theorem placedWordRuns : Obligations.PlacedWordRuns := by
  unfold Obligations.PlacedWordRuns
  intro s i htr hal hg hplain hm
  have hval : valueAt (s.withFetchWord 32 (encode i).toNat) (curPc s) 4 = encode i := by
    rw [valueAt_of_plainRead 4 (by rwa [plainRead_withFetchWord]), read_withFetchWord hm]
  refine step_of_decode htr hal ?_ (fun k hk => not_mem_stored_withFetchWord s 32 _ hk) ?_
  · rwa [curPc_withFetchWord, granted_withFetchWord]
  · rw [curPc_withFetchWord, hval, decode_encode]

/-! ## Addresses and extensions (R15, R174, R175, R244) -/

/-- A slot holds every XLEN-bit value (R7). -/
theorem xlen_le (c : Cfg) : xlen c ≤ 64 := by
  rcases xlen_eq c with h | h <;> omega

/-- The bits kept are the low XLEN ones. -/
theorem getLsbD_truncX (c : Cfg) (v : Word) (i : Nat) :
    (truncX c v).getLsbD i = (decide (i < xlen c) && v.getLsbD i) := by
  rw [BitVec.getLsbD, truncX_toNat, Nat.testBit_mod_two_pow, BitVec.getLsbD]

/-- The effective address is the exact sum of base and displacement, modulo `2^XLEN`. -/
theorem effAddr_toNat (s : State) (rs1 : Reg) (imm : BitVec 12) :
    ((effAddr s rs1 imm).toNat : Int) = ((readReg s rs1).toNat + imm.toInt) % 2 ^ xlen s.cfg := by
  have himm : (imm.signExtend 64).toInt = imm.toInt := BitVec.toInt_signExtend_of_le (by decide)
  rw [BitVec.toInt_eq_toNat_cond] at himm
  rw [effAddr, truncX_toNat, BitVec.toNat_add]
  split at himm <;> rcases xlen_eq s.cfg with h | h <;> rw [h] <;> omega

/-- `sext_XLEN` is the sign extension to XLEN bits. -/
theorem setWidth_sextX {k : Nat} (c : Cfg) (v : BitVec k) : (sextX c v).setWidth (xlen c) = v.signExtend (xlen c) := by
  apply BitVec.eq_of_getLsbD_eq
  intro i hi
  have h64 : i < 64 := hi.trans_le (xlen_le c)
  simp only [sextX, BitVec.getLsbD_setWidth, getLsbD_truncX, BitVec.getLsbD_signExtend, hi, h64, decide_true,
    Bool.true_and]

/-- `zext_XLEN` keeps the unsigned value of a value that fits. -/
theorem zextX_toNat {k : Nat} (c : Cfg) (v : BitVec k) (hk : k ≤ xlen c) : (zextX c v).toNat = v.toNat := by
  have hv : v.toNat < 2 ^ xlen c := v.isLt.trans_le (Nat.pow_le_pow_right (by decide) hk)
  have h64 : 2 ^ xlen c ≤ 2 ^ 64 := Nat.pow_le_pow_right (by decide) (xlen_le c)
  rw [zextX, truncX_toNat, BitVec.toNat_setWidth, Nat.mod_eq_of_lt (hv.trans_le h64), Nat.mod_eq_of_lt hv]

/-- Settles O49, from the values of `effAddr`, `sextX` and `zextX`. -/
theorem addressAndExtension : Obligations.AddressAndExtension := by
  unfold Obligations.AddressAndExtension
  refine ⟨effAddr_toNat, fun c k v _ hk => ⟨?_, zextX_toNat c v hk⟩⟩
  rw [setWidth_sextX, BitVec.toInt_signExtend_of_le hk]

/-! ## The grain of the PMP (R9, R130) -/

/-- Aligned blocks refine: addresses in one block of `2^k` bytes are in one block of every larger power of two. -/
theorem div_two_pow_eq_of_le {y z k l : Nat} (h : y / 2 ^ k = z / 2 ^ k) (hkl : k ≤ l) : y / 2 ^ l = z / 2 ^ l := by
  obtain ⟨d, rfl⟩ := Nat.exists_eq_add_of_le hkl
  rw [pow_add, ← Nat.div_div_eq_div_mul, ← Nat.div_div_eq_div_mul, h]

/-- The grain of a platform the spec admits is at most `XLEN` (D4, R10). -/
theorem grain_le_xlen {c : Cfg} (hc : c.wf = true) : c.grain ≤ xlen c := by
  simp only [Cfg.wf, Bool.and_eq_true, decide_eq_true_eq] at hc
  obtain ⟨⟨⟨⟨⟨⟨hpa, hgrain⟩, -⟩, -⟩, -⟩, -⟩, -⟩ := hc
  unfold xlen
  cases hm : c.mxlen <;> simp only [hm, Mxlen.palen] at hpa ⊢ <;> omega

/-- An entry that is not OFF is implemented (R60). -/
theorem lt_npmp_of_laneMode {c : Cfg} {p : PmpRegs} {i : Nat} (h : laneMode (readLane c p i) ≠ .off) : i < npmp c := by
  by_contra hn
  apply h
  simp [readLane, hn, laneMode]

/-- A TOR entry compares grains: its bounds are multiples of `2^G` (R126). -/
theorem matchTor_congr {c : Cfg} (p : PmpRegs) (i : Nat) {y z : Nat}
    (h : y / 2 ^ (c.grain + 2) = z / 2 ^ (c.grain + 2)) : matchTor c p i y = matchTor c p i z := by
  have hb : ∃ b, torBottom c p i = b * 2 ^ c.grain := by
    cases i with
    | zero => exact ⟨0, by simp [torBottom]⟩
    | succ j => exact ⟨_, torval_eq c p j⟩
  obtain ⟨b, hb⟩ := hb
  have hdiv : y / 4 / 2 ^ c.grain = z / 4 / 2 ^ c.grain := by
    rw [Nat.div_div_eq_div_mul, Nat.div_div_eq_div_mul, show 4 * 2 ^ c.grain = 2 ^ (c.grain + 2) by ring, h]
  have hpos : 0 < 2 ^ c.grain := Nat.two_pow_pos _
  simp only [matchTor, hb, torval_eq, ← Nat.le_div_iff_mul_le hpos, ← Nat.div_lt_iff_lt_mul hpos, hdiv]

/-- The address of an NA4 or NAPOT entry reads with its low `G - 1` bits as ones (R55). -/
theorem readAddr_testBit_of_laneA1 {c : Cfg} {p : PmpRegs} {i j : Nat} (hi : i < npmp c)
    (hA : laneA1 (readLane c p i) = true) (hj : j < c.grain - 1) (hx : c.grain ≤ xlen c) :
    (readAddr c p i).toNat.testBit j = true := by
  have hjx : j < xlen c := by omega
  have hj64 : j < 64 := hjx.trans_le (xlen_le c)
  rw [readAddr, truncX_toNat, readAddrNat, if_neg (by omega), if_pos hA, if_pos (by omega), BitVec.toNat_ofNat,
    Nat.testBit_mod_two_pow, Nat.testBit_mod_two_pow, Nat.testBit_or, Nat.testBit_two_pow_sub_one]
  simp [hj, hjx, hj64]

/-- `A = NAPOT` sets the upper bit of the `A` field (R48). -/
theorem laneA1_of_napot {v : Byte} (h : laneMode v = .napot) : laneA1 v = true := by
  unfold laneMode at h
  unfold laneA1
  split at h <;> simp_all

/-- A NAPOT entry of a grain `G` matches blocks of at least `2^(G+2)` bytes (R128, R130). -/
theorem matchNapot_congr {c : Cfg} {p : PmpRegs} {i y z : Nat} (hc : c.wf = true) (hi : i < npmp c)
    (hA : laneA1 (readLane c p i) = true) (h : y / 2 ^ (c.grain + 2) = z / 2 ^ (c.grain + 2)) :
    matchNapot c p i y = matchNapot c p i z := by
  have hx := grain_le_xlen hc
  have ht : c.grain - 1 ≤ ctz1 (xlen c) (readAddr c p i).toNat :=
    ctz1_ge _ _ _ (by omega) fun j hj => readAddr_testBit_of_laneA1 hi hA hj hx
  have hdiv := div_two_pow_eq_of_le h (show c.grain + 2 ≤ ctz1 (xlen c) (readAddr c p i).toNat + 3 by omega)
  simp only [matchNapot, Nat.shiftRight_eq_div_pow, hdiv]

/-- A legal byte is NA4 only on the smallest grain (R50 (c)). -/
theorem grain_eq_zero_of_na4 {c : Cfg} {v : Byte} (hv : legalLane c v = true) (h : laneMode v = .na4) :
    c.grain = 0 := by
  simp only [legalLane, Bool.and_eq_true] at hv
  obtain ⟨-, hna4⟩ := hv
  simpa [h] using hna4

/-- The byte of an entry reads as a legal one (R52, R60). -/
theorem legalLane_readLane {c : Cfg} {p : PmpRegs} (hp : p.legal c) (i : Nat) : legalLane c (readLane c p i) = true := by
  by_cases hi : i < npmp c
  · have h64 : i < 64 := hi.trans_le (npmp_le c)
    rw [readLane_of_lt (i := ⟨i, h64⟩) hi]
    exact (hp ⟨i, h64⟩).1
  · simpa [readLane, hi] using legalLane_zero c

/-- Settles O31, by the matching mode: no mode of a legal entry looks below bit `G + 2` of the address. -/
theorem grainIsHonoured : Obligations.GrainIsHonoured := by
  unfold Obligations.GrainIsHonoured
  intro c p hc hp i y z h
  unfold matchEntry
  cases hm : laneMode (readLane c p i) with
  | off => rfl
  | tor => exact matchTor_congr p i h
  | na4 =>
    have hg := grain_eq_zero_of_na4 (legalLane_readLane hp i) hm
    have h4 : y / 4 = z / 4 := by simpa [hg] using h
    simp only [matchNa4, h4]
  | napot =>
    have hi : i < npmp c := lt_npmp_of_laneMode (p := p) (by simp [hm])
    exact matchNapot_congr hc hi (laneA1_of_napot hm) h

end Sys2Proof.Machine
end

section
/-! # The state (10_state.md): the PMP registers and their CSRs, reset, the stops of a step, and what every step keeps -/

namespace Sys2Proof.Machine

/-! ## Configuration bytes (R47 to R51) -/

theorem laneMode_eq_na4_iff (v : Byte) : laneMode v = .na4 ↔ v.extractLsb' 3 2 = 2#2 := by
  have hbits : v.extractLsb' 3 2 = 2#2 ↔ v.getLsbD 3 = false ∧ v.getLsbD 4 = true := by
    rw [BitVec.eq_of_getLsbD_eq_iff]
    constructor
    · intro h
      exact ⟨by simpa using h 0 (by decide), by simpa using h 1 (by decide)⟩
    · rintro ⟨h3, h4⟩ j hj
      interval_cases j
      · simpa using h3
      · simpa using h4
  rw [hbits]
  unfold laneMode
  cases v.getLsbD 4 <;> cases v.getLsbD 3 <;> simp

/-- The check of a configuration byte tests the fields of R50 (a) to (c). -/
theorem legalLane_iff_laneLegal (c : Cfg) (v : Byte) : legalLane c v = true ↔ laneLegal c v := by
  have hgrain : (c.grain = 0 ∨ laneMode v ≠ .na4) ↔ (1 ≤ c.grain → v.extractLsb' 3 2 ≠ 2#2) := by
    rw [Ne, laneMode_eq_na4_iff, Nat.one_le_iff_ne_zero]
    tauto
  simp only [legalLane, laneLegal, laneR, laneW, Bool.and_eq_true, Bool.or_eq_true, Bool.not_eq_true', beq_iff_eq,
    bne_iff_ne, hgrain]
  cases v.getLsbD 0 <;> cases v.getLsbD 1 <;> simp [and_assoc]

theorem legalizeCfg_of_hardwired {c : Cfg} {i : Nat} (h : c.hardwired.contains i = true) (old w : Byte) :
    legalizeCfg c i old w = old := by
  rw [legalizeCfg, if_pos h]

/-- A legal value is stored as written, bits 6:5 cleared. -/
theorem legalizeCfg_of_legal {c : Cfg} {i : Nat} {w : Byte} (h : c.hardwired.contains i = false)
    (hw : legalLane c (w &&& 0x9F) = true) (old : Byte) : legalizeCfg c i old w = w &&& 0x9F := by
  simp only [legalizeCfg, h, hw, if_true, Bool.false_eq_true, if_false]

/-- Settles O32, from the three branches of the legalisation. -/
theorem legalizeContract : Obligations.LegalizeContract := by
  unfold Obligations.LegalizeContract
  intro c i old w hold
  simp only [← legalLane_iff_laneLegal] at hold ⊢
  exact ⟨legalLane_legalizeCfg hold, fun h hw => legalizeCfg_of_legal h hw old,
    fun h => legalizeCfg_of_hardwired h old w⟩

theorem writeLane_of_unimplemented {c : Cfg} {p : PmpRegs} {i : Nat} (h : npmp c ≤ i) (w : Byte) :
    writeLane c i w p = p := by
  unfold writeLane; simp [h]

theorem writeLane_of_locked {c : Cfg} {p : PmpRegs} {i : Fin 64} (h : laneL p.cfg[i] = true) (w : Byte) :
    writeLane c i w p = p := by
  rcases writeLane_cases c i w p with e | ⟨_, -, hl, -⟩
  · exact e
  · exact absurd (h.symm.trans hl) (by decide)

theorem writeLane_of_open {c : Cfg} {p : PmpRegs} {i : Fin 64} (hi : i.val < npmp c) (hl : laneL p.cfg[i] = false)
    (w : Byte) : writeLane c i w p = { p with cfg := p.cfg.set i (legalizeCfg c i p.cfg[i] w) } := by
  have hn : ¬npmp c ≤ i.val := by omega
  simp_all [writeLane]

/-- A write of the byte of one entry leaves the bytes of the others alone (R51). -/
theorem writeLane_cfg_ne (c : Cfg) (p : PmpRegs) {i : Nat} {j : Fin 64} (h : i ≠ j.val) (w : Byte) :
    (writeLane c i w p).cfg[j] = p.cfg[j] := by
  rcases writeLane_cases c i w p with e | ⟨hi, -, -, e⟩
  · rw [e]
  · rw [e]; exact Vector.getElem_set_ne hi j.isLt h

/-- The byte of the entry written depends on the byte that stood there only (R51). -/
theorem writeLane_cfg_self (c : Cfg) (p : PmpRegs) (i : Fin 64) (w : Byte) :
    (writeLane c i w p).cfg[i] =
      if npmp c ≤ i.val ∨ laneL p.cfg[i] = true then p.cfg[i] else legalizeCfg c i p.cfg[i] w := by
  by_cases hn : npmp c ≤ i.val
  · rw [writeLane_of_unimplemented hn, if_pos (.inl hn)]
  · by_cases hl : laneL p.cfg[i] = true
    · rw [writeLane_of_locked hl, if_pos (.inr hl)]
    · rw [writeLane_of_open (by omega) (by simpa using hl), if_neg (not_or.2 ⟨hn, hl⟩)]
      exact Vector.getElem_set_self i.isLt

/-- Settles O33: unimplemented, locked and open entries in turn; a byte that locked its entry meets the second. -/
theorem writeCfgRule : Obligations.WriteCfgRule := by
  unfold Obligations.WriteCfgRule
  intro c p i w
  refine ⟨fun h => writeLane_of_unimplemented h w, fun h => writeLane_of_locked h w, fun hi hl => ⟨?_, ?_, ?_⟩,
    fun h v => writeLane_of_locked h v⟩
  · rw [writeLane_cfg_self, if_neg (not_or.2 ⟨by omega, by rw [hl]; decide⟩)]
  · exact fun j hj => writeLane_cfg_ne c p (fun e => hj (Fin.ext e.symm)) w
  · exact writeLane_addr c i w p

/-! ## Address registers (R53 to R57) -/

theorem legalizeAddr_toNat (c : Cfg) (v : Word) : (legalizeAddr c v).toNat = v.toNat % 2 ^ (c.pabits - 2) := by
  rw [legalizeAddr, BitVec.toNat_ofNat, Nat.mod_eq_of_lt (lt_of_le_of_lt (Nat.mod_le _ _) v.isLt)]

/-- When the address register of an entry the platform does not hardwire is frozen (R57). -/
theorem addrFrozen_iff {c : Cfg} {p : PmpRegs} {i : Nat} (hw : c.hardwired.contains i = false) :
    addrFrozen c p i = true ↔ npmp c ≤ i ∨ laneL (readLane c p i) = true ∨
      (i + 1 < npmp c ∧ laneL (readLane c p (i + 1)) = true ∧ laneMode (readLane c p (i + 1)) = .tor) := by
  rw [addrFrozen, hw]
  simp [or_assoc, and_assoc]

theorem writeAddr_of_frozen {c : Cfg} {p : PmpRegs} {i : Nat} (h : addrFrozen c p i = true) (v : Word) :
    writeAddr c i v p = p := by
  unfold writeAddr; simp [h]

theorem writeAddr_of_not_frozen {c : Cfg} {p : PmpRegs} {i : Fin 64} (h : addrFrozen c p i = false) (v : Word) :
    writeAddr c i v p = { p with addr := p.addr.set i (legalizeAddr c v) } := by
  simp [writeAddr, h]

theorem writeAddr_cfg (c : Cfg) (i : Nat) (v : Word) (p : PmpRegs) : (writeAddr c i v p).cfg = p.cfg := by
  rcases writeAddr_cases c i v p with e | ⟨_, -, e⟩ <;> rw [e]

/-- Settles O34: the three reasons that freeze an address register, and the write of one that is not frozen. -/
theorem writeAddrRule : Obligations.WriteAddrRule := by
  unfold Obligations.WriteAddrRule
  intro c p i v hw
  have frozen := addrFrozen_iff (p := p) hw
  refine ⟨fun h => writeAddr_of_frozen (frozen.2 (.inl h)) v, fun h => writeAddr_of_frozen (frozen.2 (.inr (.inl h))) v,
    fun h1 h2 h3 => writeAddr_of_frozen (frozen.2 (.inr (.inr ⟨h1, h2, h3⟩))) v, fun hi hl htor => ?_⟩
  have hopen : addrFrozen c p i = false := by
    rw [Bool.eq_false_iff, Ne, frozen]
    rintro (h | h | h)
    · omega
    · rw [hl] at h; cases h
    · exact htor h
  refine ⟨?_, fun j hj => ?_, writeAddr_cfg c i v p⟩
  · rw [writeAddr_of_not_frozen hopen, ← legalizeAddr_toNat]
    exact congrArg BitVec.toNat (Vector.getElem_set_self i.isLt)
  · rw [writeAddr_of_not_frozen hopen]
    exact Vector.getElem_set_ne i.isLt j.isLt (fun e => hj (Fin.ext e.symm))

theorem readAddr_of_unimplemented {c : Cfg} {i : Nat} (h : npmp c ≤ i) (p : PmpRegs) : readAddr c p i = 0 := by
  rw [readAddr, readAddrNat, if_pos h]
  exact truncX_zero c

/-- A register reads the number `readAddrNat` bit by bit, up to `XLEN` bits. -/
theorem readAddr_getLsbD (c : Cfg) (p : PmpRegs) (i : Nat) {j : Nat} (hj : j < xlen c) :
    (readAddr c p i).getLsbD j = (readAddrNat c p i).testBit j := by
  have h64 : j < 64 := hj.trans_le (xlen_le c)
  rw [readAddr, getLsbD_truncX, BitVec.getLsbD_ofNat]
  simp [hj, h64]

theorem storedAddr_of_lt {c : Cfg} {p : PmpRegs} {i : Fin 64} (hi : i.val < npmp c)
    (h : p.addr[i].toNat < 2 ^ (palen c - 2)) : storedAddr c p i = p.addr[i].toNat := by
  unfold storedAddr
  rw [dif_pos i.isLt, if_pos hi]
  exact Nat.mod_eq_of_lt h

/-- The bits of an address as it reads (R55): of an NA4 or NAPOT entry, and of an OFF or TOR one. -/
theorem readAddrNat_testBit {c : Cfg} {p : PmpRegs} {i : Nat} (hi : i < npmp c) (j : Nat) :
    (readAddrNat c p i).testBit j =
      if laneA1 (readLane c p i) = true ∧ 2 ≤ c.grain then decide (j < c.grain - 1) || (storedAddr c p i).testBit j
      else if laneA1 (readLane c p i) = false ∧ 1 ≤ c.grain then decide (c.grain ≤ j) && (storedAddr c p i).testBit j
      else (storedAddr c p i).testBit j := by
  rw [readAddrNat, if_neg (by omega)]
  cases hA : laneA1 (readLane c p i) with
  | true =>
    by_cases hg : 2 ≤ c.grain
    · simp [hg, Nat.testBit_or, Nat.testBit_two_pow_sub_one, Bool.or_comm]
    · simp [hg]
  | false =>
    by_cases hg : 1 ≤ c.grain
    · by_cases hj : c.grain ≤ j
      · simp [hg, hj, Nat.testBit_shiftLeft, Nat.testBit_shiftRight]
      · simp [hg, hj, Nat.testBit_shiftLeft]
    · simp [hg]

/-- Settles O35, from the bits of `readAddrNat`; a write of a configuration byte touches no address. -/
theorem readAddrRule : Obligations.ReadAddrRule := by
  unfold Obligations.ReadAddrRule
  intro c p i hlt
  refine ⟨fun h => readAddr_of_unimplemented h p, fun hi j hj => ?_, fun w => writeLane_addr c i w p⟩
  rw [readAddr_getLsbD c p i hj, readAddrNat_testBit hi, storedAddr_of_lt hi hlt, readLane_of_lt hi]
  rfl

/-! ## The CSRs (R41 to R44, R58 to R60) -/

theorem readLane_of_unimplemented {c : Cfg} {i : Nat} (h : npmp c ≤ i) (p : PmpRegs) : readLane c p i = 0 := by
  have hn : ¬i < npmp c := by omega
  simp [readLane, hn]

/-- A CSR instruction that may execute completes: the write, then the register that takes the value read (R281). -/
theorem csrInstr_of_ready {s : State} {csr : BitVec 12} (h : csrReady s csr = true) (op : CsrOp) (i : Instr) (rd : Reg)
    (src : Word) (z : Bool) :
    csrInstr op i rd csr src z s = .next (advance
      (if (!(op == .write && rd == 0)) = true then
        writeReg rd (csrRead s.cfg s.pmp csr.toNat)
          (if (op == .write || !z) = true then csrWrite csr.toNat (csrNew op (csrRead s.cfg s.pmp csr.toNat) src) s else s)
      else if (op == .write || !z) = true then csrWrite csr.toNat (csrNew op (csrRead s.cfg s.pmp csr.toNat) src) s
      else s)) := by
  simp only [csrReady, Bool.and_eq_true, beq_iff_eq, Bool.not_eq_true'] at h
  obtain ⟨⟨hscope, hpriv⟩, hodd⟩ := h
  simp [csrInstr, hscope, hpriv, hodd, complete]

/-- Settles O36: an unimplemented entry reads zero, so it is OFF; a CSR write that may execute completes. -/
theorem unimplementedEntries : Obligations.UnimplementedEntries := by
  unfold Obligations.UnimplementedEntries
  refine ⟨fun c p i hi => ⟨readLane_of_unimplemented hi p, readAddr_of_unimplemented hi p,
    writeLane_of_unimplemented hi, writeAddr_of_frozen (by simp [addrFrozen, hi]), fun y => ?_⟩, fun rd rs1 csr s h => ?_⟩
  · simp [matchEntry, readLane_of_unimplemented hi p, laneMode]
  · exact ⟨_, csrInstr_of_ready h .write _ rd _ _, by simp; split <;> simp⟩

theorem csrIsCfg_pmpcfg {m : Nat} (h : m < 16) : csrIsCfg (0x3A0 + m) = true := by
  simp only [csrIsCfg, Bool.and_eq_true, decide_eq_true_eq]; omega

theorem csrIsCfg_pmpaddr (i : Nat) : csrIsCfg (0x3B0 + i) = false := by
  simp only [csrIsCfg, Bool.and_eq_false_iff, decide_eq_false_iff_not]; omega

theorem csrRead_pmpcfg (c : Cfg) (p : PmpRegs) {m : Nat} (h : m < 16) :
    csrRead c p (0x3A0 + m) = readCfgCsr c p m := by
  rw [csrRead, if_pos (csrIsCfg_pmpcfg h), Nat.add_sub_cancel_left]

theorem csrRead_pmpaddr (c : Cfg) (p : PmpRegs) (i : Nat) : csrRead c p (0x3B0 + i) = readAddr c p i := by
  rw [csrRead, if_neg (by rw [csrIsCfg_pmpaddr]; decide), Nat.add_sub_cancel_left]

theorem csrWriteRegs_pmpcfg (c : Cfg) {m : Nat} (h : m < 16) (v : Word) (p : PmpRegs) :
    csrWriteRegs c (0x3A0 + m) v p = writeCfgCsr c m v p := by
  rw [csrWriteRegs, if_pos (csrIsCfg_pmpcfg h), Nat.add_sub_cancel_left]

theorem csrWriteRegs_pmpaddr (c : Cfg) (i : Nat) (v : Word) (p : PmpRegs) :
    csrWriteRegs c (0x3B0 + i) v p = writeAddr c i v p := by
  rw [csrWriteRegs, if_neg (by rw [csrIsCfg_pmpaddr]; decide), Nat.add_sub_cancel_left]

/-- Byte lane `k` of a `pmpcfg` CSR is the byte of entry `4N + k` (R41, R42). -/
theorem readCfgCsr_lane (c : Cfg) (p : PmpRegs) (m : Nat) {k : Nat} (hk : k < xlen c / 8) :
    (readCfgCsr c p m).extractLsb' (8 * k) 8 = readLane c p (4 * m + k) := by
  have hx := xlen_le c
  apply BitVec.eq_of_getLsbD_eq
  intro j hj
  have h64 : 8 * k + j < 64 := by omega
  have hdiv : (8 * k + j) / 8 = k := by omega
  have hmod : (8 * k + j) % 8 = j := by omega
  rw [BitVec.getLsbD_extractLsb', readCfgCsr, BitVec.getLsbD_ofNat, leNat_testBit, List.getD_eq_getElem?_getD, hdiv,
    hmod, List.getElem?_map, List.getElem?_range hk]
  simp [hj, h64]

/-- Settles O37: the lanes of a configuration CSR, and an address CSR. -/
theorem csrReadPacks : Obligations.CsrReadPacks := by
  unfold Obligations.CsrReadPacks
  refine fun c p => ⟨fun m k hm hk => ?_, fun i _ => csrRead_pmpaddr c p i⟩
  rw [csrRead_pmpcfg c p hm, readCfgCsr_lane c p m hk]

/-- The first `n` lane writes of `writeCfgCsr`, to the entries from `base` on. -/
def writeLanes (c : Cfg) (base : Nat) (v : Word) (p : PmpRegs) (n : Nat) : PmpRegs :=
  (List.range n).foldl (fun q k => writeLane c (base + k) (v.extractLsb' (8 * k) 8) q) p

theorem writeCfgCsr_eq_writeLanes (c : Cfg) (m : Nat) (v : Word) (p : PmpRegs) :
    writeCfgCsr c m v p = writeLanes c (4 * m) v p (xlen c / 8) := rfl

theorem writeLanes_succ (c : Cfg) (base : Nat) (v : Word) (p : PmpRegs) (n : Nat) :
    writeLanes c base v p (n + 1) = writeLane c (base + n) (v.extractLsb' (8 * n) 8) (writeLanes c base v p n) := by
  simp [writeLanes, List.range_succ]

theorem writeLanes_addr (c : Cfg) (base : Nat) (v : Word) (p : PmpRegs) (n : Nat) :
    (writeLanes c base v p n).addr = p.addr := by
  induction n with
  | zero => rfl
  | succ n ih => rw [writeLanes_succ, writeLane_addr, ih]

theorem writeLanes_cfg_out (c : Cfg) (base : Nat) (v : Word) (p : PmpRegs) {n : Nat} {i : Fin 64}
    (h : i.val < base ∨ base + n ≤ i.val) : (writeLanes c base v p n).cfg[i] = p.cfg[i] := by
  induction n with
  | zero => rfl
  | succ n ih => rw [writeLanes_succ, writeLane_cfg_ne _ _ (by omega), ih (by omega)]

/-- Lanes are written independently: before its own turn no write touches the byte of an entry, nor after (R59). -/
theorem writeLanes_cfg_in (c : Cfg) (base : Nat) (v : Word) (p : PmpRegs) {n k : Nat} {i : Fin 64} (hk : k < n)
    (hi : i.val = base + k) : (writeLanes c base v p n).cfg[i] = (writeLane c i (v.extractLsb' (8 * k) 8) p).cfg[i] := by
  induction n with
  | zero => omega
  | succ n ih =>
    rw [writeLanes_succ]
    by_cases hkn : k = n
    · subst hkn
      rw [← hi, writeLane_cfg_self, writeLane_cfg_self, writeLanes_cfg_out _ _ _ _ (by omega)]
    · rw [writeLane_cfg_ne _ _ (by omega), ih (by omega)]

/-- Settles O38, by the lanes of the write. -/
theorem csrWriteLanes : Obligations.CsrWriteLanes := by
  unfold Obligations.CsrWriteLanes
  intro c p m v hm
  rw [csrWriteRegs_pmpcfg c hm, writeCfgCsr_eq_writeLanes]
  exact ⟨writeLanes_addr .., fun i => ⟨fun k hk hi => writeLanes_cfg_in c _ v p hk hi, writeLanes_cfg_out c _ v p⟩⟩

/-! ## CSR instructions that raise or are refused (R43, R44, R58) -/

/-- `raise IllegalInstruction` hands over the word and changes nothing else (R296, R302). -/
theorem illegal_trapsWith (i : Instr) (s : State) :
    ∃ t, illegal i s = .next t ∧ trapsWith s t .illegalInstruction ((encode i).setWidth 64) := by
  refine ⟨_, rfl, by simp, by simp, fun r => by simp, ⟨fun a => by simp, by simp⟩, by simp, by simp, by simp, by simp,
    by simp, by simp, by simp, freeResv_resv s⟩

theorem csrInScope_iff {a : Nat} : csrInScope a = true ↔ 0x3A0 ≤ a ∧ a ≤ 0x3EF := by simp [csrInScope]

theorem csrIllegalOdd_iff {c : Cfg} {a : Nat} :
    csrIllegalOdd c a = true ↔ c.mxlen = .rv64 ∧ (0x3A0 ≤ a ∧ a ≤ 0x3AF) ∧ a % 2 = 1 := by
  simp [csrIllegalOdd, csrIsCfg, and_assoc]

theorem csrInstr_illegal {s : State} {csr : BitVec 12} (hscope : csrInScope csr.toNat = true)
    (h : s.priv ≠ .machine ∨ csrIllegalOdd s.cfg csr.toNat = true) (op : CsrOp) (i : Instr) (rd : Reg) (src : Word)
    (z : Bool) : csrInstr op i rd csr src z s = illegal i s := by
  unfold csrInstr
  by_cases hp : s.priv = .machine
  · simp [hscope, hp, h.resolve_left (not_not.2 hp)]
  · simp [hscope, hp]

theorem csrInstr_outOfScope {csr : BitVec 12} (h : csrInScope csr.toNat = false) (op : CsrOp) (i : Instr) (rd : Reg)
    (src : Word) (z : Bool) (s : State) : csrInstr op i rd csr src z s = .refused (.csrOutOfScope csr.toNat) := by
  simp [csrInstr, h]

/-- Every form of CSR instruction is one `csrInstr` with its own word (R281). -/
theorem exec_eq_csrInstr {i : Instr} {csr : BitVec 12} (s : State)
    (h : (∃ rd rs1, i = .csrrw rd csr rs1 ∨ i = .csrrs rd csr rs1 ∨ i = .csrrc rd csr rs1) ∨
      ∃ rd uimm, i = .csrrwi rd csr uimm ∨ i = .csrrsi rd csr uimm ∨ i = .csrrci rd csr uimm) :
    ∃ op rd src z, exec i s = csrInstr op i rd csr src z s := by
  rcases h with ⟨rd, rs1, rfl | rfl | rfl⟩ | ⟨rd, uimm, rfl | rfl | rfl⟩ <;> exact ⟨_, _, _, _, rfl⟩

/-- Settles O41: the tests of `csrInstr` in their order. -/
theorem csrTraps : Obligations.CsrTraps := by
  unfold Obligations.CsrTraps
  intro i csr s hi
  obtain ⟨op, rd, src, z, hexec⟩ := exec_eq_csrInstr s hi
  refine ⟨fun hscope h => ?_, fun hout => ?_⟩
  · have hill : s.priv ≠ .machine ∨ csrIllegalOdd s.cfg csr.toNat = true := by
      rw [csrIllegalOdd_iff]
      tauto
    rw [hexec, csrInstr_illegal (csrInScope_iff.2 hscope) hill]
    exact illegal_trapsWith i s
  · have hno : csrInScope csr.toNat = false := by
      rw [Bool.eq_false_iff, Ne, csrInScope_iff]
      omega
    rw [hexec, csrInstr_outOfScope hno]

/-! ## Finding the grain (R61, R289) -/

/-- With `rd = x0` a `csrrwi` writes and does not read (R281). -/
theorem exec_csrrwi_discard {s : State} {csr : BitVec 12} (h : csrReady s csr = true) (uimm : BitVec 5) :
    exec (.csrrwi 0 csr uimm) s = .next (advance (csrWrite csr.toNat (uimmValue uimm) s)) := by
  refine (csrInstr_of_ready h .write _ 0 _ _).trans ?_
  simp [csrNew]

/-- With `rd = x0` a `csrrw` writes and does not read (R281). -/
theorem exec_csrrw_discard {s : State} {csr : BitVec 12} (h : csrReady s csr = true) (rs1 : Reg) :
    exec (.csrrw 0 csr rs1) s = .next (advance (csrWrite csr.toNat (readReg s rs1) s)) := by
  refine (csrInstr_of_ready h .write _ 0 _ _).trans ?_
  simp [csrNew]

/-- With `rs1 = x0` a `csrrs` reads and does not write (R281). -/
theorem exec_csrrs_readOnly {s : State} {csr : BitVec 12} (h : csrReady s csr = true) (rd : Reg) :
    exec (.csrrs rd csr 0) s = .next (advance (writeReg rd (csrRead s.cfg s.pmp csr.toNat) s)) := by
  refine (csrInstr_of_ready h .set _ rd _ _).trans ?_
  simp

/-- A CSR instruction may execute in M-mode on `pmpcfg0` and on `pmpaddr0`. -/
theorem csrReady_of_machine {s : State} (h : s.priv = .machine) :
    csrReady s 0x3A0 = true ∧ csrReady s 0x3B0 = true := by
  simp [csrReady, csrInScope, csrIllegalOdd, csrIsCfg, h]

/-- Writing zero stores zero in an entry that is not hardwired: zero is legal (R50). -/
theorem legalizeCfg_zero {c : Cfg} {i : Nat} (h : c.hardwired.contains i = false) (old : Byte) :
    legalizeCfg c i old 0 = 0 :=
  legalizeCfg_of_legal h (by simpa using legalLane_zero c) old

/-- A write of zero makes no entry a locked TOR one: hardwired and locked bytes stay, every other becomes zero. -/
theorem writeLane_zero_lockedTor {c : Cfg} {p : PmpRegs} {i : Fin 64}
    (h : ¬(laneL p.cfg[i] = true ∧ laneMode p.cfg[i] = .tor)) :
    ¬(laneL (writeLane c i 0 p).cfg[i] = true ∧ laneMode (writeLane c i 0 p).cfg[i] = .tor) := by
  rw [writeLane_cfg_self]
  split
  · exact h
  · cases hw : c.hardwired.contains i.val with
    | true => rwa [legalizeCfg_of_hardwired hw]
    | false => rw [legalizeCfg_zero hw]; decide

/-- All ones stored in an OFF or TOR entry read as ones from bit `G` up (R55, R61). -/
theorem readAddrNat_of_ones {c : Cfg} {p : PmpRegs} {i k : Nat} (hi : i < npmp c)
    (hA : laneA1 (readLane c p i) = false) (hones : storedAddr c p i = 2 ^ k - 1) (j : Nat) :
    (readAddrNat c p i).testBit j = (decide (c.grain ≤ j) && decide (j < k)) := by
  rw [readAddrNat_testBit hi, hones, Nat.testBit_two_pow_sub_one, if_neg (by simp [hA])]
  by_cases hg : 1 ≤ c.grain
  · rw [if_pos ⟨hA, hg⟩]
  · rw [if_neg (fun h => hg h.2), decide_eq_true (by omega : c.grain ≤ j), Bool.true_and]

theorem npmp_cases (c : Cfg) : npmp c = 0 ∨ npmp c = 16 ∨ npmp c = 64 := by
  unfold npmp; cases c.npmp <;> simp

/-- After zero in entry 0's byte its byte is zero, and no locked TOR entry above it has appeared. -/
theorem pmpcfg0_zero {c : Cfg} {p : PmpRegs} (hn : 0 < npmp c) (hw : c.hardwired.contains 0 = false)
    (hl : laneL (readLane c p 0) = false)
    (htor : ¬(laneL (readLane c p 1) = true ∧ laneMode (readLane c p 1) = .tor)) :
    readLane c (csrWriteRegs c 0x3A0 0 p) 0 = 0 ∧
      ¬(laneL (readLane c (csrWriteRegs c 0x3A0 0 p) 1) = true ∧
        laneMode (readLane c (csrWriteRegs c 0x3A0 0 p) 1) = .tor) := by
  have hlanes : 1 < xlen c / 8 := by rcases xlen_eq c with e | e <;> rw [e] <;> decide
  have h1 : 1 < npmp c := by rcases npmp_cases c with e | e | e <;> omega
  have read0 (q : PmpRegs) : readLane c q 0 = q.cfg[(0 : Fin 64)] := readLane_of_lt (i := 0) hn
  have read1 (q : PmpRegs) : readLane c q 1 = q.cfg[(1 : Fin 64)] := readLane_of_lt (i := 1) h1
  have hbyte (k : Nat) : (0 : Word).extractLsb' k 8 = 0 := by ext; simp
  have lane (i : Fin 64) (hi : i.val ≤ 1) :
      (csrWriteRegs c 0x3A0 0 p).cfg[i] = (writeLane c i 0 p).cfg[i] := by
    have h := writeLanes_cfg_in c (4 * 0) 0 p (n := xlen c / 8) (k := i.val) (i := i) (by omega) (by omega)
    rwa [← writeCfgCsr_eq_writeLanes, ← csrWriteRegs_pmpcfg c (by decide), hbyte] at h
  rw [read0] at hl
  rw [read1] at htor
  rw [read0, read1, lane 0 (by decide), lane 1 (by decide)]
  refine ⟨?_, writeLane_zero_lockedTor htor⟩
  rw [writeLane_cfg_self, if_neg (not_or.2 ⟨by simpa using hn.ne', by rw [hl]; decide⟩)]
  exact legalizeCfg_zero hw _

/-- After all ones in the address register of an entry that is OFF and not frozen, it reads as ones from bit `G` up to
the implemented physical address bits. -/
theorem readAddr_after_ones {c : Cfg} {p : PmpRegs} {v : Word} (hn : 0 < npmp c) (hoff : readLane c p 0 = 0)
    (hfr : addrFrozen c p 0 = false) (hpa : c.pabits ≤ palen c) (hv : v.toNat = 2 ^ xlen c - 1) {j : Nat}
    (hj : j < xlen c) :
    (readAddr c (writeAddr c 0 v p) 0).getLsbD j = (decide (c.grain ≤ j) && decide (j < c.pabits - 2)) := by
  have hpx := palen_le_xlen c
  have hmod : v.toNat % 2 ^ (c.pabits - 2) = 2 ^ (c.pabits - 2) - 1 := by
    refine Nat.eq_of_testBit_eq fun b => ?_
    rw [hv, Nat.testBit_mod_two_pow, Nat.testBit_two_pow_sub_one, Nat.testBit_two_pow_sub_one,
      ← Bool.decide_and]
    exact decide_eq_decide.2 (by omega)
  have haddr : (writeAddr c 0 v p).addr[(0 : Fin 64)] = legalizeAddr c v := by
    have e := writeAddr_of_not_frozen (i := (0 : Fin 64)) hfr v
    simp only [Fin.val_zero] at e
    rw [e]
    exact Vector.getElem_set_self (by decide)
  have hstored : storedAddr c (writeAddr c 0 v p) 0 = 2 ^ (c.pabits - 2) - 1 := by
    have hnat : (writeAddr c 0 v p).addr[(0 : Fin 64)].toNat = 2 ^ (c.pabits - 2) - 1 := by
      rw [haddr, legalizeAddr_toNat, hmod]
    have hle : 2 ^ (c.pabits - 2) ≤ 2 ^ (palen c - 2) := Nat.pow_le_pow_right (by decide) (by omega)
    have hpos := Nat.two_pow_pos (c.pabits - 2)
    rw [← hnat]
    exact storedAddr_of_lt (i := (0 : Fin 64)) hn (by omega)
  have hA : laneA1 (readLane c (writeAddr c 0 v p) 0) = false := by
    have : readLane c (writeAddr c 0 v p) 0 = readLane c p 0 := by simp [readLane, writeAddr_cfg]
    rw [this, hoff]; decide
  rw [readAddr_getLsbD _ _ _ hj, readAddrNat_of_ones hn hA hstored]

/-- The state after the two writes of the sequence: zero to `pmpcfg0`, then `x5` to `pmpaddr0`. -/
def afterGrainWrites (s : State) : State := advance (csrWrite 0x3B0 (readReg s 5) (advance (csrWrite 0x3A0 0 s)))

/-- In M-mode the two writes complete. -/
theorem exec_grainWrites {s : State} (h : s.priv = .machine) :
    exec (.csrrwi 0 0x3A0 0) s = .next (advance (csrWrite 0x3A0 0 s)) ∧
      exec (.csrrw 0 0x3B0 5) (advance (csrWrite 0x3A0 0 s)) = .next (afterGrainWrites s) := by
  refine ⟨exec_csrrwi_discard (csrReady_of_machine h).1 0, ?_⟩
  have e := exec_csrrw_discard (csrReady_of_machine (s := advance (csrWrite 0x3A0 0 s)) h).2 5
  rwa [readReg_advance, readReg_csrWrite] at e

@[simp] theorem afterGrainWrites_cfg (s : State) : (afterGrainWrites s).cfg = s.cfg := rfl

theorem afterGrainWrites_pmp (s : State) :
    (afterGrainWrites s).pmp = writeAddr s.cfg 0 (readReg s 5) (csrWriteRegs s.cfg 0x3A0 0 s.pmp) :=
  csrWriteRegs_pmpaddr s.cfg 0 (readReg s 5) _

/-- Settles O39: the three instructions complete, and the value read is ones from bit `G` up. -/
theorem grainDetection : Obligations.GrainDetection := by
  unfold Obligations.GrainDetection
  intro s hpriv hn hw hl htor hg hpa hones
  obtain ⟨hzero, htor'⟩ := pmpcfg0_zero hn hw hl htor
  have hfr : addrFrozen s.cfg (csrWriteRegs s.cfg 0x3A0 0 s.pmp) 0 = false := by
    rw [Bool.eq_false_iff, Ne, addrFrozen_iff hw, hzero]
    rintro (h | h | ⟨-, h⟩)
    · omega
    · exact absurd h (by decide)
    · exact htor' h
  have hread : ∀ j, j < xlen s.cfg →
      (readReg (advance (writeReg 6 (csrRead (afterGrainWrites s).cfg (afterGrainWrites s).pmp 0x3B0)
        (afterGrainWrites s))) 6).getLsbD j = (decide (s.cfg.grain ≤ j) && decide (j < s.cfg.pabits - 2)) := by
    intro j hj
    rw [readReg_advance, readReg_writeReg_self, if_neg (by decide), getLsbD_truncX, afterGrainWrites_cfg,
      decide_eq_true hj, Bool.true_and, afterGrainWrites_pmp, csrRead_pmpaddr s.cfg _ 0]
    exact readAddr_after_ones hn hzero hfr hpa hones hj
  have hx := palen_le_xlen s.cfg
  obtain ⟨hwrite0, hwrite1⟩ := exec_grainWrites hpriv
  refine ⟨_, _, _, hwrite0, hwrite1, exec_csrrs_readOnly (csrReady_of_machine (s := afterGrainWrites s) hpriv).2 6, ?_,
    fun j hj => ?_⟩
  · refine (hread _ (by omega)).trans ?_
    simp; omega
  · refine (hread _ (by omega)).trans ?_
    simp; omega

/-! ## Reset (R67, R331) -/

/-- After reset every configuration byte reads as zero. -/
theorem readLane_reset (c : Cfg) (i : Nat) : readLane c PmpRegs.reset i = 0 := by simp [readLane, PmpRegs.reset]

/-- With every entry OFF the mode alone decides (R139, R332). -/
theorem pmpCheck_reset (c : Cfg) (pa n : Nat) (t : AccessType) (mode : Priv) :
    pmpCheck c PmpRegs.reset pa n t mode = noMatch c mode :=
  pmpCheck_none fun j _ => by simp [hitsSome, matchEntry, readLane_reset, laneMode]

/-- Settles O11: the fields by definition, the PMP checks by the mode. -/
theorem resetState : Obligations.ResetState := by
  unfold Obligations.ResetState
  refine fun c => ⟨fun i => ?_, rfl, rfl, rfl, rfl, rfl, rfl, fun pa n t => ?_, fun hn pa n t mode hm => ?_⟩
  · have hzero : (State.resetOn c).pmp.cfg[i] = 0 := Vector.getElem_replicate i.isLt
    rw [hzero]; decide
  · exact pmpCheck_reset c pa n t .machine
  · refine (pmpCheck_reset c pa n t mode).trans ?_
    simp [noMatch, hm, hn]

theorem legal_reset (c : Cfg) : PmpRegs.reset.legal c := by
  intro i
  have hcfg : PmpRegs.reset.cfg[i] = 0 := Vector.getElem_replicate i.isLt
  have haddr : PmpRegs.reset.addr[i] = 0 := Vector.getElem_replicate i.isLt
  rw [hcfg, haddr]
  exact ⟨legalLane_zero c, Nat.two_pow_pos _, fun _ => ⟨rfl, rfl⟩⟩

/-- The reset vector of a well-formed platform is an XLEN-bit multiple of 4 (R13, R67). -/
theorem resetVector_of_wf {c : Cfg} (hc : c.wf = true) :
    c.resetVector.toNat < 2 ^ xlen c ∧ c.resetVector.toNat % 4 = 0 := by
  simp only [Cfg.wf, Bool.and_eq_true, Bool.or_eq_true, decide_eq_true_eq, beq_iff_eq] at hc
  obtain ⟨⟨⟨⟨⟨⟨-, -⟩, h4⟩, h32⟩, -⟩, -⟩, -⟩ := hc
  refine ⟨?_, h4⟩
  have h64 := c.resetVector.isLt
  unfold xlen
  cases hm : c.mxlen with
  | rv32 => simpa [hm] using h32
  | rv64 => exact h64

/-- Settles O10, clause by clause: memory and records are empty, registers zero, the pc the reset vector. -/
theorem resetMeetsInv : Obligations.ResetMeetsInv := by
  unfold Obligations.ResetMeetsInv
  intro c hc
  obtain ⟨hlt, hal⟩ := resetVector_of_wf hc
  have hx (i : Fin 32) : (State.resetOn c).x[i] = 0 := Vector.getElem_replicate i.isLt
  refine ⟨Memory.wf_nil, fun _ h => absurd h List.not_mem_nil, List.Pairwise.nil, fun i => ?_, hx 0, hlt, hal,
    legal_reset c, fun _ h => absurd h List.not_mem_nil, fun _ => rfl, fun _ h => (Option.not_mem_none _ h).elim,
    fun _ h => (Option.not_mem_none _ h).elim⟩
  rw [hx i]
  exact Nat.two_pow_pos _

/-! ## The stops of a step (R32, R107, R151, R179, R303) -/

theorem step_of_trap {s : State} {t : Trap} (h : s.trap = some t) : step s = .fault .trapHandedToEnvironment := by
  simp [step, h]

theorem step_of_misalignedPc {s : State} (htr : s.trap = none) (h : (curPc s).toNat % 4 ≠ 0) :
    step s = .refused .misalignedPc := by
  simp [step, htr, h]

theorem step_of_fetch_refuse {s : State} {q : Refusal} (htr : s.trap = none) (hal : (curPc s).toNat % 4 = 0)
    (h : fetch s = .refuse q) : step s = .refused q := by
  simp [step, htr, hal, h]

/-- An aligned access to a region with an implementation-defined memory model is refused (R107, R140). -/
theorem access_refusesModel {kind : AccessKind} {va : Word} {n : Nat} {s : State} {r : PmaRegion}
    (htr : translatable s.cfg va n = true) (hal : va.toNat % n = 0) (hr : pmaOf s.cfg va.toNat = some r)
    (hsame : sameRegion r va.toNat n = true) (hm : refusesModel r = true) :
    access kind va n s = .refuse .implDefinedMemoryModel := by
  have hpart : checkPart kind va n s = .refuse .implDefinedMemoryModel := by simp [checkPart, hr, hsame, hm]
  simp [access, htr, hpart, alignStage, hal]

/-- Settles O7: the tests of a step and of its fetch, in their order. -/
theorem stepStopsByName : Obligations.StepStopsByName := by
  unfold Obligations.StepStopsByName
  refine ⟨fun s t h => step_of_trap h, fun s htr => ⟨step_of_misalignedPc htr, fun hal htl => ⟨?model, ?stored, ?noRow⟩⟩⟩
  case model =>
    intro r hr hsame hm
    exact step_of_fetch_refuse htr hal (by simp [fetch, access_refusesModel htl hal hr hsame hm])
  case stored =>
    intro hg hst
    exact step_of_fetch_refuse htr hal (by rw [fetch_granted hg, touchesStored_iff.2 hst, if_pos rfl])
  case noRow =>
    intro hg hst hdec
    have hts : touchesStored s (curPc s).toNat 4 = false := by
      rw [Bool.eq_false_iff, Ne, touchesStored_iff]
      rintro ⟨k, hk, hmem⟩
      exact hst k hk hmem
    simp [step, htr, hal, fetch_granted hg, hts, hdec]

/-! ## The frame of an instruction that completes (R30 to R35) -/

/-- The accesses of an instruction leave memory alone outside its target. -/
theorem Accesses.mem_out {i : Instr} {s u : State} (h : Accesses i s u) {a : Nat}
    (ha : ∀ va n, storeTarget i s = some (va, n) → a < va ∨ va + n ≤ a) : Memory.get u.mem a = Memory.get s.mem a := by
  rcases h with hr | ⟨va, n, src, hst, hw⟩
  · rw [hr.mem]
  · exact hw.mem_out (ha va n hst)

theorem Reads.events {s u : State} (h : Reads s u) : eventsExtend s u := (h.writes (size := 0) 0 0).events

theorem Accesses.events {i : Instr} {s u : State} (h : Accesses i s u) : eventsExtend s u := by
  rcases h with hr | ⟨va, n, src, -, hw⟩
  · exact hr.events
  · exact hw.events

section
variable {i : Instr} {s u : State}

/-- No body changes the platform, the pc, the mode or a trap. -/
theorem Body.modes (h : Body i s u) : u.cfg = s.cfg ∧ u.pc = s.pc ∧ u.priv = s.priv ∧ u.mprv = s.mprv ∧ u.mpp = s.mpp := by
  induction h with
  | access h => exact ⟨h.core.cfg, h.core.pc, h.core.priv, h.core.mprv, h.core.mpp⟩
  | reg rd v _ _ ih => simpa using ih
  | keepResv _ _ ih => simpa using ih
  | setResv o _ _ _ ih => exact ih
  | dropStale => exact ⟨rfl, rfl, rfl, rfl, rfl⟩
  | csr a v _ _ => exact ⟨rfl, rfl, rfl, rfl, rfl⟩

/-- Only a CSR instruction in M-mode writes a PMP register (R44, R59). -/
theorem Body.pmp (h : Body i s u) :
    u.pmp = s.pmp ∨ isCsrInstr i = true ∧ s.priv = .machine ∧ ∃ a v, u.pmp = csrWriteRegs s.cfg a v s.pmp := by
  induction h with
  | access h => exact .inl h.core.pmp
  | reg rd v _ _ ih => simpa using ih
  | keepResv _ _ ih => simpa using ih
  | setResv o _ _ _ ih => exact ih
  | dropStale => exact .inl rfl
  | csr a v hc hp => exact .inr ⟨hc, hp, a, v, rfl⟩

/-- Only a CSR instruction adds snapshots, and only `sfence.vma x0, x0` drops them (R64, R272). -/
theorem Body.stale (h : Body i s u) (hc : isCsrInstr i = false) (hf : i ≠ .sfenceVma 0 0) : u.stale = s.stale := by
  induction h with
  | access h => exact h.core.stale
  | reg rd v _ _ ih => simpa using ih
  | keepResv _ _ ih => simpa using ih
  | setResv o _ _ _ ih => exact ih
  | dropStale h _ => exact absurd h hf
  | csr a v h _ => rw [hc] at h; cases h

/-- An instruction that leaves the reservation alone does (R233). -/
theorem Body.resv (h : Body i s u) (hl : leavesReservation i = true) : u.resv = s.resv := by
  induction h with
  | access h => exact h.core.resv
  | reg rd v _ _ ih => simpa using ih
  | keepResv h _ _ => rw [hl] at h; cases h
  | setResv o h _ _ _ => rw [hl] at h; cases h
  | dropStale => rfl
  | csr a v _ _ => rfl

/-- Only the destination register changes (R31). -/
theorem Body.readReg (h : Body i s u) {r : Reg} (hr : destOf i ≠ some r) :
    Machine.readReg u r = Machine.readReg s r := by
  induction h with
  | access h => exact h.core.readReg r
  | reg rd v hd _ ih =>
    rw [readReg_writeReg_ne _ _ (fun e => hr (by rw [e, hd])), ih]
  | keepResv _ _ ih => simpa using ih
  | setResv o _ _ _ ih => exact ih
  | dropStale => rfl
  | csr a v _ _ => simp

/-- Memory changes inside the target of the store only (R82). -/
theorem Body.mem_out (h : Body i s u) {a : Nat}
    (ha : ∀ va n, storeTarget i s = some (va, n) → a < va ∨ va + n ≤ a) : Memory.get u.mem a = Memory.get s.mem a := by
  induction h with
  | access h => exact h.mem_out ha
  | reg rd v _ _ ih => simpa using ih
  | keepResv _ _ ih => simpa using ih
  | setResv o _ _ _ ih => exact ih
  | dropStale => rfl
  | csr a v _ _ => rfl

/-- Device accesses are recorded, none is forgotten (R120). -/
theorem Body.events (h : Body i s u) : eventsExtend s u := by
  induction h with
  | access h => exact h.events
  | reg rd v _ _ ih => simpa [eventsExtend] using ih
  | keepResv _ _ ih => simpa [eventsExtend] using ih
  | setResv o _ _ _ ih => exact ih
  | dropStale => exact ⟨[], by simp⟩
  | csr a v _ _ => exact ⟨[], by simp⟩

theorem Body.movesOn (h : Body i s u) : Machine.movesOn s (advance u) := by
  obtain ⟨hcfg, hpc, -⟩ := h.modes
  rw [Machine.movesOn, advance_pc_toNat, curPc, curPc, hcfg, hpc]

/-- An instruction that leaves no trap has completed its body. -/
theorem exec_completed {t : State} (h : exec i s = .next t) (ht : t.trap = none) : ∃ u, Body i s u ∧ t = advance u := by
  rcases exec_next h with hb | ⟨u, τ, -, -, rfl⟩
  · exact hb
  · simp at ht

end

/-- Settles O13, from the frame of the body: the pc moves after it and changes nothing else. -/
theorem completedFrame : Obligations.CompletedFrame := by
  unfold Obligations.CompletedFrame
  intro i s t _ h ht
  obtain ⟨u, hb, rfl⟩ := exec_completed h ht
  obtain ⟨hcfg, -, hpriv, hmprv, hmpp⟩ := hb.modes
  refine ⟨hb.movesOn, hcfg, hpriv, hmprv, hmpp, fun hc => ?_, hb.stale, hb.resv, fun r hr => ?_,
    fun a ha => hb.mem_out ha, hb.events⟩
  · rcases hb.pmp with e | ⟨hcsr, -⟩
    · exact e
    · rw [hc] at hcsr; cases hcsr
  · rw [readReg_advance, hb.readReg hr]

/-! ## The modes and the PMP registers over a step (R34, R35, R44) -/

/-- An instruction that completes or traps keeps the modes and the platform. -/
theorem Ends.modes {i : Instr} {s t : State} (h : Ends i s t) :
    t.priv = s.priv ∧ t.mprv = s.mprv ∧ t.mpp = s.mpp ∧ t.cfg = s.cfg := by
  rcases h with ⟨u, hb, rfl⟩ | ⟨u, τ, ha, -, rfl⟩
  · obtain ⟨hcfg, -, hpriv, hmprv, hmpp⟩ := hb.modes
    exact ⟨hpriv, hmprv, hmpp, hcfg⟩
  · have hc := ha.core
    simp [hc.priv, hc.mprv, hc.mpp, hc.cfg]

theorem Ends.pmp {i : Instr} {s t : State} (h : Ends i s t) :
    t.pmp = s.pmp ∨ isCsrInstr i = true ∧ s.priv = .machine ∧ ∃ a v, t.pmp = csrWriteRegs s.cfg a v s.pmp := by
  rcases h with ⟨u, hb, rfl⟩ | ⟨u, τ, ha, -, rfl⟩
  · exact hb.pmp
  · exact .inl (by simp [ha.core.pmp])

/-- Settles O12: a fetch that traps has only read, and so has the fetch before an instruction. -/
theorem stepKeepsModeAndPlatform : Obligations.StepKeepsModeAndPlatform := by
  unfold Obligations.StepKeepsModeAndPlatform
  intro s t h
  obtain ⟨-, -, ⟨u, hr, rfl⟩ | ⟨i, u, hr, -, -, -, he⟩⟩ := step_next h
  · have hc := hr.core
    simp [hc.priv, hc.mprv, hc.mpp, hc.cfg]
  · obtain ⟨hpriv, hmprv, hmpp, hcfg⟩ := he.modes
    exact ⟨hpriv.trans hr.core.priv, hmprv.trans hr.core.mprv, hmpp.trans hr.core.mpp, hcfg.trans hr.core.cfg⟩

/-- A step keeps the PMP registers, or it is a CSR write of M-mode. -/
theorem step_pmp {s t : State} (h : step s = .next t) :
    t.pmp = s.pmp ∨ (∃ a v, t.pmp = csrWriteRegs s.cfg a v s.pmp) ∧ s.priv = .machine ∧
      ∃ i, decode (valueAt s (curPc s) 4) = some i ∧ isCsrInstr i = true := by
  obtain ⟨-, -, ⟨u, hr, rfl⟩ | ⟨i, u, hr, -, hi, -, he⟩⟩ := step_next h
  · exact .inl (by simp [hr.core.pmp])
  · have hc := hr.core
    rw [← hc.pmp, ← hc.cfg, ← hc.priv]
    rcases he.pmp with e | ⟨hcsr, hp, hw⟩
    · exact .inl e
    · exact .inr ⟨hw, hp, i, hi, hcsr⟩

/-- Settles O16, by what a step can do to the PMP registers. -/
theorem pmpChangesOnlyInMMode : Obligations.PmpChangesOnlyInMMode := by
  unfold Obligations.PmpChangesOnlyInMMode
  intro s t h hne
  rcases step_pmp h with e | ⟨-, hp, hi⟩
  · exact absurd e hne
  · exact ⟨hp, hi⟩

/-! ## Locked entries (R49, R57, R62) -/

/-- Entry `i` is as it was: its byte, its address register and, for a TOR entry, the address register below it. -/
structure EntryKept (i : Fin 64) (p q : PmpRegs) : Prop where
  cfg : q.cfg[i] = p.cfg[i]
  addr : q.addr[i] = p.addr[i]
  below : laneMode p.cfg[i] = .tor → ∀ j : Fin 64, j.val + 1 = i.val → q.addr[j] = p.addr[j]

theorem EntryKept.refl (i : Fin 64) (p : PmpRegs) : EntryKept i p p := ⟨rfl, rfl, fun _ _ _ => rfl⟩

theorem EntryKept.trans {i : Fin 64} {p q r : PmpRegs} (h : EntryKept i p q) (k : EntryKept i q r) : EntryKept i p r :=
  ⟨k.cfg.trans h.cfg, k.addr.trans h.addr, fun ht j hj => (k.below (h.cfg ▸ ht) j hj).trans (h.below ht j hj)⟩

/-- An entry that is kept stays locked. -/
theorem EntryKept.locked {c : Cfg} {i : Fin 64} {p q : PmpRegs} (h : EntryKept i p q)
    (hl : laneL (readLane c p i) = true) : laneL (readLane c q i) = true := by
  obtain ⟨hn, hl, -⟩ := readLane_locked hl
  rw [readLane_of_lt hn, h.cfg, hl]

/-- A write of any configuration byte keeps a locked entry. -/
theorem entryKept_writeLane {c : Cfg} {i : Fin 64} {p : PmpRegs} (hl : laneL (readLane c p i) = true) (k : Nat) (w : Byte) :
    EntryKept i p (writeLane c k w p) := by
  obtain ⟨-, hl, -⟩ := readLane_locked hl
  have haddr := writeLane_addr c k w p
  refine ⟨?_, by rw [haddr], fun _ j _ => by rw [haddr]⟩
  by_cases hk : k = i.val
  · rw [hk, writeLane_of_locked hl]
  · exact writeLane_cfg_ne c p hk w

/-- The address register of a locked entry is frozen, and so is the one below a locked TOR entry (R57). -/
theorem addrFrozen_of_locked {c : Cfg} {i : Fin 64} {p : PmpRegs} (hl : laneL (readLane c p i) = true) :
    addrFrozen c p i = true ∧ (laneMode p.cfg[i] = .tor → ∀ j : Nat, j + 1 = i.val → addrFrozen c p j = true) := by
  refine ⟨by simp [addrFrozen, hl], fun ht j hj => ?_⟩
  obtain ⟨hn, -, he⟩ := readLane_locked hl
  rw [← he] at ht
  simp [addrFrozen, hj, hn, hl, ht]

/-- A write of an address register leaves every other one alone, and itself when it is frozen (R57). -/
theorem writeAddr_addr_of_ne_or_frozen {c : Cfg} {p : PmpRegs} {k : Nat} {j : Fin 64}
    (h : k ≠ j.val ∨ addrFrozen c p j = true) (v : Word) : (writeAddr c k v p).addr[j] = p.addr[j] := by
  by_cases hk : k = j.val
  · rw [hk, writeAddr_of_frozen (h.resolve_left (not_not.2 hk))]
  · rcases writeAddr_cases c k v p with e | ⟨hlt, -, e⟩
    · rw [e]
    · rw [e]; exact Vector.getElem_set_ne hlt j.isLt hk

/-- A write of any address register keeps a locked entry. -/
theorem entryKept_writeAddr {c : Cfg} {i : Fin 64} {p : PmpRegs} (hl : laneL (readLane c p i) = true) (k : Nat) (v : Word) :
    EntryKept i p (writeAddr c k v p) := by
  obtain ⟨hself, hbelow⟩ := addrFrozen_of_locked hl
  exact ⟨by rw [writeAddr_cfg], writeAddr_addr_of_ne_or_frozen (.inr hself) v,
    fun ht j hj => writeAddr_addr_of_ne_or_frozen (.inr (hbelow ht j hj)) v⟩

theorem entryKept_writeLanes {c : Cfg} {i : Fin 64} {p : PmpRegs} (hl : laneL (readLane c p i) = true) (base : Nat)
    (v : Word) (n : Nat) : EntryKept i p (writeLanes c base v p n) := by
  induction n with
  | zero => exact .refl i p
  | succ n ih =>
    rw [writeLanes_succ]
    exact ih.trans (entryKept_writeLane (ih.locked hl) _ _)

/-- A CSR write keeps every locked entry. -/
theorem entryKept_csrWriteRegs {c : Cfg} {i : Fin 64} {p : PmpRegs} (hl : laneL (readLane c p i) = true) (a : Nat)
    (v : Word) : EntryKept i p (csrWriteRegs c a v p) := by
  unfold csrWriteRegs
  split
  · rw [writeCfgCsr_eq_writeLanes]
    exact entryKept_writeLanes hl ..
  · exact entryKept_writeAddr hl _ v

theorem entryKept_step {s t : State} (h : step s = .next t) {i : Fin 64} (hl : laneL (readLane s.cfg s.pmp i) = true) :
    EntryKept i s.pmp t.pmp := by
  rcases step_pmp h with e | ⟨⟨a, v, e⟩, -⟩
  · rw [e]; exact .refl i _
  · rw [e]; exact entryKept_csrWriteRegs hl a v

/-- A run keeps the platform and every locked entry. -/
theorem entryKept_run {k : Nat} {s t : State} (h : runsTo k s t) {i : Fin 64}
    (hl : laneL (readLane s.cfg s.pmp i) = true) : t.cfg = s.cfg ∧ EntryKept i s.pmp t.pmp := by
  induction k generalizing s with
  | zero => obtain rfl : t = s := h; exact ⟨rfl, .refl i _⟩
  | succ k ih =>
    obtain ⟨u, hu, hrun⟩ := h
    have hkept := entryKept_step hu hl
    obtain ⟨-, -, -, hcfg⟩ := stepKeepsModeAndPlatform s u hu
    obtain ⟨hcfg', hkept'⟩ := ih hrun (by rw [hcfg]; exact hkept.locked hl)
    exact ⟨hcfg'.trans hcfg, hkept.trans hkept'⟩

/-- Settles O17, by induction on the length of the run. -/
theorem lockedEntriesStay : Obligations.LockedEntriesStay := by
  unfold Obligations.LockedEntriesStay
  intro k s t h i hl
  obtain ⟨hcfg, hkept⟩ := entryKept_run h hl
  exact ⟨hkept.cfg, by rw [hcfg]; exact hkept.locked hl, hkept.addr, hkept.below⟩

/-! ## The invariant of the machine -/

/-- Writes add mapped bytes only: each passed its checks in one region (R66, R140). -/
theorem Writes.mem_mapped {size lo : Nat} {src : BitVec (8 * size)} {s u : State} (h : Writes lo src s u)
    (hs : ∀ c ∈ s.mem, (pmaOf s.cfg c.1).isSome = true) : ∀ c ∈ u.mem, (pmaOf s.cfg c.1).isSome = true := by
  induction h with
  | start => exact hs
  | tick _ ih => exact ih
  | tickSc _ ih => exact ih
  | read pa n _ ih => simpa using ih
  | write va n kind hw _ _ _ hok ih =>
    intro c hc
    rw [memWrite_mem] at hc
    obtain ⟨r, hr, hsame, -, -⟩ := hok.passed
    rw [hw.core.cfg] at hr
    rcases Memory.mem_write hc with ⟨hlow, hhigh⟩ | hc
    · exact pmaOf_isSome_of_sameRegion hr hsame hlow hhigh
    · exact ih c hc

theorem Writes.stored_sorted {size lo : Nat} {src : BitVec (8 * size)} {s u : State} (h : Writes lo src s u)
    (hs : s.stored.Pairwise (· < ·)) : u.stored.Pairwise (· < ·) := by
  induction h with
  | start => exact hs
  | tick _ ih => exact ih
  | tickSc _ ih => exact ih
  | read pa n _ ih => simpa using ih
  | write va n kind _ _ _ _ _ ih => rw [memWrite_stored]; exact insertAddrs_sorted ih _ _

/-- Reads and writes keep the invariant. -/
theorem Writes.inv {size lo : Nat} {src : BitVec (8 * size)} {s u : State} (h : Writes lo src s u) (hs : s.Inv) :
    u.Inv := by
  obtain ⟨hwf, hmap, hst, hx, hx0, hpc, hal, hpmp, hstale, hvm, hresv, htrap⟩ := hs
  have hc := h.core
  unfold State.Inv
  rw [hc.cfg, hc.x, hc.pc, hc.pmp, hc.stale, hc.resv, hc.trap]
  exact ⟨h.mem_wf hwf, h.mem_mapped hmap, h.stored_sorted hst, hx, hx0, hpc, hal, hpmp, hstale, hvm, hresv, htrap⟩

theorem Reads.inv {s u : State} (h : Reads s u) (hs : s.Inv) : u.Inv := (h.writes (size := 0) 0 0).inv hs

theorem Accesses.inv {i : Instr} {s u : State} (h : Accesses i s u) (hs : s.Inv) : u.Inv := by
  rcases h with hr | ⟨va, n, src, -, hw⟩
  · exact hr.inv hs
  · exact hw.inv hs

theorem TrapAccesses.inv {i : Instr} {s u : State} (h : TrapAccesses i s u) (hs : s.Inv) : u.Inv := by
  rcases h with hr | ⟨-, va, n, -, -, hw⟩
  · exact hr.inv hs
  · exact hw.inv hs

/-- A register write stores XLEN bits, and never to `x0` (R30, R31). -/
theorem inv_writeReg {s : State} (hs : s.Inv) (rd : Reg) (v : Word) : (writeReg rd v s).Inv := by
  obtain ⟨hwf, hmap, hst, hx, hx0, hrest⟩ := hs
  by_cases h0 : rd = 0
  · simp only [writeReg, h0, if_true]
    exact ⟨hwf, hmap, hst, hx, hx0, hrest⟩
  · simp only [writeReg, h0, if_false]
    refine ⟨hwf, hmap, hst, fun i => ?_, ?_, hrest⟩
    · by_cases hi : rd.toNat = i.val
      · simp only [Fin.getElem_fin, ← hi, Vector.getElem_set_self]
        exact truncX_lt _ _
      · simp only [Fin.getElem_fin, Vector.getElem_set_ne _ _ hi]
        exact hx i
    · have hne : rd.toNat ≠ (0 : Fin 32).val := fun e => h0 (BitVec.eq_of_toNat_eq e)
      exact (Vector.getElem_set_ne rd.isLt (0 : Fin 32).isLt hne).trans hx0

/-- A legal reservation, or none, keeps the invariant (R231). -/
theorem inv_setResv {s : State} (hs : s.Inv) {o : Option Reservation} (ho : ∀ r ∈ o, Reservation.legal s.cfg r) :
    State.Inv { s with resv := o } := by
  obtain ⟨hwf, hmap, hst, hx, hx0, hpc, hal, hpmp, hstale, hvm, -, htrap⟩ := hs
  exact ⟨hwf, hmap, hst, hx, hx0, hpc, hal, hpmp, hstale, hvm, ho, htrap⟩

/-- A reservation kept or dropped keeps the invariant (R233). -/
theorem inv_freeResv {s : State} (hs : s.Inv) : (freeResv s).Inv := by
  obtain ⟨hwf, hmap, hst, hx, hx0, hpc, hal, hpmp, hstale, hvm, hresv, htrap⟩ := hs
  simp only [State.Inv, freeResv_mem, freeResv_cfg, freeResv_stored, freeResv_x, freeResv_pc, freeResv_pmp,
    freeResv_stale, freeResv_trap]
  refine ⟨hwf, hmap, hst, hx, hx0, hpc, hal, hpmp, hstale, hvm, fun r hr => ?_, htrap⟩
  rcases freeResv_resv s with e | e
  · exact hresv r (e ▸ hr)
  · exact (Option.not_mem_none r (e ▸ hr)).elim

/-- The trap handed over is legal (R293, R302). -/
theorem inv_takeTrap {s : State} (hs : s.Inv) {τ : Trap} (hτ : Trap.legal s.cfg τ) : (takeTrap τ s).Inv := by
  obtain ⟨hwf, hmap, hst, hx, hx0, hpc, hal, hpmp, hstale, hvm, hresv, -⟩ := inv_freeResv hs
  refine ⟨hwf, hmap, hst, hx, hx0, hpc, hal, hpmp, hstale, hvm, hresv, fun t ht => ?_⟩
  obtain rfl : τ = t := Option.some.inj ht
  rwa [takeTrap_cfg]

/-- Dropping the snapshots keeps the invariant (R272). -/
theorem inv_dropStale {s : State} (hs : s.Inv) : State.Inv { s with stale := [] } := by
  obtain ⟨hwf, hmap, hst, hx, hx0, hpc, hal, hpmp, -, -, hresv, htrap⟩ := hs
  exact ⟨hwf, hmap, hst, hx, hx0, hpc, hal, hpmp, fun _ h => absurd h List.not_mem_nil, fun _ => rfl, hresv, htrap⟩

/-- A CSR write leaves legal registers, and its snapshot holds the legal registers before it (R50, R54, R64). -/
theorem inv_csrWrite {s : State} (hs : s.Inv) (a : Nat) (v : Word) : (csrWrite a v s).Inv := by
  obtain ⟨hwf, hmap, hst, hx, hx0, hpc, hal, hpmp, hstale, hvm, hresv, htrap⟩ := hs
  refine ⟨hwf, hmap, hst, hx, hx0, hpc, hal, legal_csrWriteRegs hpmp a v, ?_, fun h => ?_, hresv, htrap⟩
  · intro p hp
    rw [csrWrite_stale] at hp
    split at hp
    · rcases List.mem_append.1 hp with hp | hp
      · exact hstale p hp
      · obtain rfl := List.mem_singleton.1 hp
        exact hpmp
    · exact hstale p hp
  · rw [csrWrite_cfg] at h
    rw [csrWrite_stale, h]
    exact hvm h

/-- The pc moves by 4 modulo a multiple of 4 (R32, R33). -/
theorem inv_advance {s : State} (hs : s.Inv) : (advance s).Inv := by
  obtain ⟨hwf, hmap, hst, hx, hx0, hpc, hal, hrest⟩ := hs
  refine ⟨hwf, hmap, hst, hx, hx0, truncX_lt _ _, ?_, hrest⟩
  rw [advance_pc_toNat, curPc, truncX_toNat]
  rcases xlen_eq s.cfg with e | e <;> rw [e] at hpc ⊢ <;> omega

theorem Body.inv {i : Instr} {s u : State} (h : Body i s u) (hs : s.Inv) : u.Inv := by
  induction h with
  | access h => exact h.inv hs
  | reg rd v _ _ ih => exact inv_writeReg ih rd v
  | keepResv _ _ ih => exact inv_freeResv ih
  | setResv o _ ho hb ih => exact inv_setResv ih (by rw [hb.modes.1]; exact ho)
  | dropStale => exact inv_dropStale hs
  | csr a v _ _ => exact inv_csrWrite hs a v

theorem Ends.inv {i : Instr} {s t : State} (h : Ends i s t) (hs : s.Inv) : t.Inv := by
  rcases h with ⟨u, hb, rfl⟩ | ⟨u, τ, ha, hτ, rfl⟩
  · exact inv_advance (hb.inv hs)
  · exact inv_takeTrap (ha.inv hs) (by rwa [ha.core.cfg])

/-- The instruction access-fault at the pc is a legal trap (R294, R302). -/
theorem legal_fetchFault (s : State) : Trap.legal s.cfg ⟨.accessFault .execute, curPc s⟩ :=
  ⟨Exc.noConfusion, curPc_lt s⟩

/-- Settles O9: the fetch reads, and then it traps or the instruction ends. -/
theorem stepKeepsInv : Obligations.StepKeepsInv := by
  unfold Obligations.StepKeepsInv
  intro s t hs h
  obtain ⟨-, -, ⟨u, hr, rfl⟩ | ⟨i, u, hr, -, -, -, he⟩⟩ := step_next h
  · exact inv_takeTrap (hr.inv hs) (by rw [hr.core.cfg]; exact legal_fetchFault s)
  · exact he.inv (hr.inv hs)

end Sys2Proof.Machine
end

section
/-! # Memory (20_memory.md): what a step and a trap leave in memory and in its records -/

namespace Sys2Proof.Machine

/-! ## Traps (R303, R304) -/

theorem eventsExtend.trans {s t u : State} (h : eventsExtend s t) (k : eventsExtend t u) : eventsExtend s u := by
  obtain ⟨l, hl⟩ := h
  obtain ⟨l', hl'⟩ := k
  exact ⟨l ++ l', by rw [hl', hl, List.append_assoc]⟩

/-- An instruction that completes leaves the field `trap` alone (R303). -/
theorem Body.trap {i : Instr} {s u : State} (h : Body i s u) : u.trap = s.trap := by
  induction h with
  | access h => exact h.core.trap
  | reg rd v _ _ ih => simpa using ih
  | keepResv _ _ ih => simpa using ih
  | setResv o _ _ _ ih => exact ih
  | dropStale => rfl
  | csr a v _ _ => rfl

/-- A step that leaves a trap took it after reads, or after the accesses of its instruction. -/
theorem step_trapped {s t : State} {τ : Trap} (h : step s = .next t) (ht : t.trap = some τ) :
    (∃ u, Reads s u ∧ t = takeTrap τ u) ∨
      ∃ i u w, decode (valueAt s (curPc s) 4) = some i ∧ u = afterRead (curPc s).toNat 4 (afterView s) ∧ Reads s u ∧
        TrapAccesses i u w ∧ t = takeTrap τ w := by
  obtain ⟨htr, -, ⟨u, hr, rfl⟩ | ⟨i, u, hr, hu, hi, -, ⟨w, hb, rfl⟩ | ⟨w, τ', hw, -, rfl⟩⟩⟩ := step_next h
  · obtain rfl := Option.some.inj ht
    exact .inl ⟨u, hr, rfl⟩
  · rw [advance_trap, hb.trap, hr.core.trap, htr] at ht
    cases ht
  · obtain rfl := Option.some.inj ht
    exact .inr ⟨i, u, w, hi, hu, hr, hw, rfl⟩

theorem TrapAccesses.events {i : Instr} {s u : State} (h : TrapAccesses i s u) : eventsExtend s u := by
  rcases h with hr | ⟨-, va, n, -, -, hw⟩
  · exact hr.events
  · exact hw.events

/-- What taking a trap leaves as it was: all but memory and its records, the reservation kept or dropped (R303). -/
theorem SameCore.takeTrap {s u : State} (h : SameCore s u) (τ : Trap) :
    (takeTrap τ u).pc = s.pc ∧ sameRegs s (takeTrap τ u) ∧ (takeTrap τ u).cfg = s.cfg ∧ (takeTrap τ u).priv = s.priv ∧
      (takeTrap τ u).mprv = s.mprv ∧ (takeTrap τ u).mpp = s.mpp ∧ (takeTrap τ u).pmp = s.pmp ∧
      (takeTrap τ u).stale = s.stale ∧ resvKeptOrDropped s (takeTrap τ u) := by
  refine ⟨by simp [h.pc], fun r => by simp [h.readReg], by simp [h.cfg], by simp [h.priv], by simp [h.mprv],
    by simp [h.mpp], by simp [h.pmp], by simp [h.stale], ?_⟩
  unfold resvKeptOrDropped
  rw [← h.resv]
  exact freeResv_resv u

/-- A byte changed by an instruction that raises: some parts of a store had been written (R101, R143). -/
theorem TrapAccesses.mem_changed {i : Instr} {s u : State} (h : TrapAccesses i s u) {a : Nat}
    (hne : Memory.get u.mem a ≠ Memory.get s.mem a) :
    ∃ va n, isPlainStore i = true ∧ dataAccess i s = some (.store, va, n) ∧ madeInParts i s .store va n = true ∧
      va.toNat ≤ a ∧ a < va.toNat + n ∧
      (Memory.wf s.mem → Memory.get u.mem a = (storedValue i s).extractLsb' (8 * (a - va.toNat)) 8) := by
  rcases h with hr | ⟨hp, va, n, hd, hm, hw⟩
  · exact absurd (by rw [hr.mem]) hne
  · have hin : va.toNat ≤ a ∧ a < va.toNat + n := by
      by_contra hout
      exact hne (hw.mem_out (by omega))
    refine ⟨va, n, hp, hd, hm, hin.1, hin.2, fun hwf => ?_⟩
    rw [hw.mem_changed hwf hne]
    apply BitVec.eq_of_getLsbD_eq
    intro j hj
    have hlt : 8 * (a - va.toNat) + j < 8 * n := by omega
    simp only [BitVec.getLsbD_extractLsb', BitVec.getLsbD_setWidth, hlt, decide_true, Bool.true_and]

/-- Settles O14: the trap is taken where the accesses of the instruction, or of its fetch, have left the state. -/
theorem trapIsPrecise : Obligations.TrapIsPrecise := by
  unfold Obligations.TrapIsPrecise
  intro s t τ h ht
  rcases step_trapped h ht with ⟨u, hr, rfl⟩ | ⟨i, u, w, hi, hu, hr, hw, rfl⟩
  · obtain ⟨hpc, hx, hcfg, hpriv, hmprv, hmpp, hpmp, hstale, hresv⟩ := hr.core.takeTrap τ
    refine ⟨hpc, hx, hcfg, hpriv, hmprv, hmpp, hpmp, hstale, hresv, ?_, fun a hne => ?_, step_of_trap ht⟩
    · simpa [eventsExtend] using hr.events
    · exact absurd (by rw [takeTrap_mem, hr.mem]) hne
  · obtain ⟨hpc, hx, hcfg, hpriv, hmprv, hmpp, hpmp, hstale, hresv⟩ := (hr.core.trans hw.core).takeTrap τ
    refine ⟨hpc, hx, hcfg, hpriv, hmprv, hmpp, hpmp, hstale, hresv, ?_, fun a hne => ?_, step_of_trap ht⟩
    · simpa [eventsExtend] using hr.events.trans hw.events
    · rw [takeTrap_mem, ← hr.mem] at hne
      obtain ⟨va, n, hp, hd, hm, hlow, hhigh, hval⟩ := hw.mem_changed hne
      exact ⟨i, u, va, n, hi, hu, hp, hd, hm, hlow, hhigh, fun hwf => by rw [takeTrap_mem, hval (by rwa [hr.mem])]⟩

/-! ## Permission of writes (R132, R140, R147, R151) -/

/-- The platform maps the byte, it counts as stored to, and a PMP view permits the write (R132, R140, R147, R151). -/
def WrittenWithPermission (s t : State) (a : Nat) : Prop :=
  (pmaOf s.cfg a).isSome = true ∧ a ∈ t.stored ∧
    ∃ p ∈ pmpViews s, ∃ pa n, pa ≤ a ∧ a < pa + n ∧ pmpCheck s.cfg p pa n .write (effPriv s .store) = true

/-- Stores, store-conditionals and AMOs are checked as writes, in the mode of a store (R134, R137). -/
theorem kindType_effPriv_of_write {kind : AccessKind} (h : kind = .store ∨ kind = .sc ∨ ∃ op, kind = .amo op)
    (s : State) : kindType kind = .write ∧ effPriv s kind = effPriv s .store := by
  rcases h with rfl | rfl | ⟨op, rfl⟩ <;> exact ⟨rfl, rfl⟩

/-- A byte changed by writes lies in one of them, whose checks passed. -/
theorem Writes.permitted {size lo : Nat} {src : BitVec (8 * size)} {s u : State} (h : Writes lo src s u) {a : Nat}
    (hne : Memory.get u.mem a ≠ Memory.get s.mem a) : WrittenWithPermission s u a := by
  induction h with
  | start => exact absurd rfl hne
  | tick _ ih => exact ih hne
  | tickSc _ ih => exact ih hne
  | @read u pa n _ ih =>
    rw [afterRead_mem] at hne
    simpa [WrittenWithPermission] using ih hne
  | @write u va n kind hw _ _ hk hok ih =>
    by_cases hin : va.toNat ≤ a ∧ a < va.toNat + n
    · obtain ⟨hlow, hhigh⟩ := hin
      obtain ⟨⟨r, hr, hsame, -, -⟩, p, hp, hcheck⟩ := hok
      obtain ⟨htype, hpriv⟩ := kindType_effPriv_of_write hk s
      rw [hw.core.cfg] at hr
      rw [hw.core.pmpViews] at hp
      rw [hw.core.cfg, hw.core.effPriv, htype, hpriv] at hcheck
      refine ⟨pmaOf_isSome_of_sameRegion hr hsame hlow hhigh, ?_, p, hp, _, _, hlow, hhigh, hcheck⟩
      rw [memWrite_stored, mem_insertAddrs]
      exact .inr ⟨hlow, hhigh⟩
    · rw [memWrite_mem, Memory.get_write_out _ _ (by omega)] at hne
      obtain ⟨hmap, hst, hperm⟩ := ih hne
      refine ⟨hmap, ?_, hperm⟩
      rw [memWrite_stored, mem_insertAddrs]
      exact .inl hst

/-- A byte changed by an instruction that completes was written by its accesses. -/
theorem Body.permitted {i : Instr} {s u : State} (h : Body i s u) {a : Nat}
    (hne : Memory.get u.mem a ≠ Memory.get s.mem a) : WrittenWithPermission s u a := by
  induction h with
  | access h =>
    rcases h with hr | ⟨va, n, src, -, hw⟩
    · exact absurd (by rw [hr.mem]) hne
    · exact hw.permitted hne
  | reg rd v _ _ ih => simpa [WrittenWithPermission] using ih (by simpa using hne)
  | keepResv _ _ ih => simpa [WrittenWithPermission] using ih (by simpa using hne)
  | setResv o _ _ _ ih => exact ih hne
  | dropStale => exact absurd rfl hne
  | csr a v _ _ => exact absurd rfl hne

theorem Ends.permitted {i : Instr} {s t : State} (h : Ends i s t) {a : Nat}
    (hne : Memory.get t.mem a ≠ Memory.get s.mem a) : WrittenWithPermission s t a := by
  rcases h with ⟨u, hb, rfl⟩ | ⟨u, τ, ha, -, rfl⟩
  · exact hb.permitted hne
  · rw [takeTrap_mem] at hne
    rcases ha with hr | ⟨-, va, n, -, -, hw⟩
    · exact absurd (by rw [hr.mem]) hne
    · simpa [WrittenWithPermission] using hw.permitted hne

/-- Settles O15: the fetch only reads, and every byte the instruction changes passed the checks of its own write. -/
theorem memoryChangesOnlyWherePermitted : Obligations.MemoryChangesOnlyWherePermitted := by
  unfold Obligations.MemoryChangesOnlyWherePermitted
  intro s t a h hne
  obtain ⟨-, -, ⟨u, hr, rfl⟩ | ⟨i, u, hr, -, -, -, he⟩⟩ := step_next h
  · exact absurd (by rw [takeTrap_mem, hr.mem]) hne
  · rw [← hr.mem] at hne
    rw [← hr.core.cfg, ← hr.core.pmpViews, ← hr.core.effPriv]
    exact he.permitted hne

/-! ## The records (R119, R120, R151) -/

/-- The device events and the addresses stored to are still there (R119, R120, R151). -/
def RecordsGrow (s t : State) : Prop := eventsExtend s t ∧ ∀ a ∈ s.stored, a ∈ t.stored

theorem RecordsGrow.trans {s t u : State} (h : RecordsGrow s t) (k : RecordsGrow t u) : RecordsGrow s u :=
  ⟨h.1.trans k.1, fun a ha => k.2 a (h.2 a ha)⟩

theorem Writes.recordsGrow {size lo : Nat} {src : BitVec (8 * size)} {s u : State} (h : Writes lo src s u) :
    RecordsGrow s u := ⟨h.events, fun _ => h.stored⟩

theorem Reads.recordsGrow {s u : State} (h : Reads s u) : RecordsGrow s u := (h.writes (size := 0) 0 0).recordsGrow

theorem Body.stored {i : Instr} {s u : State} (h : Body i s u) {a : Nat} (ha : a ∈ s.stored) : a ∈ u.stored := by
  induction h with
  | access h =>
    rcases h with hr | ⟨va, n, src, -, hw⟩
    · rwa [hr.stored]
    · exact hw.stored ha
  | reg rd v _ _ ih => simpa using ih
  | keepResv _ _ ih => simpa using ih
  | setResv o _ _ _ ih => exact ih
  | dropStale => exact ha
  | csr a v _ _ => exact ha

/-- Taking a trap adds to no record. -/
theorem RecordsGrow.takeTrap {s u : State} (h : RecordsGrow s u) (τ : Trap) : RecordsGrow s (takeTrap τ u) := by
  simpa [RecordsGrow, eventsExtend] using h

theorem Ends.recordsGrow {i : Instr} {s t : State} (h : Ends i s t) : RecordsGrow s t := by
  rcases h with ⟨u, hb, rfl⟩ | ⟨u, τ, ha, -, rfl⟩
  · exact ⟨hb.events, fun a => hb.stored⟩
  · rcases ha with hr | ⟨-, va, n, -, -, hw⟩
    · exact hr.recordsGrow.takeTrap τ
    · exact hw.recordsGrow.takeTrap τ

/-- Settles O18: the fetch records its device read, and the instruction adds to what it finds. -/
theorem recordsOnlyGrow : Obligations.RecordsOnlyGrow := by
  unfold Obligations.RecordsOnlyGrow
  intro s t h
  obtain ⟨-, -, ⟨u, hr, rfl⟩ | ⟨i, u, hr, -, -, -, he⟩⟩ := step_next h
  · exact hr.recordsGrow.takeTrap _
  · exact hr.recordsGrow.trans he.recordsGrow

end Sys2Proof.Machine
end

section
/-! # Memory (20_memory.md): the PMP, the regions, reads and writes, `sfence.vma` -/

namespace Sys2Proof.Machine

/-! ## The check of an access by the PMP (R134 to R139) -/

/-- Settles O25: `EffPriv` by the kind of access. -/
theorem effectivePrivilege : Obligations.EffectivePrivilege := by
  unfold Obligations.EffectivePrivilege
  refine fun s => ⟨rfl, fun _ => rfl, fun kind hk => ?_⟩
  rcases hk with rfl | rfl | rfl | rfl | ⟨op, rfl⟩ <;> simp [effPriv]

/-- An entry matches no byte of an access when it matches none of them. -/
theorem hitsSome_eq_false {c : Cfg} {p : PmpRegs} {i pa n : Nat} :
    hitsSome c p i pa n = false ↔ ∀ k, k < n → matchEntry c p i (pa + k) = false := by
  simp [hitsSome]

/-- An NA4 entry matches the four bytes of its word (R128). -/
theorem matchEntry_na4_iff {c : Cfg} {p : PmpRegs} {i : Nat} (h : laneMode (readLane c p i) = .na4) (y : Nat) :
    matchEntry c p i y = true ↔ (readAddr c p i).toNat * 4 ≤ y ∧ y < (readAddr c p i).toNat * 4 + 4 := by
  simp only [matchEntry, h, matchNa4, beq_iff_eq]
  omega

/-- Settles O26: the first entry that matches a byte decides; the example matches its last byte and not its first. -/
theorem pmpVerdict : Obligations.PmpVerdict := by
  unfold Obligations.PmpVerdict
  constructor
  · intro c p pa n i t mode hi hbefore hsome
    rw [pmpCheck_first hi (fun j hj => hitsSome_eq_false.2 fun k hk => hbefore j k hj hk) (hitsSome_iff.2 hsome),
      Bool.and_eq_true, hitsAll_iff]
  · intro c p t mode hn hmode haddr
    have hmatch (y : Nat) : matchEntry c p 0 y = true ↔ 0xC ≤ y ∧ y < 0x10 := by
      rw [matchEntry_na4_iff hmode, haddr]
    have hlast : hitsSome c p 0 0x8 8 = true := hitsSome_iff.2 ⟨4, by decide, (hmatch _).2 (by decide)⟩
    have hfirst : hitsAll c p 0 0x8 8 = false := by
      rw [Bool.eq_false_iff, Ne, hitsAll_iff]
      intro hall
      exact absurd ((hmatch _).1 (hall 0 (by decide))) (by decide)
    rw [pmpCheck_first hn (fun j hj => absurd hj (Nat.not_lt_zero j)) hlast, hfirst, Bool.false_and]

theorem noMatch_iff (c : Cfg) (mode : Priv) : noMatch c mode = true ↔ mode = .machine ∨ npmp c = 0 := by
  simp [noMatch]

/-- Settles O27: without an entry that matches, the mode decides; an OFF entry matches nothing. -/
theorem noMatchRule : Obligations.NoMatchRule := by
  unfold Obligations.NoMatchRule
  intro c p pa n t mode
  have hnone (h : ∀ i k, i < npmp c → k < n → matchEntry c p i (pa + k) = false) :
      pmpCheck c p pa n t mode = true ↔ mode = .machine ∨ npmp c = 0 := by
    rw [pmpCheck_none fun j hj => hitsSome_eq_false.2 fun k hk => h j k hj hk, noMatch_iff]
  refine ⟨hnone, fun hoff hn hm => ?_⟩
  rw [Bool.eq_false_iff, Ne, hnone fun i k hi _ => by simp [matchEntry, hoff i hi]]
  tauto

/-- A legal byte that grants `W` grants `R` (R47). -/
theorem laneLegal.reads {c : Cfg} {v : Byte} (h : laneLegal c v) (hw : v.getLsbD 1 = true) : v.getLsbD 0 = true := by
  obtain ⟨-, -, hrw, -⟩ := h
  by_contra hr
  exact hrw ⟨by simpa using hr, hw⟩

theorem permit_iff (v : Byte) (t : AccessType) (mode : Priv) : permit v t mode = true ↔
    (v.getLsbD 7 = false ∧ mode = .machine) ∨
      (t = .read ∧ v.getLsbD 0 = true) ∨ (t = .write ∧ v.getLsbD 1 = true) ∨ (t = .execute ∧ v.getLsbD 2 = true) := by
  have hopen : (!laneL v && mode == .machine) = true ↔ v.getLsbD 7 = false ∧ mode = .machine := by simp [laneL]
  unfold permit
  by_cases hm : v.getLsbD 7 = false ∧ mode = .machine
  · rw [if_pos (hopen.2 hm)]
    exact iff_of_true rfl (.inl hm)
  · rw [if_neg (mt hopen.1 hm), or_iff_right hm]
    cases t <;> simp [laneR, laneW, laneX]

/-- Settles O28: the two ways to be permitted, and the legal bytes. -/
theorem permitRule : Obligations.PermitRule := by
  unfold Obligations.PermitRule
  refine ⟨permit_iff, fun _ => rfl, fun c v mode hv hw => ?_⟩
  rw [permit_iff] at hw ⊢
  rcases hw with hm | ⟨ht, -⟩ | ⟨-, hw⟩ | ⟨ht, -⟩
  · exact .inl hm
  · cases ht
  · exact .inr (.inl ⟨rfl, hv.reads hw⟩)
  · cases ht

/-! ## The bytes an entry matches (R126 to R129) -/

theorem torBottom_eq (c : Cfg) (p : PmpRegs) (i : Nat) :
    torBottom c p i = if i = 0 then 0 else storedAddr c p (i - 1) / 2 ^ c.grain * 2 ^ c.grain := by
  cases i with
  | zero => rfl
  | succ j => exact torval_eq c p j

/-- A TOR entry compares the address of the word that holds the byte (R126). -/
theorem matchEntry_tor_iff {c : Cfg} {p : PmpRegs} {i : Nat} (h : laneMode (readLane c p i) = .tor) (y : Nat) :
    matchEntry c p i y = true ↔ torBottom c p i * 4 ≤ y ∧ y < torval c p i * 4 := by
  simp only [matchEntry, h, matchTor, Bool.and_eq_true, decide_eq_true_eq]
  omega

/-- Settles O29: the two bounds; an empty range when the lower is not below the upper. -/
theorem torRange : Obligations.TorRange := by
  unfold Obligations.TorRange
  intro c p i y h
  refine ⟨?_, fun hi hle => ?_⟩
  · rw [matchEntry_tor_iff h, torBottom_eq, torval_eq]
  · rw [Bool.eq_false_iff, Ne, matchEntry_tor_iff h, torBottom_eq, if_neg hi, torval_eq]
    have := Nat.mul_le_mul_right (2 ^ c.grain) (Nat.div_le_div_right (c := 2 ^ c.grain) hle)
    omega

/-- The value `t` ones below a zero below `b`: dropping the ones and the zero leaves `b` (R128). -/
theorem shiftRight_ones (b t : Nat) : (b * 2 ^ (t + 1) + (2 ^ t - 1)) >>> (t + 1) = b := by
  have hlt : 2 ^ t - 1 < 2 ^ (t + 1) := by
    have := Nat.two_pow_pos t
    rw [pow_succ]
    omega
  rw [Nat.shiftRight_eq_div_pow, Nat.mul_comm, Nat.mul_add_div (Nat.two_pow_pos _), Nat.div_eq_of_lt hlt, Nat.add_zero]

/-- A value that ends in `t` ones has at least `t` bits. -/
theorem ones_le_of_lt {b t k : Nat} (h : b * 2 ^ (t + 1) + (2 ^ t - 1) < 2 ^ k) : t ≤ k := by
  by_contra hk
  have h1 : 2 ^ (k + 1) ≤ 2 ^ t := Nat.pow_le_pow_right (by decide) (by omega)
  have h2 := Nat.two_pow_pos k
  rw [pow_succ] at h1
  omega

theorem readAddr_lt (c : Cfg) (p : PmpRegs) (i : Nat) : (readAddr c p i).toNat < 2 ^ xlen c := truncX_lt _ _

/-- A NAPOT entry matches the aligned block its low ones size (R128). -/
theorem matchEntry_napot_iff {c : Cfg} {p : PmpRegs} {i t b : Nat} (h : laneMode (readLane c p i) = .napot)
    (ha : (readAddr c p i).toNat = b * 2 ^ (t + 1) + (2 ^ t - 1)) (y : Nat) :
    matchEntry c p i y = true ↔ b * 2 ^ (t + 3) ≤ y ∧ y < (b + 1) * 2 ^ (t + 3) := by
  have ht : t ≤ xlen c := ones_le_of_lt (ha ▸ readAddr_lt c p i)
  have hpos := Nat.two_pow_pos (t + 3)
  simp only [matchEntry, h, matchNapot, ha, ctz1_eq _ _ _ ht, shiftRight_ones, beq_iff_eq]
  rw [Nat.shiftRight_eq_div_pow, Nat.div_eq_iff hpos, Nat.add_one_mul]
  omega

/-- Settles O30, mode by mode. -/
theorem naturallyAlignedRegions : Obligations.NaturallyAlignedRegions := by
  unfold Obligations.NaturallyAlignedRegions
  exact fun c p i y => ⟨fun h => by simp [matchEntry, h], fun h => matchEntry_na4_iff h y,
    fun t b h ha => matchEntry_napot_iff h ha y⟩

/-! ## The regions: AMOs, granules, channels (R86 to R89, R96, R97, R111) -/

/-- The order of the AMO levels and the class each AMO needs (R86, R87). -/
theorem amoRank_le_iff (op : AmoOp) (l : AmoLevel) : amoRank (amoClass op) ≤ amoRank l ↔
    (op = .amoswap ∧ l ≠ .amoNone) ∨
      ((op = .amoand ∨ op = .amoor ∨ op = .amoxor) ∧ (l = .amoLogical ∨ l = .amoArithmetic)) ∨ l = .amoArithmetic := by
  cases op <;> cases l <;> decide

/-- Settles O43, by the order of the levels. -/
theorem amoSupport : Obligations.AmoSupport := by
  unfold Obligations.AmoSupport
  intro r op n
  simp only [amoPmaOk, Bool.and_eq_true, decide_eq_true_eq, List.contains_iff_mem, amoRank_le_iff]
  tauto

/-- The first and the last byte lie in one granule exactly when all do (R97). -/
theorem div_eq_last_iff {pa n g : Nat} (hn : 0 < n) :
    pa / g = (pa + n - 1) / g ↔ ∃ q, ∀ k, k < n → (pa + k) / g = q := by
  constructor
  · intro h
    refine ⟨pa / g, fun k hk => Nat.le_antisymm ?_ (Nat.div_le_div_right (by omega))⟩
    rw [h]
    exact Nat.div_le_div_right (by omega)
  · rintro ⟨q, hq⟩
    have hlast := hq (n - 1) (by omega)
    rw [show pa + (n - 1) = pa + n - 1 by omega] at hlast
    rw [hlast]
    exact hq 0 hn

theorem inOneGranule_iff {c : Cfg} {pa n : Nat} (hn : 0 < n) : inOneGranule c pa n = true ↔
    ∃ r g q, pmaOf c pa = some r ∧ r.mag = some g ∧ ∀ k, k < n → (pa + k) / g = q := by
  unfold inOneGranule
  cases pmaOf c pa with
  | none => simp
  | some r => cases hg : r.mag <;> simp [hg, div_eq_last_iff hn]

/-- Settles O44: the granule takes an AMO, and a narrow load or store, past the alignment stage. -/
theorem oneGranule : Obligations.OneGranule := by
  unfold Obligations.OneGranule
  intro c va n hn
  refine ⟨inOneGranule_iff hn, fun h => ⟨fun op => ?_, fun hx => ⟨?_, ?_⟩⟩⟩
  · simp [alignStage, h]
  · simp [alignStage, h, hx]
  · simp [alignStage, h, hx]

/-- The fence sets of `fence io,io` hold every access to an I/O region and no other (R271). -/
theorem inFenceSet_ioSet (a : Footprint) :
    inFenceSet ioSet a = (a.region.kind == .io && (a.reads || a.writes)) := by
  unfold inFenceSet ioSet
  cases a.region.kind <;> simp

/-- Settles O60: the third way channels order accesses, and the sets of `fence io,io`. -/
theorem channelOneIsAFence : Obligations.ChannelOneIsAFence := by
  unfold Obligations.ChannelOneIsAFence
  constructor
  · intro r q hr hq hch
    refine ⟨by simp [channelOrders, hr, hq, hch], by simp [channelOrders, hr, hq, hch], fun a b ha hb hra hrb => ?_⟩
    simp [fenceOrders, inFenceSet_ioSet, ha, hb, hr, hq, hra, hrb]
  · intro a b h
    rw [fenceOrders, inFenceSet_ioSet, inFenceSet_ioSet]
    rcases h with h | h <;> simp [h]

/-! ## Reads and writes of memory (R82, R118, R120) -/

/-- Settles O51: byte by byte, from the bytes of a value read and the memory after a write. -/
theorem littleEndianMemory : Obligations.LittleEndianMemory := by
  unfold Obligations.LittleEndianMemory
  refine fun m pa n k hk => ⟨(Memory.get_of_read rfl hk).symm, fun v hm => ?_⟩
  exact Memory.get_of_read (Memory.read_write_self hm pa n v) hk

theorem plainRead_iff {s : State} {va : Word} : plainRead s va = true ↔
    ∀ r, pmaOf s.cfg va.toNat = some r → r.kind = .mainMemory ∨ r.readIdempotent = true := by
  unfold plainRead readIsFree
  cases pmaOf s.cfg va.toNat with
  | none => simp
  | some r => simp [readsIdempotent]

/-- A free value is drawn by the counter alone (R120). -/
theorem valueAt_of_free {s : State} {va : Word} (n : Nat) (h : plainRead s va = false) :
    valueAt s va n = (Config.deviceValue (afterView s).draws).setWidth (8 * n) := by
  have hfree : readIsFree s.cfg va.toNat = true := by simpa [plainRead] using h
  simp [valueAt, readValue, hfree]

/-- Settles O50: memory where reads are idempotent, else a value whose counter memory does not change. -/
theorem readsAreMemoryOrFree : Obligations.ReadsAreMemoryOrFree := by
  unfold Obligations.ReadsAreMemoryOrFree
  refine fun s va n => ⟨plainRead_iff, valueAt_of_plainRead n, fun h m => ?_⟩
  have hdraws : (afterView { s with mem := m }).draws = (afterView s).draws := by
    unfold afterView
    split <;> split <;> trivial
  rw [valueAt_of_free n h, valueAt_of_free n (show plainRead { s with mem := m } va = false from h), hdraws]

/-! ## `sfence.vma` (R148, R272, R273) -/

/-- Without snapshots the current registers are the only view (R148, R150). -/
theorem pmpViews_of_stale_nil {s : State} (h : s.stale = []) : pmpViews s = [s.pmp] := by simp [pmpViews, h]

/-- Settles O59: by the mode, and by the operands. -/
theorem sfenceResult : Obligations.SfenceResult := by
  unfold Obligations.SfenceResult
  intro rs1 rs2 s
  have hexec : exec (.sfenceVma rs1 rs2) s = execSfenceVma rs1 rs2 s := rfl
  rw [hexec]
  unfold execSfenceVma
  constructor
  · intro hu
    rw [if_pos hu]
    exact illegal_trapsWith _ s
  · intro hu
    rw [if_neg hu]
    by_cases h0 : rs1 = 0 ∧ rs2 = 0
    · rw [if_pos h0]
      exact ⟨_, rfl, advance_pc_toNat _, rfl, rfl, rfl, rfl, rfl, rfl, rfl, rfl, rfl, rfl, rfl, rfl, rfl,
        fun _ => ⟨rfl, pmpViews_of_stale_nil rfl⟩, fun h => absurd h0 h⟩
    · rw [if_neg h0]
      exact ⟨_, rfl, advance_pc_toNat s, rfl, rfl, rfl, rfl, rfl, rfl, rfl, rfl, rfl, rfl, rfl, rfl, rfl,
        fun h => absurd h h0, fun _ => rfl⟩

end Sys2Proof.Machine
end

section
/-! # Memory (20_memory.md): accesses that fail, accesses made in parts, and runs of store-conditionals -/

namespace Sys2Proof.Machine

/-! ## The data access of an instruction (R202, R231, R232, R245, R246, R259, R262) -/

/-- The access and the read of a load of any width. -/
def loadAccess (va : Word) (n : Nat) (s : State) : Res (BitVec (8 * n)) :=
  if 8 * n ≤ xlen s.cfg then readData va n s else wideRead va n s

/-- The access and the write of a regular or floating-point store of any width. -/
def storeAccess (va : Word) (n : Nat) (v : BitVec (8 * n)) (s : State) : Res Unit :=
  if 8 * n ≤ xlen s.cfg then writeData va n v s else wideWrite va n v s

/-- How an instruction that exists on the platform makes its data access. -/
inductive Performs (i : Instr) (s : State) : AccessKind → Word → Nat → Prop where
  | atomic {kind : AccessKind} {va : Word} {n : Nat} (f : Shape → State → Res Unit) :
      kind = .lr ∨ (∃ op, kind = .amo op) → exec i s = ((access kind va n s).bind f).finish → Performs i s kind va n
  | conditional {n : Nat} (rd rs1 rs2 : Reg) : isSc i = true →
      exec i s = storeConditional n true i rd rs1 rs2 s → Performs i s .sc (readReg s rs1) n
  | load {va : Word} {n : Nat} (f : BitVec (8 * n) → State → Res Unit) :
      accessState i s = s → exec i s = ((loadAccess va n s).bind f).finish → Performs i s .load va n
  | store {va : Word} {n : Nat} (v : BitVec (8 * n)) (f : Unit → State → Res Unit) :
      exec i s = ((storeAccess va n v (accessState i s)).bind f).finish → Performs i s .store va n

/-- The widths of data accesses (R93). -/
theorem dataAccess_width {i : Instr} {s : State} {kind : AccessKind} {va : Word} {n : Nat}
    (h : dataAccess i s = some (kind, va, n)) : n ∈ [1, 2, 4, 8, 16] := by
  cases i <;> cases h <;> decide

section
variable {i : Instr} {s : State} {n : Nat} {present : Bool} {rd rs1 rs2 : Reg} {imm : BitVec 12}

/-- The instruction does not exist on the platform and raises; or it makes the access given (R180 item 4, R259). -/
def IllegalOrPerforms (i : Instr) (s : State) (kind : AccessKind) (va : Word) (n : Nat) : Prop :=
  (i.wellFormed s.cfg = false ∧ exec i s = illegal i s) ∨ Performs i s kind va n

theorem performs_amo {op : AmoOp} (hw : i.wellFormed s.cfg = present)
    (h : exec i s = amo op n present i rd rs1 rs2 s) : IllegalOrPerforms i s (.amo op) (readReg s rs1) n := by
  cases present
  · exact .inl ⟨hw, h⟩
  · exact .inr (.atomic _ (.inr ⟨op, rfl⟩) h)

theorem performs_loadReserved (hw : i.wellFormed s.cfg = present)
    (h : exec i s = loadReserved n present i rd rs1 s) : IllegalOrPerforms i s .lr (readReg s rs1) n := by
  cases present
  · exact .inl ⟨hw, h⟩
  · exact .inr (.atomic _ (.inl rfl) h)

theorem performs_storeConditional (hw : i.wellFormed s.cfg = present) (hsc : isSc i = true)
    (h : exec i s = storeConditional n present i rd rs1 rs2 s) : IllegalOrPerforms i s .sc (readReg s rs1) n := by
  cases present
  · exact .inl ⟨hw, h⟩
  · exact .inr (.conditional rd rs1 rs2 hsc h)

theorem performs_load {signed : Bool} (hw : i.wellFormed s.cfg = present) (hx : present = true → 8 * n ≤ xlen s.cfg)
    (ha : accessState i s = s) (h : exec i s = load n signed present i rd rs1 imm s) :
    IllegalOrPerforms i s .load (effAddr s rs1 imm) n := by
  cases present
  · exact .inl ⟨hw, h⟩
  · have h : exec i s = ((readData (effAddr s rs1 imm) n s).bind _).finish := h
    rw [← show loadAccess _ n s = _ from if_pos (hx rfl)] at h
    exact .inr (.load _ ha h)

theorem performs_store (hw : i.wellFormed s.cfg = present) (hx : present = true → 8 * n ≤ xlen s.cfg)
    (ha : accessState i s = s) (h : exec i s = store n present i rs1 rs2 imm s) :
    IllegalOrPerforms i s .store (effAddr s rs1 imm) n := by
  cases present
  · exact .inl ⟨hw, h⟩
  · have h : exec i s = ((writeData (effAddr s rs1 imm) n (source s rs2 n) s).bind _).finish := h
    have e : storeAccess (effAddr s rs1 imm) n (source s rs2 n) (accessState i s) =
        writeData (effAddr s rs1 imm) n (source s rs2 n) s := by
      rw [ha]; exact if_pos (hx rfl)
    rw [← e] at h
    exact .inr (.store _ _ h)

theorem performs_floatLoad (hw : i.wellFormed s.cfg = decide (8 * n ≤ flen s.cfg)) (ha : accessState i s = s)
    (h : exec i s = floatLoad n i rs1 imm s) : IllegalOrPerforms i s .load (effAddr s rs1 imm) n := by
  unfold floatLoad at h
  split at h
  · exact .inl ⟨by rw [hw, decide_eq_false_iff_not]; omega, h⟩
  · exact .inr (.load _ ha h)

theorem performs_floatStore (hw : i.wellFormed s.cfg = decide (8 * n ≤ flen s.cfg))
    (ha : accessState i s = tick s) (h : exec i s = floatStore n i rs1 imm s) :
    IllegalOrPerforms i s .store (effAddr s rs1 imm) n := by
  unfold floatStore at h
  split at h
  · exact .inl ⟨by rw [hw, decide_eq_false_iff_not]; omega, h⟩
  · have h : exec i s = ((storeAccess (effAddr s rs1 imm) n _ (tick s)).bind _).finish := h
    rw [← ha] at h
    exact .inr (.store _ _ h)

end

theorem flen_eq_width (c : Cfg) : flen c = c.flen.width := by
  unfold flen Flen.width
  cases c.flen <;> rfl

/-- A 64-bit value fits a register of RV64. -/
theorem xlen_of_rv64 {c : Cfg} (h : (c.mxlen == .rv64) = true) : xlen c = 64 := by
  rw [beq_iff_eq] at h
  simp [xlen, h]

/-- A register holds a value of at most 32 bits. -/
theorem le_xlen {c : Cfg} {k : Nat} (h : k ≤ 32) : k ≤ xlen c := by
  rcases xlen_eq c with e | e <;> omega

/-- EVERY INSTRUCTION WITH A DATA ACCESS makes it in one of the forms of `Performs`, or does not exist here. -/
theorem illegal_or_performs {i : Instr} {s : State} {kind : AccessKind} {va : Word} {n : Nat}
    (h : dataAccess i s = some (kind, va, n)) : IllegalOrPerforms i s kind va n := by
  have hword (j : Instr) (h1 : j.onlyRv64 = false) (h2 : j.fpBits = 0) : j.wellFormed s.cfg = true := by
    simp [Instr.wellFormed, h1, h2]
  have hdouble (j : Instr) (h1 : j.onlyRv64 = true) (h2 : j.fpBits = 0) :
      j.wellFormed s.cfg = (s.cfg.mxlen == .rv64) := by simp [Instr.wellFormed, h1, h2]
  have hfloat (j : Instr) (h1 : j.onlyRv64 = false) {m : Nat} (h2 : j.fpBits = m) :
      j.wellFormed s.cfg = decide (m ≤ flen s.cfg) := by simp [Instr.wellFormed, h1, h2, flen_eq_width]
  cases i <;> cases h
  case amoswapW | amoaddW | amoxorW | amoandW | amoorW | amominW | amomaxW | amominuW | amomaxuW =>
    exact performs_amo (hword _ rfl rfl) rfl
  case amoswapD | amoaddD | amoxorD | amoandD | amoorD | amominD | amomaxD | amominuD | amomaxuD =>
    exact performs_amo (hdouble _ rfl rfl) rfl
  case lrW => exact performs_loadReserved (hword _ rfl rfl) rfl
  case lrD => exact performs_loadReserved (hdouble _ rfl rfl) rfl
  case scW => exact performs_storeConditional (hword _ rfl rfl) rfl rfl
  case scD => exact performs_storeConditional (hdouble _ rfl rfl) rfl rfl
  case lb | lh | lw | lbu | lhu =>
    exact performs_load (hword _ rfl rfl) (fun _ => le_xlen (by decide)) rfl rfl
  case lwu => exact performs_load (hdouble _ rfl rfl) (fun _ => le_xlen (by decide)) rfl rfl
  case ld => exact performs_load (hdouble _ rfl rfl) (fun h => (xlen_of_rv64 h).ge) rfl rfl
  case sb | sh | sw => exact performs_store (hword _ rfl rfl) (fun _ => le_xlen (by decide)) rfl rfl
  case sd => exact performs_store (hdouble _ rfl rfl) (fun h => (xlen_of_rv64 h).ge) rfl rfl
  case flw | fld | flq => exact performs_floatLoad (hfloat _ rfl rfl) rfl rfl
  case fsw | fsd | fsq => exact performs_floatStore (hfloat _ rfl rfl) rfl rfl

/-- An instruction that exists on the platform makes its data access. -/
theorem performs_of_wellFormed {i : Instr} {s : State} {kind : AccessKind} {va : Word} {n : Nat}
    (h : dataAccess i s = some (kind, va, n)) (hw : i.wellFormed s.cfg = true) : Performs i s kind va n := by
  rcases illegal_or_performs h with ⟨hw', -⟩ | hp
  · rw [hw] at hw'; cases hw'
  · exact hp

/-! ## Raising before anything is done (R16, R303) -/

/-- Only free values have been drawn: nothing a trap or another agent shows. -/
structure Quiet (s u : State) : Prop where
  reads : Reads s u
  events : u.events = s.events

theorem Quiet.refl (s : State) : Quiet s s := ⟨.start, rfl⟩

theorem Quiet.trans {s u w : State} (h : Quiet s u) (k : Quiet u w) : Quiet s w :=
  ⟨h.reads.trans k.reads, k.events.trans h.events⟩

theorem quiet_tick (s : State) : Quiet s (tick s) := ⟨Reads.start.tick, rfl⟩

theorem quiet_tickSc (s : State) : Quiet s (tickSc s) := ⟨Reads.start.tickSc, rfl⟩

theorem quiet_afterView (s : State) : Quiet s (afterView s) := ⟨Reads.start.view, by simp⟩

theorem quiet_of_view {s u : State} (h : u = s ∨ u = afterView s) : Quiet s u := by
  rcases h with rfl | rfl
  · exact .refl _
  · exact quiet_afterView s

theorem accessState_cases (i : Instr) (s : State) : accessState i s = s ∨ accessState i s = tick s := by
  unfold accessState
  split <;> simp

theorem quiet_accessState (i : Instr) (s : State) : Quiet s (accessState i s) := by
  rcases accessState_cases i s with e | e <;> rw [e]
  · exact .refl s
  · exact quiet_tick s

/-- The trap is raised, and nothing else has happened. -/
def Raises {α : Type} (s : State) (r : Res α) (τ : Trap) : Prop := ∃ u, r = .raise τ u ∧ Quiet s u

theorem Raises.bind {α β : Type} {s : State} {r : Res α} {τ : Trap} (h : Raises s r τ) (f : α → State → Res β) :
    Raises s (r.bind f) τ := by
  obtain ⟨u, rfl, hq⟩ := h
  exact ⟨u, rfl, hq⟩

theorem Raises.from {α : Type} {s u : State} {r : Res α} {τ : Trap} (h : Raises u r τ) (hq : Quiet s u) :
    Raises s r τ := by
  obtain ⟨w, hr, hw⟩ := h
  exact ⟨w, hr, hq.trans hw⟩

/-- Some next state holds this trap and is otherwise as before (R303). -/
def TrapsTo (s : State) (o : Host.Outcome State Fault Refusal) (τ : Trap) : Prop :=
  ∃ t, o = .next t ∧ trapsWith s t τ.exc τ.tval

/-- An instruction that raises before anything is done hands over its trap and changes nothing (R303). -/
theorem Raises.finish {s : State} {r : Res Unit} {τ : Trap} (h : Raises s r τ) : TrapsTo s r.finish τ := by
  obtain ⟨u, rfl, hq⟩ := h
  obtain ⟨hpc, hx, hcfg, hpriv, hmprv, hmpp, hpmp, hstale, hresv⟩ := hq.reads.core.takeTrap τ
  refine ⟨takeTrap τ u, rfl, rfl, hpc, hx, ⟨fun a => ?_, ?_⟩, ?_, hcfg, hpriv, hmprv, hmpp, hpmp, hstale, hresv⟩
  · rw [takeTrap_mem, hq.reads.mem]
  · rw [takeTrap_stored, hq.reads.stored]
  · rw [takeTrap_events, hq.events]

/-! ### One `Access` (R140, R300) -/

theorem access_untranslatable {kind : AccessKind} {va : Word} {n : Nat} {s : State}
    (h : translatable s.cfg va n = false) : Raises s (access kind va n s) ⟨.accessFault (kindType kind), va⟩ :=
  ⟨s, by simp [access, h], .refl s⟩

/-- A denied access raises its access-fault where its checks come before an exception for alignment, or without one. -/
theorem access_denied {kind : AccessKind} {va : Word} {n : Nat} {s : State} (hd : denied s kind va n = true)
    (hfirst : alignStage s.cfg kind va n = .whole ∨ s.cfg.misalignedFirst = false) :
    Raises s (access kind va n s) ⟨.accessFault (kindType kind), va⟩ := by
  cases htr : translatable s.cfg va n with
  | false => exact access_untranslatable htr
  | true =>
    obtain ⟨u, hu, hv⟩ := checkPart_denied hd
    refine ⟨u, ?_, quiet_of_view hv⟩
    cases hm : s.cfg.misalignedFirst with
    | false => simp [access, htr, hm, hu]
    | true =>
      have hwhole := hfirst.resolve_right (by simp [hm])
      simp [access, htr, hm, hu, hwhole]

/-- A misaligned access that alignment stops raises its exception, after its checks or before them. -/
theorem access_misaligned {kind : AccessKind} {va : Word} {n : Nat} {s : State} {e : Exc}
    (htr : translatable s.cfg va n = true) (hal : alignStage s.cfg kind va n = .misaligned e)
    (hfirst : s.cfg.misalignedFirst = true ∨ checked s kind va n = true) : Raises s (access kind va n s) ⟨e, va⟩ := by
  cases hm : s.cfg.misalignedFirst with
  | true => exact ⟨s, by simp [access, htr, hm, hal], .refl s⟩
  | false =>
    have hc := hfirst.resolve_left (by simp [hm])
    exact ⟨afterView s, by simp [access, htr, hm, checkPart_checked hc, hal], quiet_afterView s⟩

/-! ### An instruction whose one `Access` raises -/

section
variable {s : State} {va : Word} {n : Nat} {τ : Trap}

theorem loadAccess_raises (hone : 8 * n ≤ xlen s.cfg ∨ wideIsWhole s .load va n = true)
    (h : ∀ u, Quiet s u → Raises u (access .load va n u) τ) : Raises s (loadAccess va n s) τ := by
  unfold loadAccess wideRead
  split
  · exact (h s (.refl s)).bind _
  · rename_i hx
    rw [if_pos (hone.resolve_left hx)]
    exact ((h (tick s) (quiet_tick s)).bind _).from (quiet_tick s)

theorem storeAccess_raises {v : BitVec (8 * n)} (hone : 8 * n ≤ xlen s.cfg ∨ wideIsWhole s .store va n = true)
    (h : ∀ u, Quiet s u → Raises u (access .store va n u) τ) : Raises s (storeAccess va n v s) τ := by
  unfold storeAccess wideWrite
  split
  · exact (h s (.refl s)).bind _
  · rename_i hx
    rw [if_pos (hone.resolve_left hx)]
    exact ((h (tick s) (quiet_tick s)).bind _).from (quiet_tick s)

theorem scFailTests_raises (h : Raises s (access .sc va n s) τ)
    (hal : s.cfg.scFailChecks = true ∨ Raises s (alignOnly va n s) τ) : Raises s (scFailTests va n s) τ := by
  unfold scFailTests
  split
  · exact h.bind _
  · rename_i hc
    exact hal.resolve_left hc

/-- A store-conditional succeeds if it holds the reservation and draws `ok`, and fails otherwise; the boolean is drawn
when the reservation is held (R232). -/
theorem storeConditional_cases (n : Nat) (i : Instr) (rd rs1 rs2 : Reg) (s : State) :
    ((holdsReservation s (readReg s rs1) n = true ∧ Config.scOk (readReg s rs1).toNat s.scDraws = true) ∧
      storeConditional n true i rd rs1 rs2 s =
        (scSucceeds n rd (readReg s rs1) (source s rs2 n) (tickSc s)).finish) ∨
    (¬(holdsReservation s (readReg s rs1) n = true ∧ Config.scOk (readReg s rs1).toNat s.scDraws = true) ∧
      storeConditional n true i rd rs1 rs2 s =
        (scFails n rd (readReg s rs1) (if holdsReservation s (readReg s rs1) n then tickSc s else s)).finish) := by
  simp only [storeConditional, Bool.not_true, Bool.false_eq_true, if_false]
  by_cases hheld : holdsReservation s (readReg s rs1) n = true
  · by_cases hok : Config.scOk (readReg s rs1).toNat s.scDraws = true
    · exact .inl ⟨⟨hheld, hok⟩, by rw [if_pos hheld, if_pos hok]⟩
    · exact .inr ⟨fun k => hok k.2, by rw [if_pos hheld, if_neg hok, if_pos hheld]⟩
  · exact .inr ⟨fun k => hheld k.1, by rw [if_neg hheld, if_neg hheld]⟩

theorem quiet_ite_tickSc (b : Bool) (s : State) : Quiet s (if b then tickSc s else s) := by
  cases b
  · exact .refl s
  · exact quiet_tickSc s

/-- A store-conditional raises when its access does and it makes it; or whenever `AlignOnly` raises too (R232, R234). -/
theorem storeConditional_raises {i : Instr} {rd rs1 rs2 : Reg}
    (h : ∀ u, Quiet s u → Raises u (access .sc (readReg s rs1) n u) τ)
    (hal : scChecks s (readReg s rs1) n ∨ ∀ u, Quiet s u → Raises u (alignOnly (readReg s rs1) n u) τ) :
    TrapsTo s (storeConditional n true i rd rs1 rs2 s) τ := by
  rcases storeConditional_cases n i rd rs1 rs2 s with ⟨-, e⟩ | ⟨hno, e⟩ <;> rw [e]
  · exact Raises.finish (((h (tickSc s) (quiet_tickSc s)).bind _).from (quiet_tickSc s))
  · have hq := quiet_ite_tickSc (holdsReservation s (readReg s rs1) n) s
    refine Raises.finish (((scFailTests_raises (h _ hq) ?_).bind _).from hq)
    rw [hq.reads.core.cfg]
    exact hal.imp (fun hc => hc.resolve_right hno) (fun k => k _ hq)

/-- AN ACCESS THAT RAISES, MADE BY ONE `Access`, is the trap of its instruction. -/
theorem Performs.traps {i : Instr} {kind : AccessKind} (hp : Performs i s kind va n)
    (hone : kind = .load ∨ kind = .store → madeByOne i s kind va n = true)
    (h : ∀ u, Quiet s u → Raises u (access kind va n u) τ)
    (hal : kind = .sc → scChecks s va n ∨ ∀ u, Quiet s u → Raises u (alignOnly va n u) τ) :
    TrapsTo s (exec i s) τ := by
  have ha := quiet_accessState i s
  simp only [madeByOne, Bool.or_eq_true, decide_eq_true_eq] at hone
  cases hp with
  | atomic f _ hexec => rw [hexec]; exact ((h s (.refl s)).bind f).finish
  | conditional rd rs1 rs2 _ hexec => rw [hexec]; exact storeConditional_raises h (hal rfl)
  | load f hstate hexec =>
    rw [hstate] at hone
    rw [hexec]
    exact ((loadAccess_raises (hone (.inl rfl)) h).bind f).finish
  | store v f hexec =>
    rw [← ha.reads.core.cfg] at hone
    rw [hexec]
    exact (((storeAccess_raises (hone (.inr rfl)) fun u hu => h u (ha.trans hu)).from ha).bind f).finish

end

/-! ### An access denied in every part (R101, R142, R262) -/

/-- The access-fault of some byte offset inside the access, and nothing else. -/
def FaultsInside {α : Type} (s : State) (kind : AccessKind) (va : Word) (n : Nat) (r : Res α) : Prop :=
  ∃ off, off < n ∧ Raises s r ⟨.accessFault (kindType kind), va + BitVec.ofNat 64 off⟩

/-- Every range of bytes of the access, of a width there is, is denied. -/
def DeniedThroughout (s : State) (kind : AccessKind) (va : Word) (n : Nat) : Prop :=
  ∀ off m, m ∈ [1, 2, 4, 8, 16] → off + m ≤ n → denied s kind (va + BitVec.ofNat 64 off) m = true

theorem width_pos {n : Nat} (h : n ∈ [1, 2, 4, 8, 16]) : 0 < n := by
  simp only [List.mem_cons, List.not_mem_nil, or_false] at h
  omega

/-- The widths of parts are widths of accesses (R93). -/
theorem part_width {m : Nat} (h : m ∈ [1, 2, 4, 8]) : m ∈ [1, 2, 4, 8, 16] ∧ 0 < m := by
  simp only [List.mem_cons, List.not_mem_nil, or_false] at h ⊢
  omega

section
variable {s : State} {kind : AccessKind} {va : Word} {n : Nat}

theorem FaultsInside.bind {α β : Type} {r : Res α} (h : FaultsInside s kind va n r) (f : α → State → Res β) :
    FaultsInside s kind va n (r.bind f) := by
  obtain ⟨off, hlt, hr⟩ := h
  exact ⟨off, hlt, hr.bind f⟩

theorem FaultsInside.from {α : Type} {u : State} {r : Res α} (h : FaultsInside u kind va n r) (hq : Quiet s u) :
    FaultsInside s kind va n r := by
  obtain ⟨off, hlt, hr⟩ := h
  exact ⟨off, hlt, hr.from hq⟩

theorem Raises.faultsInside {α : Type} {r : Res α} (hn : 0 < n) (h : Raises s r ⟨.accessFault (kindType kind), va⟩) :
    FaultsInside s kind va n r := ⟨0, hn, by simpa using h⟩

theorem DeniedThroughout.congr {u : State} (h : DeniedThroughout s kind va n) (hc : SameCore s u) :
    DeniedThroughout u kind va n := fun off m hm hlen => by rw [hc.denied]; exact h off m hm hlen

theorem DeniedThroughout.whole (h : DeniedThroughout s kind va n) (hn : n ∈ [1, 2, 4, 8, 16]) :
    denied s kind va n = true := by
  simpa using h 0 n hn (by omega)

/-- Offsets of a part add up. -/
theorem add_offset (va : Word) (a b : Nat) :
    va + BitVec.ofNat 64 a + BitVec.ofNat 64 b = va + BitVec.ofNat 64 (a + b) := by
  rw [BitVec.add_assoc, ← BitVec.ofNat_add]

theorem DeniedThroughout.part {off m : Nat} (h : DeniedThroughout s kind va n) (hlen : off + m ≤ n) :
    DeniedThroughout s kind (va + BitVec.ofNat 64 off) m := fun off' m' hm' hlen' => by
  rw [add_offset]
  exact h (off + off') m' hm' (by omega)

/-- A fault inside a part is one inside the access. -/
theorem FaultsInside.widen {α : Type} {r : Res α} {off m : Nat} (h : FaultsInside s kind (va + BitVec.ofNat 64 off) m r)
    (hlen : off + m ≤ n) : FaultsInside s kind va n r := by
  obtain ⟨off', hlt, hr⟩ := h
  rw [add_offset] at hr
  exact ⟨off + off', by omega, hr⟩

/-- A plan of parts has a first part. -/
theorem splitPlan_head {fits : Nat → Nat → Bool} (h1 : ∀ a, fits a 1 = true) (choices : List Nat) (pa : Nat)
    (hn : 0 < n) : ∃ off m rest, splitPlan fits choices pa n = (off, m) :: rest ∧ m ∈ [1, 2, 4, 8] ∧ fits (pa + off) m = true ∧
      off + m ≤ n ∧ 0 < m := by
  obtain ⟨p, hp, -⟩ := splitPlan_covers h1 choices pa n hn
  cases hplan : splitPlan fits choices pa n with
  | nil => rw [hplan] at hp; cases hp
  | cons q rest => exact ⟨q.1, q.2, rest, rfl, splitPlan_mem h1 (hplan ▸ List.mem_cons_self)⟩

/-- The first part of a load that faults is the fault of the load. -/
theorem loadParts_faults {one : Word → (m : Nat) → State → Res (BitVec (8 * m))} {fits : Nat → Nat → Bool}
    (h1 : ∀ a, fits a 1 = true) (choices : List Nat) (hn : 0 < n) (hva : va.toNat + n ≤ 2 ^ xlen s.cfg)
    (hone : ∀ off m, m ∈ [1, 2, 4, 8] → off + m ≤ n → fits (va.toNat + off) m = true →
      FaultsInside s .load (va + BitVec.ofNat 64 off) m (one (va + BitVec.ofNat 64 off) m s)) (acc : BitVec (8 * n)) :
    FaultsInside s .load va n (loadParts one va n (splitPlan fits choices va.toNat n) acc s) := by
  obtain ⟨off, m, rest, hplan, hm, hfit, hlen, hpos⟩ := splitPlan_head h1 choices va.toNat hn
  rw [hplan, loadParts, partAddr_eq hva (by omega)]
  exact ((hone off m hm hlen hfit).widen hlen).bind _

/-- The first part of a store that faults is the fault of the store. -/
theorem storeParts_faults {one : Word → (m : Nat) → BitVec (8 * m) → State → Res Unit} {fits : Nat → Nat → Bool}
    (h1 : ∀ a, fits a 1 = true) (choices : List Nat) (hn : 0 < n) (hva : va.toNat + n ≤ 2 ^ xlen s.cfg)
    {v : BitVec (8 * n)} (hone : ∀ off m w, m ∈ [1, 2, 4, 8] → off + m ≤ n → fits (va.toNat + off) m = true →
      FaultsInside s .store (va + BitVec.ofNat 64 off) m (one (va + BitVec.ofNat 64 off) m w s)) :
    FaultsInside s .store va n (storeParts one va n v (splitPlan fits choices va.toNat n) s) := by
  obtain ⟨off, m, rest, hplan, hm, hfit, hlen, hpos⟩ := splitPlan_head h1 choices va.toNat hn
  rw [hplan, storeParts, partAddr_eq hva (by omega)]
  exact ((hone off m _ hm hlen hfit).widen hlen).bind _

/-- One `Access` denied throughout, which alignment does not stop: it faults whole, or it is made in parts. -/
theorem access_bind_faults {α : Type} (f : Shape → State → Res α) (hn : n ∈ [1, 2, 4, 8, 16])
    (htr : translatable s.cfg va n = true) (hns : stopsAlignment s.cfg kind va n = false)
    (hd : DeniedThroughout s kind va n)
    (hparts : alignStage s.cfg kind va n = .parts → FaultsInside s kind va n (f .parts s)) :
    FaultsInside s kind va n ((access kind va n s).bind f) := by
  have hwhole (h : alignStage s.cfg kind va n = .whole ∨ s.cfg.misalignedFirst = false) :
      FaultsInside s kind va n ((access kind va n s).bind f) :=
    ((access_denied (hd.whole hn) h).faultsInside (width_pos hn)).bind f
  rcases stopsAlignment_eq_false.1 hns with hal | hal
  · exact hwhole (.inl hal)
  · cases hm : s.cfg.misalignedFirst with
    | false => exact hwhole (.inr hm)
    | true =>
      have : access kind va n s = .ok .parts s := by simp [access, htr, hm, hal]
      rw [this]
      exact hparts hal

/-- A denied access that is naturally aligned faults at its address. -/
theorem access_natural_faults {α : Type} (f : Shape → State → Res α) (hpos : 0 < n) (hal : va.toNat % n = 0)
    (hd : denied s kind va n = true) : FaultsInside s kind va n ((access kind va n s).bind f) :=
  ((access_denied hd (.inl (by simp [alignStage, hal]))).faultsInside hpos).bind f

/-- The address of a part fits as the number the plan gives it. -/
theorem part_toNat {off : Nat} (hva : va.toNat + n ≤ 2 ^ xlen s.cfg) (hlt : off < n) :
    (va + BitVec.ofNat 64 off).toNat = va.toNat + off := by
  rw [← partAddr_eq hva hlt, partAddr_toNat hva hlt]

/-- A part of a translatable access is translatable. -/
theorem translatable_part {off m : Nat} (htr : translatable s.cfg va n = true) (hlen : off + m ≤ n) (hpos : 0 < m) :
    translatable s.cfg (va + BitVec.ofNat 64 off) m = true := by
  obtain ⟨hx, hp⟩ := translatable_iff.1 htr
  rw [translatable_iff, part_toNat hx (by omega)]
  omega

/-- Alignment does not stop a part of a wide access (R262). -/
theorem stopsAlignment_of_widePart {off m : Nat} (h : widePart s.cfg kind (va.toNat + off) m = true) :
    stopsAlignment s.cfg kind (va + BitVec.ofNat 64 off) m = false := by
  have haddr : BitVec.ofNat 64 (va.toNat + off) = va + BitVec.ofNat 64 off := by
    rw [BitVec.ofNat_add, BitVec.ofNat_toNat, BitVec.setWidth_eq]
  simp only [widePart, Bool.and_eq_true, Bool.not_eq_true', haddr] at h
  exact h.2

theorem readData_faults (hn : n ∈ [1, 2, 4, 8, 16]) (htr : translatable s.cfg va n = true)
    (hns : stopsAlignment s.cfg .load va n = false) (hd : DeniedThroughout s .load va n) :
    FaultsInside s .load va n (readData va n s) := by
  have hx := (translatable_iff.1 htr).1
  refine access_bind_faults _ hn htr hns hd fun _ => ?_
  rw [if_pos rfl]
  refine (loadParts_faults (s := tick s) naturalPart_one _ (width_pos hn) hx (fun off m hm hlen hfit => ?_) _).from
    (quiet_tick s)
  obtain ⟨hw, hpos⟩ := part_width hm
  refine access_natural_faults _ hpos ?_ (hd.congr (sameCore_tick s) off m hw hlen)
  rw [part_toNat hx (by omega)]
  simpa [naturalPart] using hfit

theorem writeData_faults {v : BitVec (8 * n)} (hn : n ∈ [1, 2, 4, 8, 16]) (htr : translatable s.cfg va n = true)
    (hns : stopsAlignment s.cfg .store va n = false) (hd : DeniedThroughout s .store va n) :
    FaultsInside s .store va n (writeData va n v s) := by
  have hx := (translatable_iff.1 htr).1
  refine access_bind_faults _ hn htr hns hd fun _ => ?_
  rw [if_pos rfl]
  refine (storeParts_faults (s := tick s) naturalPart_one _ (width_pos hn) hx (fun off m w hm hlen hfit => ?_)).from
    (quiet_tick s)
  obtain ⟨hw, hpos⟩ := part_width hm
  refine access_natural_faults _ hpos ?_ (hd.congr (sameCore_tick s) off m hw hlen)
  rw [part_toNat hx (by omega)]
  simpa [naturalPart] using hfit

theorem loadAccess_faults (hn : n ∈ [1, 2, 4, 8, 16]) (htr : translatable s.cfg va n = true)
    (hns : stopsAlignment s.cfg .load va n = false) (hd : DeniedThroughout s .load va n) :
    FaultsInside s .load va n (loadAccess va n s) := by
  unfold loadAccess wideRead
  split
  · exact readData_faults hn htr hns hd
  · split
    · exact (readData_faults (s := tick s) hn htr hns (hd.congr (sameCore_tick s))).from (quiet_tick s)
    · have hq := (quiet_tick s).trans (quiet_tick (tick s))
      refine (loadParts_faults (s := tick (tick s)) (widePart_one _ _) _ (width_pos hn)
        (translatable_iff.1 htr).1 (fun off m hm hlen hfit => ?_) _).from hq
      exact readData_faults (part_width hm).1 (translatable_part htr hlen (part_width hm).2)
        (stopsAlignment_of_widePart hfit) ((hd.congr hq.reads.core).part hlen)

theorem storeAccess_faults {v : BitVec (8 * n)} (hn : n ∈ [1, 2, 4, 8, 16]) (htr : translatable s.cfg va n = true)
    (hns : stopsAlignment s.cfg .store va n = false) (hd : DeniedThroughout s .store va n) :
    FaultsInside s .store va n (storeAccess va n v s) := by
  unfold storeAccess wideWrite
  split
  · exact writeData_faults hn htr hns hd
  · split
    · exact (writeData_faults (s := tick s) hn htr hns (hd.congr (sameCore_tick s))).from (quiet_tick s)
    · have hq := (quiet_tick s).trans (quiet_tick (tick s))
      refine (storeParts_faults (s := tick (tick s)) (widePart_one _ _) _ (width_pos hn)
        (translatable_iff.1 htr).1 (fun off m w hm hlen hfit => ?_)).from hq
      exact writeData_faults (part_width hm).1 (translatable_part htr hlen (part_width hm).2)
        (stopsAlignment_of_widePart hfit) ((hd.congr hq.reads.core).part hlen)

end

/-! ### Denied accesses (R295) -/

section
variable {i : Instr} {s : State} {kind : AccessKind} {va : Word} {n : Nat}

theorem alignOnly_untranslatable (h : translatable s.cfg va n = false) :
    Raises s (alignOnly va n s) ⟨.accessFault .write, va⟩ := ⟨s, by simp [alignOnly, h], .refl s⟩

/-- An untranslatable access is made by one `Access`, which tells (R262). -/
theorem madeByOne_of_untranslatable (h : translatable s.cfg va n = false) : madeByOne i s kind va n = true := by
  have hc : translatable (accessState i s).cfg va n = false := by rw [(quiet_accessState i s).reads.core.cfg, h]
  simp [madeByOne, wideIsWhole, hc]

theorem Performs.untranslatable_traps (hp : Performs i s kind va n) (h : translatable s.cfg va n = false) :
    TrapsTo s (exec i s) ⟨.accessFault (kindType kind), va⟩ := by
  have hu (u : State) (hq : Quiet s u) : translatable u.cfg va n = false := by rw [hq.reads.core.cfg, h]
  refine hp.traps (fun _ => madeByOne_of_untranslatable h) (fun u hq => access_untranslatable (hu u hq)) ?_
  rintro rfl
  exact .inr fun u hq => alignOnly_untranslatable (hu u hq)

theorem Performs.denied_traps (hp : Performs i s kind va n)
    (hone : kind = .load ∨ kind = .store → madeByOne i s kind va n = true)
    (hd : denied s kind va n = true) (hfirst : alignStage s.cfg kind va n = .whole ∨ s.cfg.misalignedFirst = false)
    (hsc : kind = .sc → scChecks s va n) : TrapsTo s (exec i s) ⟨.accessFault (kindType kind), va⟩ :=
  hp.traps hone
    (fun u hq => access_denied (by rwa [hq.reads.core.denied]) (by rwa [hq.reads.core.cfg]))
    (fun hk => .inl (hsc hk))

/-- AMOs, load-reserveds and store-conditionals are never made in parts (R102, R103). -/
theorem alignStage_ne_parts {c : Cfg} (hk : kind = .lr ∨ kind = .sc ∨ ∃ op, kind = .amo op) :
    alignStage c kind va n ≠ .parts := by
  unfold alignStage
  split
  · exact Shape.noConfusion
  · rcases hk with rfl | rfl | ⟨op, rfl⟩
    · exact Shape.noConfusion
    · exact Shape.noConfusion
    · dsimp only
      split <;> exact Shape.noConfusion

/-- A trap of the address itself is one of an offset inside the access. -/
theorem TrapsTo.offset {e : Exc} {o : Host.Outcome State Fault Refusal} (hn : 0 < n) (h : TrapsTo s o ⟨e, va⟩) :
    ∃ off, off < n ∧ TrapsTo s o ⟨e, va + BitVec.ofNat 64 off⟩ := ⟨0, hn, by simpa using h⟩

theorem Performs.deniedThroughout_traps (hp : Performs i s kind va n) (hn : n ∈ [1, 2, 4, 8, 16])
    (htr : translatable s.cfg va n = true) (hns : stopsAlignment s.cfg kind va n = false)
    (hd : DeniedThroughout s kind va n) (hsc : kind = .sc → scChecks s va n) :
    ∃ off, off < n ∧ TrapsTo s (exec i s) ⟨.accessFault (kindType kind), va + BitVec.ofNat 64 off⟩ := by
  have hatomic (hk : kind = .lr ∨ kind = .sc ∨ ∃ op, kind = .amo op) :
      ∃ off, off < n ∧ TrapsTo s (exec i s) ⟨.accessFault (kindType kind), va + BitVec.ofNat 64 off⟩ := by
    have hwhole := (stopsAlignment_eq_false.1 hns).resolve_right (alignStage_ne_parts hk)
    refine (hp.denied_traps (fun h => ?_) (hd.whole hn) (.inl hwhole) hsc).offset (width_pos hn)
    rcases hk with rfl | rfl | ⟨op, rfl⟩ <;> simp at h
  have ha := quiet_accessState i s
  cases hp with
  | atomic f hk _ => exact hatomic (hk.imp_right .inr)
  | conditional => exact hatomic (.inr (.inl rfl))
  | load f _ hexec =>
    obtain ⟨off, hlt, hr⟩ := loadAccess_faults hn htr hns hd
    rw [hexec]
    exact ⟨off, hlt, (hr.bind f).finish⟩
  | store v f hexec =>
    have hc := ha.reads.core
    obtain ⟨off, hlt, hr⟩ := storeAccess_faults (s := accessState i s) (v := v) hn (by rwa [hc.cfg]) (by rwa [hc.cfg])
      (hd.congr hc)
    rw [hexec]
    exact ⟨off, hlt, ((hr.from ha).bind f).finish⟩

theorem Performs.isSc (hp : Performs i s kind va n) (hk : kind = .sc) : isSc i = true := by
  cases hp with
  | conditional rd rs1 rs2 h _ => exact h
  | atomic f h _ => rcases h with h | ⟨op, h⟩ <;> rw [h] at hk <;> cases hk
  | load => cases hk
  | store => cases hk

end

/-- Settles O21: told by one `Access`, or by the first part performed. -/
theorem deniedAccessTraps : Obligations.DeniedAccessTraps := by
  unfold Obligations.DeniedAccessTraps
  intro i s kind va n h hw
  have hp := performs_of_wellFormed h hw
  refine ⟨hp.untranslatable_traps, fun hone hd hfirst hsc => ?_, fun htr hns hd hsc => ?_⟩
  · exact hp.denied_traps (fun _ => hone) hd hfirst fun hk => hsc (hp.isSc hk)
  · obtain ⟨off, hlt, t, hexec, ht⟩ :=
      hp.deniedThroughout_traps (dataAccess_width h) htr hns hd fun hk => hsc (hp.isSc hk)
    exact ⟨t, off, hlt, hexec, ht⟩

/-! ## Misaligned accesses (R98 to R103, R237, R297) -/

/-- An access that alignment stops gets its region's exception from the alignment stage. -/
theorem alignStage_of_stopped {c : Cfg} {kind : AccessKind} {va : Word} {n : Nat} (h : stoppedByAlignment c kind va n) :
    alignStage c kind va n = .misaligned (misalignedExc c kind va) := by
  obtain ⟨hmis, h⟩ := h
  unfold alignStage
  rw [if_neg hmis]
  cases kind with
  | lr | sc => rfl
  | amo op => simp [show inOneGranule c va.toNat n = false from h]
  | load | store =>
    obtain ⟨hgran, htrap⟩ := h
    have hout : (decide (8 * n ≤ xlen c) && inOneGranule c va.toNat n) = false := by
      rw [Bool.and_eq_false_imp, decide_eq_true_eq]
      exact hgran
    simp [hout, htrap]
  | fetch | ptw => exact h.elim

/-- The exception of a misaligned access (R100). -/
theorem misalignedExc_eq {c : Cfg} {kind : AccessKind} {va : Word} :
    (∀ r, pmaOf c va.toNat = some r → misalignedExc c kind va =
      if r.misalignedExc = .addressMisaligned then .addrMisaligned (kindType kind) else .accessFault (kindType kind)) ∧
    (pmaOf c va.toNat = none → misalignedExc c kind va = .accessFault (kindType kind)) := by
  unfold misalignedExc
  refine ⟨fun r hr => ?_, fun hr => by rw [hr]⟩
  rw [hr]
  cases he : r.misalignedExc <;> simp [he]

theorem alignOnly_misaligned {va : Word} {n : Nat} {s : State} (htr : translatable s.cfg va n = true)
    (hmis : va.toNat % n ≠ 0) : Raises s (alignOnly va n s) ⟨misalignedExc s.cfg .sc va, va⟩ :=
  ⟨s, by simp [alignOnly, htr, hmis], .refl s⟩

/-- Settles O22: one `Access`, or the `AlignOnly` of a failing store-conditional, tells the misalignment. -/
theorem misalignedAccessTraps : Obligations.MisalignedAccessTraps := by
  unfold Obligations.MisalignedAccessTraps
  intro i s kind va n h hw htr hstop hfirst
  have hal := alignStage_of_stopped hstop
  have hone : madeByOne i s kind va n = true := by
    rw [madeByOne, wideIsWhole_of_stops, Bool.or_true]
    rw [(quiet_accessState i s).reads.core.cfg]
    exact stopsAlignment_eq_true.2 ⟨_, hal⟩
  obtain ⟨t, hexec, ht⟩ : TrapsTo s (exec i s) ⟨misalignedExc s.cfg kind va, va⟩ := by
    refine (performs_of_wellFormed h hw).traps (fun _ => hone) (fun u hq => ?_) ?_
    · have hc := hq.reads.core
      exact access_misaligned (by rwa [hc.cfg]) (by rwa [hc.cfg]) (by rwa [hc.cfg, hc.checked])
    · rintro rfl
      refine .inr fun u hq => ?_
      rw [← hq.reads.core.cfg]
      exact alignOnly_misaligned (by rwa [hq.reads.core.cfg]) hstop.1
  exact ⟨t, _, hexec, ht, misalignedExc_eq⟩

/-- No value is answered: an exception is raised before anything is done, or the access is refused. -/
def Stops {α : Type} (s : State) (r : Res α) : Prop := (∃ τ, Raises s r τ) ∨ ∃ q, r = .refuse q

theorem Stops.bind {α β : Type} {s : State} {r : Res α} (h : Stops s r) (f : α → State → Res β) :
    Stops s (r.bind f) := by
  rcases h with ⟨τ, h⟩ | ⟨q, rfl⟩
  · exact .inl ⟨τ, h.bind f⟩
  · exact .inr ⟨q, rfl⟩

theorem Stops.from {α : Type} {s u : State} {r : Res α} (h : Stops u r) (hq : Quiet s u) : Stops s r := by
  rcases h with ⟨τ, h⟩ | h
  · exact .inl ⟨τ, h.from hq⟩
  · exact .inr h

theorem Stops.finish {s t : State} {r : Res Unit} (h : Stops s r) (ht : r.finish = .next t) :
    ∃ τ : Trap, trapsWith s t τ.exc τ.tval := by
  rcases h with ⟨τ, h⟩ | ⟨q, rfl⟩
  · obtain ⟨t', ht', htw⟩ := h.finish
    obtain rfl : t' = t := by rw [ht] at ht'; exact (Host.Outcome.next.inj ht').symm
    exact ⟨τ, htw⟩
  · cases ht

section
variable {va : Word} {n : Nat}

/-- No granule and no split helps a load-reserved or a store-conditional (R102). -/
theorem access_lrSc_stops {kind : AccessKind} (hk : kind = .lr ∨ kind = .sc) (hmis : va.toNat % n ≠ 0) (s : State) :
    Stops s (access kind va n s) := by
  have hal : alignStage s.cfg kind va n = .misaligned (misalignedExc s.cfg kind va) := by
    rcases hk with rfl | rfl <;> simp [alignStage, hmis]
  cases h : access kind va n s with
  | ok shape u =>
    obtain ⟨-, hshape, h⟩ := access_ok h
    rw [hal] at hshape
    rcases h with ⟨rfl, -⟩ | ⟨rfl, -⟩ <;> cases hshape
  | raise τ u => exact .inl ⟨τ, u, rfl, quiet_of_view (access_raise h).2.2⟩
  | refuse q => exact .inr ⟨q, rfl⟩

theorem scFails_stops (hmis : va.toNat % n ≠ 0) (rd : Reg) (s : State) : Stops s (scFails n rd va s) := by
  refine Stops.bind ?_ _
  unfold scFailTests
  split
  · exact (access_lrSc_stops (.inr rfl) hmis s).bind _
  · cases htr : translatable s.cfg va n with
    | false => exact .inl ⟨_, alignOnly_untranslatable htr⟩
    | true => exact .inl ⟨_, alignOnly_misaligned htr hmis⟩

/-- A misaligned load-reserved or store-conditional that answers a next state has trapped (R237). -/
theorem Performs.lrSc_traps {i : Instr} {s t : State} {kind : AccessKind} (hp : Performs i s kind va n)
    (hk : kind = .lr ∨ kind = .sc) (hmis : va.toNat % n ≠ 0) (h : exec i s = .next t) :
    ∃ τ : Trap, trapsWith s t τ.exc τ.tval := by
  cases hp with
  | atomic f _ hexec => exact ((access_lrSc_stops hk hmis s).bind f).finish (hexec ▸ h)
  | conditional rd rs1 rs2 _ hexec =>
    rw [hexec] at h
    rcases storeConditional_cases n i rd rs1 rs2 s with ⟨-, e⟩ | ⟨-, e⟩ <;> rw [e] at h
    · exact (((access_lrSc_stops hk hmis _).bind _).from (quiet_tickSc s)).finish h
    · exact ((scFails_stops hmis rd _).from (quiet_ite_tickSc _ s)).finish h
  | load => simp at hk
  | store => simp at hk

end

/-- Settles O23: a form that does not exist traps too. -/
theorem lrScMisalignedNeverCompletes : Obligations.LrScMisalignedNeverCompletes := by
  unfold Obligations.LrScMisalignedNeverCompletes
  intro i s t kind va n hd hk hmis h
  have htrap : ∃ τ : Trap, trapsWith s t τ.exc τ.tval := by
    rcases illegal_or_performs hd with ⟨-, hill⟩ | hp
    · obtain ⟨t', ht', htw⟩ := illegal_trapsWith i s
      obtain rfl : t = t' := Host.Outcome.next.inj ((h.symm.trans hill).trans ht')
      exact ⟨⟨_, _⟩, htw⟩
    · exact hp.lrSc_traps hk hmis h
  obtain ⟨τ, htrap, hpc, hregs, hmem, -, -, -, -, -, -, -, hresv⟩ := htrap
  exact ⟨by rw [htrap]; rfl, hpc, hregs, hmem, hresv⟩

/-! ## Misaligned loads and stores made in parts (R99, R101, R143) -/

/-- What a load leaves after its reads: its register written, the pc moved (R245). -/
theorem load_leaves {s u : State} (hr : Reads s u) (rd : Reg) {x : Word} (hx : truncX s.cfg x = x) :
    writesReg s (advance (writeReg rd x u)) rd x ∧ storesNothing s (advance (writeReg rd x u)) ∧
      movesOn s (advance (writeReg rd x u)) ∧ sameControl s (advance (writeReg rd x u)) ∧
      (advance (writeReg rd x u)).resv = s.resv ∧ eventsExtend s (advance (writeReg rd x u)) := by
  have hc := hr.core
  refine ⟨⟨?_, fun r hne => ?_⟩, ⟨fun a => by simp [hr.mem], by simp [hr.stored]⟩, ?_, ?_, by simp [hc.resv], ?_⟩
  · rw [readReg_advance, readReg_writeReg_self, hc.cfg, hx]
  · rw [readReg_advance, readReg_writeReg_ne _ _ hne, hc.readReg]
  · rw [movesOn, advance_pc_toNat, writeReg_cfg, curPc_writeReg, hc.cfg, hc.curPc]
  · simp [sameControl, hc.cfg, hc.priv, hc.mprv, hc.mpp, hc.pmp, hc.stale, hc.trap]
  · simpa [eventsExtend] using hr.events

/-- A load made in parts that are granted completes; away from free values its value is memory's (R99, R101, R245). -/
theorem load_split {n : Nat} {signed : Bool} {i : Instr} {rd rs1 : Reg} {imm : BitVec 12} {s : State} (hn : 0 < n)
    (h : splitGranted s .load (effAddr s rs1 imm) n) :
    ∃ (t : State) (v : BitVec (8 * n)), load n signed true i rd rs1 imm s = .next t ∧
      writesReg s t rd (if signed then sextX s.cfg v else zextX s.cfg v) ∧ storesNothing s t ∧ movesOn s t ∧
      sameControl s t ∧ t.resv = s.resv ∧ eventsExtend s t ∧
      ((∀ k, k < n → readIsFree s.cfg ((effAddr s rs1 imm).toNat + k) = false) →
        v = Memory.read s.mem (effAddr s rs1 imm).toNat n) := by
  obtain ⟨v, u, hu, hr, hv⟩ := readData_done hn (.inr h)
  have hx : truncX s.cfg (if signed then sextX s.cfg v else zextX s.cfg v) =
      if signed then sextX s.cfg v else zextX s.cfg v := by cases signed <;> simp
  obtain ⟨hreg, hmem, hpc, hctl, hresv, hev⟩ := load_leaves hr rd hx
  refine ⟨_, v, ?_, hreg, hmem, hpc, hctl, hresv, hev, hv⟩
  rw [load, hu]
  rfl

/-- Settles O54: each form that exists is one load of its width. -/
theorem splitLoadResult : Obligations.SplitLoadResult := by
  unfold Obligations.SplitLoadResult
  intro rd rs1 imm s i n signed hi h
  have hexec : exec i s = load n signed true i rd rs1 imm s := by
    rcases hi with ⟨rfl, rfl, rfl⟩ | ⟨rfl, rfl, rfl⟩ | ⟨rfl, rfl, rfl⟩ | ⟨rfl, rfl, rfl, h64⟩ | ⟨rfl, rfl, rfl, h64⟩
    · rfl
    · rfl
    · rfl
    · exact congrArg (load 4 false · _ rd rs1 imm s) (beq_iff_eq.2 h64)
    · exact congrArg (load 8 true · _ rd rs1 imm s) (beq_iff_eq.2 h64)
  rw [hexec]
  exact load_split (by omega) h

/-- What a store leaves after its writes: the reservation kept or dropped, the pc moved (R246). -/
theorem store_leaves {s u : State} (hc : SameCore s u) :
    sameRegs s (advance (freeResv u)) ∧ movesOn s (advance (freeResv u)) ∧ sameControl s (advance (freeResv u)) ∧
      resvKeptOrDropped s (advance (freeResv u)) := by
  refine ⟨fun r => by simp [hc.readReg], ?_, ?_, ?_⟩
  · rw [movesOn, advance_pc_toNat, freeResv_cfg, curPc_freeResv, hc.cfg, hc.curPc]
  · simp [sameControl, hc.cfg, hc.priv, hc.mprv, hc.mpp, hc.pmp, hc.stale, hc.trap]
  · rw [resvKeptOrDropped, advance_resv, ← hc.resv]
    exact freeResv_resv u

/-- A store made in parts that are granted completes and leaves what one write would have (R99, R101, R143, R246). -/
theorem store_split {n : Nat} {i : Instr} {rs1 rs2 : Reg} {imm : BitVec 12} {s : State} (hm : Memory.wf s.mem)
    (h : splitGranted s .store (effAddr s rs1 imm) n) :
    ∃ t, store n true i rs1 rs2 imm s = .next t ∧ sameRegs s t ∧
      storesBytes s t (effAddr s rs1 imm).toNat n ((readReg s rs2).setWidth (8 * n)) ∧ movesOn s t ∧ sameControl s t ∧
      resvKeptOrDropped s t ∧ eventsExtend s t := by
  obtain ⟨u, hu, hc, -, hev, hbytes⟩ := writeData_done (v := source s rs2 n) hm (.inr h)
  obtain ⟨hregs, hpc, hctl, hresv⟩ := store_leaves hc
  refine ⟨_, ?_, hregs, ?_, hpc, hctl, hresv, ?_⟩
  · rw [store, hu]
    rfl
  · simpa [storesBytes, sameMemOutside, source] using hbytes
  · simpa [eventsExtend] using hev

/-- Settles O55: each form that exists is one store of its width. -/
theorem splitStoreResult : Obligations.SplitStoreResult := by
  unfold Obligations.SplitStoreResult
  intro rs1 rs2 imm s i n hm hi h
  have hexec : exec i s = store n true i rs1 rs2 imm s := by
    rcases hi with ⟨rfl, rfl⟩ | ⟨rfl, rfl⟩ | ⟨rfl, rfl, h64⟩
    · rfl
    · rfl
    · exact congrArg (store 8 · _ rs1 rs2 imm s) (beq_iff_eq.2 h64)
  rw [hexec]
  exact store_split hm h

/-! ## Runs of store-conditionals (R91, R231, R232, R235) -/

/-- The state a store-conditional that succeeds leaves, from the state its access left. -/
def scStored (rd : Reg) (va : Word) {n : Nat} (v : BitVec (8 * n)) (w : State) : State :=
  advance (writeReg rd 0 { memWrite va.toNat n v w with resv := none })

/-- The state a store-conditional that fails leaves, from the state its checks left. -/
def scUnstored (rd : Reg) (w : State) : State := advance (writeReg rd 1 { w with resv := none })

@[simp] theorem truncX_one (c : Cfg) : truncX c 1#64 = 1#64 := by
  unfold truncX
  cases c.mxlen <;> rfl

section
variable (rd : Reg) (va : Word) {n : Nat} (v : BitVec (8 * n)) (w : State)

@[simp] theorem scStored_resv : (scStored rd va v w).resv = none := by simp [scStored]

@[simp] theorem scStored_scDraws : (scStored rd va v w).scDraws = w.scDraws := by simp [scStored]

/-- Code 0 (R232). -/
@[simp] theorem scStored_code : readReg (scStored rd va v w) rd = 0 := by
  rw [scStored, readReg_advance, readReg_writeReg_self]
  simp

theorem scStored_storesBytes (hm : Memory.wf w.mem) : storesBytes w (scStored rd va v w) va.toNat n v := by
  refine ⟨?_, fun a ha => ?_, fun a => ?_⟩
  · simp [scStored, Memory.read_write_self hm]
  · simp [scStored, Memory.get_write_out _ _ ha]
  · simp [scStored, mem_insertAddrs]

@[simp] theorem scUnstored_resv : (scUnstored rd w).resv = none := by simp [scUnstored]

@[simp] theorem scUnstored_scDraws : (scUnstored rd w).scDraws = w.scDraws := by simp [scUnstored]

/-- Code 1 (R232). -/
@[simp] theorem scUnstored_code : readReg (scUnstored rd w) rd = if rd = 0 then 0 else 1 := by
  rw [scUnstored, readReg_advance, readReg_writeReg_self]
  simp

theorem scUnstored_storesNothing : storesNothing w (scUnstored rd w) := by
  simp [storesNothing, sameMem, scUnstored]

end

/-- The checks of a failing store-conditional choose a view at most. -/
theorem scFailTests_state {va : Word} {n : Nat} {s w : State} {u : Unit} (h : scFailTests va n s = .ok u w) :
    w = s ∨ w = afterView s := by
  unfold scFailTests at h
  split at h
  · obtain ⟨shape, w', h1, h2⟩ := Res.bind_eq_ok h
    cases h2
    exact access_state h1
  · unfold alignOnly at h
    split at h
    · cases h
    · split at h
      · cases h; exact .inl rfl
      · cases h

/-- An instruction body that leaves no trap has answered a value. -/
theorem Res.finish_completed {r : Res Unit} {t : State} (h : r.finish = .next t) (ht : t.trap = none) :
    r = .ok () t := by
  rcases Res.finish_eq_next h with h | ⟨τ, u, -, rfl⟩
  · exact h
  · cases ht

theorem illegal_not_completed {i : Instr} {s t : State} (h : illegal i s = .next t) : t.trap ≠ none := by
  cases h
  exact Option.some_ne_none _

/-- How a store-conditional completes: held and `ok`, it stores; otherwise it stores nothing (R232). -/
theorem storeConditional_completed {n : Nat} {present : Bool} {i : Instr} {rd rs1 rs2 : Reg} {s t : State}
    (h : storeConditional n present i rd rs1 rs2 s = .next t) (ht : t.trap = none) :
    ((holdsReservation s (readReg s rs1) n = true ∧ Config.scOk (readReg s rs1).toNat s.scDraws = true) ∧
      t = scStored rd (readReg s rs1) (source s rs2 n) (afterView (tickSc s))) ∨
    (¬(holdsReservation s (readReg s rs1) n = true ∧ Config.scOk (readReg s rs1).toNat s.scDraws = true) ∧
      ∃ u w, u = (if holdsReservation s (readReg s rs1) n then tickSc s else s) ∧ (w = u ∨ w = afterView u) ∧
        t = scUnstored rd w) := by
  cases present
  · exact absurd ht (illegal_not_completed (i := i) (s := s) h)
  rcases storeConditional_cases n i rd rs1 rs2 s with ⟨hok, e⟩ | ⟨hno, e⟩ <;> rw [e] at h
  · refine .inl ⟨hok, ?_⟩
    obtain ⟨shape, w, hacc, hw⟩ := Res.bind_eq_ok (Res.finish_completed h ht)
    cases hw
    obtain ⟨-, hshape, h⟩ := access_ok hacc
    rcases h with ⟨-, rfl, -⟩ | ⟨rfl, -⟩
    · rfl
    · exact absurd hshape (alignStage_ne_parts (.inr (.inl rfl)))
  · refine .inr ⟨hno, ?_⟩
    obtain ⟨_, w, htests, hw⟩ := Res.bind_eq_ok (Res.finish_completed h ht)
    cases hw
    exact ⟨_, w, rfl, scFailTests_state htests, rfl⟩

/-- A completed load-reserved holds its address and width, and draws no `ok` (R231). -/
theorem loadReserved_completed {n : Nat} {present : Bool} {i : Instr} {rd rs1 : Reg} {s t : State}
    (h : loadReserved n present i rd rs1 s = .next t) (ht : t.trap = none) :
    t.resv = some ⟨(readReg s rs1).toNat, n⟩ ∧ t.scDraws = s.scDraws := by
  cases present
  · exact absurd ht (illegal_not_completed (i := i) (s := s) h)
  obtain ⟨shape, w, hacc, hw⟩ := Res.bind_eq_ok (Res.finish_completed h ht)
  cases hw
  refine ⟨rfl, ?_⟩
  rcases access_state hacc with rfl | rfl <;> simp

theorem exec_of_isSc {i : Instr} (h : isSc i = true) (s : State) :
    ∃ n present rd rs1 rs2, destOf i = some rd ∧ dataAccess i s = some (.sc, readReg s rs1, n) ∧
      exec i s = storeConditional n present i rd rs1 rs2 s := by
  cases i with
  | scW aq rl rd rs1 rs2 => exact ⟨4, true, rd, rs1, rs2, rfl, rfl, rfl⟩
  | scD aq rl rd rs1 rs2 => exact ⟨8, s.cfg.mxlen == .rv64, rd, rs1, rs2, rfl, rfl, rfl⟩
  | _ => cases h

theorem exec_of_lr {i : Instr} {s : State} {va : Word} {n : Nat} (h : dataAccess i s = some (.lr, va, n)) :
    ∃ present rd rs1, va = readReg s rs1 ∧ exec i s = loadReserved n present i rd rs1 s := by
  cases i with
  | lrW aq rl rd rs1 => cases h; exact ⟨true, rd, rs1, rfl, rfl⟩
  | lrD aq rl rd rs1 => cases h; exact ⟨s.cfg.mxlen == .rv64, rd, rs1, rfl, rfl⟩
  | _ => cases h

/-- A store-conditional that completes leaves no reservation (R232). -/
theorem sc_completed_resv {i : Instr} {s t : State} (hsc : isSc i = true) (h : exec i s = .next t)
    (ht : t.trap = none) : t.resv = none := by
  obtain ⟨n, present, rd, rs1, rs2, -, -, hexec⟩ := exec_of_isSc hsc s
  rcases storeConditional_completed (hexec ▸ h) ht with ⟨-, rfl⟩ | ⟨-, u, w, -, -, rfl⟩ <;> simp

/-- Without a reservation a store-conditional that completes has failed (R232). -/
theorem sc_fails_without_reservation {i : Instr} {s t : State} {rd : Reg} (hsc : isSc i = true)
    (hd : destOf i = some rd) (hresv : s.resv = none) (h : exec i s = .next t) (ht : t.trap = none) :
    storesNothing s t ∧ readReg t rd = (if rd = 0 then 0 else 1) := by
  obtain ⟨n, present, rd', rs1, rs2, hd', -, hexec⟩ := exec_of_isSc hsc s
  obtain rfl : rd' = rd := Option.some.inj (hd'.symm.trans hd)
  have hno : holdsReservation s (readReg s rs1) n = false := by simp [holdsReservation, hresv]
  rcases storeConditional_completed (hexec ▸ h) ht with ⟨⟨hheld, -⟩, -⟩ | ⟨-, u, w, hu, hw, rfl⟩
  · rw [hno] at hheld; cases hheld
  · rw [hno] at hu
    obtain rfl : u = s := hu
    refine ⟨?_, scUnstored_code rd' w⟩
    have hst := scUnstored_storesNothing rd' w
    rcases hw with rfl | rfl
    · exact hst
    · simpa [storesNothing, sameMem] using hst

/-- A store-conditional that holds its reservation draws one `ok`, which decides (R232). -/
theorem sc_completed_held {i : Instr} {s t : State} {va : Word} {n : Nat} {rd rs1 rs2 : Reg} {present : Bool}
    (hexec : exec i s = storeConditional n present i rd rs1 rs2 s) (hva : va = readReg s rs1)
    (hheld : holdsReservation s va n = true) (hm : Memory.wf s.mem) (h : exec i s = .next t) (ht : t.trap = none) :
    t.scDraws = s.scDraws + 1 ∧
      if Config.scOk va.toNat s.scDraws = true then
        readReg t rd = 0 ∧ storesBytes s t va.toNat n ((readReg s rs2).setWidth (8 * n))
      else readReg t rd = (if rd = 0 then 0 else 1) ∧ storesNothing s t := by
  subst hva
  rcases storeConditional_completed (hexec ▸ h) ht with ⟨⟨-, hok⟩, rfl⟩ | ⟨hno, u, w, hu, hw, rfl⟩
  · rw [if_pos hok]
    refine ⟨by simp, scStored_code .., ?_⟩
    have hbytes := scStored_storesBytes rd (readReg s rs1) (source s rs2 n) (afterView (tickSc s)) (by simpa using hm)
    simpa [storesBytes, sameMemOutside, source] using hbytes
  · have hok : ¬Config.scOk (readReg s rs1).toNat s.scDraws = true := fun k => hno ⟨hheld, k⟩
    rw [if_neg hok]
    rw [hheld] at hu
    obtain rfl : u = tickSc s := hu
    have hst := scUnstored_storesNothing rd w
    rcases hw with rfl | rfl <;>
      exact ⟨by simp, scUnstored_code .., by simpa [storesNothing, sameMem] using hst⟩

/-- Between the two instructions of a constrained loop the reservation and the counter of `ok` stay (R235). -/
theorem onlyBetween.keeps {s t : State} (h : onlyBetween s t) : t.resv = s.resv ∧ t.scDraws = s.scDraws := by
  rw [h]
  exact ⟨rfl, rfl⟩

/-- In every turn of a constrained loop the store-conditional holds its reservation (R231, R235). -/
theorem constrainedLoop.held {lr sc : Instr} {va : Word} {n : Nat} {atLr atSc : Nat → State}
    (h : constrainedLoop lr sc va n atLr atSc) (k : Nat) (hn : 0 < n) (htr : translatable (atSc k).cfg va n = true) :
    holdsReservation (atSc k) va n = true ∧ (atSc k).scDraws = (atLr k).scDraws := by
  obtain ⟨hlr, -, ⟨u, hu, hut, hub⟩, -⟩ := h k
  obtain ⟨present, rd, rs1, rfl, hexec⟩ := exec_of_lr hlr
  obtain ⟨hresv, hdraws⟩ := loadReserved_completed (hexec ▸ hu) hut
  obtain ⟨hbresv, hbdraws⟩ := hub.keeps
  have hlt := (translatable_iff.1 htr).2
  refine ⟨?_, hbdraws.trans hdraws⟩
  rw [holdsReservation, hbresv, hresv, Nat.mod_eq_of_lt (by omega), beq_self_eq_true]

/-- One turn of a constrained loop: its store-conditional draws one `ok`, which decides (R232, R235). -/
theorem constrainedLoop.turn {lr sc : Instr} {va : Word} {n : Nat} {rd rs1 rs2 : Reg} {atLr atSc : Nat → State}
    (hloop : constrainedLoop lr sc va n atLr atSc)
    (hexec : ∀ s, ∃ present, exec sc s = storeConditional n present sc rd rs1 rs2 s)
    (hdata : ∀ s, dataAccess sc s = some (.sc, readReg s rs1, n)) (hn : 0 < n) (k : Nat)
    (htr : translatable (atSc k).cfg va n = true) (hm : Memory.wf (atSc k).mem) :
    (atSc k).scDraws = (atLr k).scDraws ∧ (atLr (k + 1)).scDraws = (atSc k).scDraws + 1 ∧
      ∃ t, exec sc (atSc k) = .next t ∧
        if Config.scOk va.toNat (atSc k).scDraws = true then
          readReg t rd = 0 ∧ storesBytes (atSc k) t va.toNat n ((readReg (atSc k) rs2).setWidth (8 * n))
        else readReg t rd = (if rd = 0 then 0 else 1) ∧ storesNothing (atSc k) t := by
  obtain ⟨hheld, hlr⟩ := hloop.held k hn htr
  obtain ⟨-, hsc, -, t, ht, htt, hbetween⟩ := hloop k
  obtain ⟨present, hexec⟩ := hexec (atSc k)
  have hva : readReg (atSc k) rs1 = va := by simpa [hdata] using hsc
  obtain ⟨hdraws, hturn⟩ := sc_completed_held hexec hva.symm hheld hm ht htt
  exact ⟨hlr, hbetween.keeps.2.trans hdraws, t, ht, hturn⟩

/-- Settles O48: a completed store-conditional leaves no reservation for a second one; in a loop every turn holds its
own, and draws the next `ok`. -/
theorem secondScFailsLoopSucceeds : Obligations.SecondScFailsLoopSucceeds := by
  unfold Obligations.SecondScFailsLoopSucceeds
  constructor
  · intro i j s u t rd hi hj hd hu hut ht htt
    obtain ⟨hst, hcode⟩ := sc_fails_without_reservation hj hd (sc_completed_resv hi hu hut) ht htt
    exact ⟨hst, hcode, sc_completed_resv hj ht htt⟩
  · intro c lr sc va n aq rl rd rs1 rs2 atLr atSc hform hloop hstates
    have hn : 0 < n := by omega
    have hexec (s : State) : (∃ present, exec sc s = storeConditional n present sc rd rs1 rs2 s) ∧
        dataAccess sc s = some (.sc, readReg s rs1, n) := by
      rcases hform with ⟨rfl, rfl⟩ | ⟨rfl, rfl⟩
      · exact ⟨⟨true, rfl⟩, rfl⟩
      · exact ⟨⟨s.cfg.mxlen == .rv64, rfl⟩, rfl⟩
    have hturn (k : Nat) := hloop.turn (fun s => (hexec s).1) (fun s => (hexec s).2) hn k
      (granted_iff.1 (hstates k).2.1).1 (hstates k).2.2
    refine ⟨fun k => ?_, fun k => (hturn k).2.2, fun hfair hev k => ?_⟩
    · induction k with
      | zero => rfl
      | succ k ih => rw [(hturn (k + 1)).1, (hturn k).2.1, ih, Nat.add_assoc]
    · obtain ⟨j, hj, hok⟩ := hfair lr sc va n atLr atSc hloop (fun k => (hstates k).1) hev k
      obtain ⟨-, -, t, ht, hres⟩ := hturn j
      rw [if_pos hok] at hres
      exact ⟨j, t, hj, ht, hres⟩

end Sys2Proof.Machine
end

section
/-! # Encoding (30_encoding.md): the decoder and the encoder, the opcode table, forms that do not exist, `fence` -/

namespace Sys2Proof

/-! ## The decoder undone by the encoder (R171 to R180) -/

/-- Settles O1: the round trip, format by format. -/
theorem decodeEncode : Obligations.DecodeEncode := by
  unfold Obligations.DecodeEncode
  exact decode_encode

/-- An I-type word, rebuilt when its major opcode and `funct3` are known by the numbers the decoder matches on. -/
theorem encodeI_of_toNat {w : BitVec 32} {f3 : BitVec 3} {op : BitVec 7} (hop : (opcodeOf w).toNat = op.toNat)
    (h3 : (funct3Of w).toNat = f3.toNat) : encodeI (immIOf w) (rs1Of w) f3 (rdOf w) op = w := by
  rw [← BitVec.eq_of_toNat_eq hop, ← BitVec.eq_of_toNat_eq h3, encodeI_fields]

theorem encodeS_of_toNat {w : BitVec 32} {f3 : BitVec 3} {op : BitVec 7} (hop : (opcodeOf w).toNat = op.toNat)
    (h3 : (funct3Of w).toNat = f3.toNat) : encodeS (immSOf w) (rs2Of w) (rs1Of w) f3 op = w := by
  rw [← BitVec.eq_of_toNat_eq hop, ← BitVec.eq_of_toNat_eq h3, encodeS_fields]

theorem encodeAtomic_of_toNat {w : BitVec 32} {f5 : BitVec 5} {f3 : BitVec 3} {rs2 : Reg}
    (hop : (opcodeOf w).toNat = 0b0101111) (h3 : (funct3Of w).toNat = f3.toNat) (h5 : (funct5Of w).toNat = f5.toNat)
    (h2 : rs2Of w = rs2) : encodeAtomic f5 (aqOf w) (rlOf w) rs2 (rs1Of w) f3 (rdOf w) = w := by
  rw [← BitVec.eq_of_toNat_eq h3, ← BitVec.eq_of_toNat_eq h5, ← h2, encodeAtomic_fields w (BitVec.eq_of_toNat_eq hop)]

section
variable {w : BitVec 32} {i : Instr}

theorem encode_of_decodeLoad (hop : (opcodeOf w).toNat = 0b0000011) (h : decodeLoad w = some i) : encode i = w := by
  unfold decodeLoad at h
  split at h <;> cases h <;> exact encodeI_of_toNat hop ‹_›

theorem encode_of_decodeLoadFp (hop : (opcodeOf w).toNat = 0b0000111) (h : decodeLoadFp w = some i) :
    encode i = w := by
  unfold decodeLoadFp at h
  split at h <;> cases h <;> exact encodeI_of_toNat hop ‹_›

theorem encode_of_decodeMiscMem (hop : (opcodeOf w).toNat = 0b0001111) (h : decodeMiscMem w = some i) :
    encode i = w := by
  unfold decodeMiscMem at h
  split at h <;> cases h
  rw [encode, fence_fields]
  exact encodeI_of_toNat hop ‹_›

theorem encode_of_decodeStore (hop : (opcodeOf w).toNat = 0b0100011) (h : decodeStore w = some i) : encode i = w := by
  unfold decodeStore at h
  split at h <;> cases h <;> exact encodeS_of_toNat hop ‹_›

theorem encode_of_decodeStoreFp (hop : (opcodeOf w).toNat = 0b0100111) (h : decodeStoreFp w = some i) :
    encode i = w := by
  unfold decodeStoreFp at h
  split at h <;> cases h <;> exact encodeS_of_toNat hop ‹_›

theorem encode_of_decodeAmoW (hop : (opcodeOf w).toNat = 0b0101111) (h3 : (funct3Of w).toNat = 0b010)
    (h : decodeAmoW w = some i) : encode i = w := by
  unfold decodeAmoW at h
  split at h
  case h_3 h5 =>
    obtain ⟨h2, rfl⟩ := Option.ite_none_right_eq_some.1 h |>.imp_right Option.some.inj
    exact encodeAtomic_of_toNat hop h3 h5 h2
  all_goals cases h <;> exact encodeAtomic_of_toNat hop h3 ‹_› rfl

theorem encode_of_decodeAmoD (hop : (opcodeOf w).toNat = 0b0101111) (h3 : (funct3Of w).toNat = 0b011)
    (h : decodeAmoD w = some i) : encode i = w := by
  unfold decodeAmoD at h
  split at h
  case h_3 h5 =>
    obtain ⟨h2, rfl⟩ := Option.ite_none_right_eq_some.1 h |>.imp_right Option.some.inj
    exact encodeAtomic_of_toNat hop h3 h5 h2
  all_goals cases h <;> exact encodeAtomic_of_toNat hop h3 ‹_› rfl

theorem encode_of_decodeAmo (hop : (opcodeOf w).toNat = 0b0101111) (h : decodeAmo w = some i) : encode i = w := by
  unfold decodeAmo at h
  split at h
  · exact encode_of_decodeAmoW hop ‹_› h
  · exact encode_of_decodeAmoD hop ‹_› h
  · cases h

theorem encode_of_decodeSystem (hop : (opcodeOf w).toNat = 0b1110011) (h : decodeSystem w = some i) :
    encode i = w := by
  unfold decodeSystem at h
  split at h
  case h_1 h3 =>
    obtain ⟨⟨h7, hrd⟩, rfl⟩ := Option.ite_none_right_eq_some.1 h |>.imp_right Option.some.inj
    rw [encode, ← h7, ← hrd, show 0b1110011#7 = opcodeOf w from (BitVec.eq_of_toNat_eq hop).symm,
      show 0b000#3 = funct3Of w from (BitVec.eq_of_toNat_eq h3).symm, encodeR_fields]
  all_goals cases h <;> exact encodeI_of_toNat hop ‹_›

/-- No bit of a word that decodes is dropped: each format is rebuilt from its fields. -/
theorem encode_of_decode (h : decode w = some i) : encode i = w := by
  unfold decode at h
  split at h
  · exact encode_of_decodeLoad ‹_› h
  · exact encode_of_decodeLoadFp ‹_› h
  · exact encode_of_decodeMiscMem ‹_› h
  · exact encode_of_decodeStore ‹_› h
  · exact encode_of_decodeStoreFp ‹_› h
  · exact encode_of_decodeAmo ‹_› h
  · exact encode_of_decodeSystem ‹_› h
  · cases h

end

/-- Settles O2: the encoder undoes the decoder, major opcode by major opcode. -/
theorem encodeDecode : Obligations.EncodeDecode := by
  unfold Obligations.EncodeDecode
  intro w i h
  exact encode_of_decode h

/-! ## The opcode table (R178, R179) -/

/-- A field all of whose bits the mask tests is that of the value: the bits of an accepted word. -/
theorem extractLsb'_of_masked {w m v : BitVec 32} {start len : Nat} (h : w &&& m = v)
    (hm : m.extractLsb' start len = BitVec.allOnes len) : w.extractLsb' start len = v.extractLsb' start len := by
  rw [← h, BitVec.extractLsb'_and, hm, BitVec.and_allOnes]

/-- What the decoder tests of a word: the major opcode and `funct3`; `funct5` of an atomic word, and `rs2` where it is
a load-reserved; `funct7` and `rd` of `sfence.vma`. -/
structure SameTested (w v : BitVec 32) : Prop where
  opcode : opcodeOf w = opcodeOf v
  funct3 : funct3Of w = funct3Of v
  funct5 : opcodeOf v = 0b0101111#7 → funct5Of w = funct5Of v
  rs2 : opcodeOf v = 0b0101111#7 → funct5Of v = 0b00010#5 → rs2Of w = rs2Of v
  funct7 : opcodeOf v = 0b1110011#7 → funct3Of v = 0b000#3 → funct7Of w = funct7Of v
  rd : opcodeOf v = 0b1110011#7 → funct3Of v = 0b000#3 → rdOf w = rdOf v

/-- The mask of every row covers the fields the decoder tests of the words the row accepts. -/
theorem opcodeTable_mask_covers : ∀ r ∈ opcodeTable,
    opcodeOf r.mask = BitVec.allOnes 7 ∧ funct3Of r.mask = BitVec.allOnes 3 ∧
    (opcodeOf r.value = 0b0101111#7 → funct5Of r.mask = BitVec.allOnes 5) ∧
    (opcodeOf r.value = 0b0101111#7 → funct5Of r.value = 0b00010#5 → rs2Of r.mask = BitVec.allOnes 5) ∧
    (opcodeOf r.value = 0b1110011#7 → funct3Of r.value = 0b000#3 → funct7Of r.mask = BitVec.allOnes 7) ∧
    (opcodeOf r.value = 0b1110011#7 → funct3Of r.value = 0b000#3 → rdOf r.mask = BitVec.allOnes 5) := by
  decide +kernel

theorem sameTested_of_masked {w : BitVec 32} {r : OpcodeRow} (hr : r ∈ opcodeTable) (h : w &&& r.mask = r.value) :
    SameTested w r.value := by
  obtain ⟨hop, h3, h5, h2, h7, hd⟩ := opcodeTable_mask_covers r hr
  exact ⟨extractLsb'_of_masked h hop, extractLsb'_of_masked h h3, fun ho => extractLsb'_of_masked h (h5 ho),
    fun ho hf => extractLsb'_of_masked h (h2 ho hf), fun ho hf => extractLsb'_of_masked h (h7 ho hf),
    fun ho hf => extractLsb'_of_masked h (hd ho hf)⟩

/-- The mnemonic of the instruction a word decodes to, if it does. -/
def mnemonicOf (w : BitVec 32) : Option String := (decode w).map Instr.mnemonic

section
variable {w v : BitVec 32}

theorem mnemonic_decodeAmoW (h5 : funct5Of w = funct5Of v) (h2 : funct5Of v = 0b00010#5 → rs2Of w = rs2Of v) :
    (decodeAmoW w).map Instr.mnemonic = (decodeAmoW v).map Instr.mnemonic := by
  unfold decodeAmoW
  rw [h5]
  split
  case h_3 hlr =>
    rw [h2 (BitVec.eq_of_toNat_eq hlr)]
    split <;> rfl
  all_goals rfl

theorem mnemonic_decodeAmoD (h5 : funct5Of w = funct5Of v) (h2 : funct5Of v = 0b00010#5 → rs2Of w = rs2Of v) :
    (decodeAmoD w).map Instr.mnemonic = (decodeAmoD v).map Instr.mnemonic := by
  unfold decodeAmoD
  rw [h5]
  split
  case h_3 hlr =>
    rw [h2 (BitVec.eq_of_toNat_eq hlr)]
    split <;> rfl
  all_goals rfl

theorem mnemonic_decodeSystem (h3 : funct3Of w = funct3Of v) (h7 : funct3Of v = 0b000#3 → funct7Of w = funct7Of v)
    (hd : funct3Of v = 0b000#3 → rdOf w = rdOf v) :
    (decodeSystem w).map Instr.mnemonic = (decodeSystem v).map Instr.mnemonic := by
  unfold decodeSystem
  rw [h3]
  split
  case h_1 hzero =>
    have hzero : funct3Of v = 0b000#3 := BitVec.eq_of_toNat_eq hzero
    rw [h7 hzero, hd hzero]
    split <;> rfl
  all_goals rfl

/-- The decoder reads nothing else of a word to choose its instruction. -/
theorem SameTested.mnemonicOf (h : SameTested w v) : mnemonicOf w = mnemonicOf v := by
  obtain ⟨hop, h3, h5, h2, h7, hd⟩ := h
  unfold Sys2Proof.mnemonicOf decode
  rw [hop]
  split
  · rw [decodeLoad, decodeLoad, h3]
    split <;> rfl
  · rw [decodeLoadFp, decodeLoadFp, h3]
    split <;> rfl
  · rw [decodeMiscMem, decodeMiscMem, h3]
    split <;> rfl
  · rw [decodeStore, decodeStore, h3]
    split <;> rfl
  · rw [decodeStoreFp, decodeStoreFp, h3]
    split <;> rfl
  · rename_i hamo
    have hamo : opcodeOf v = 0b0101111#7 := BitVec.eq_of_toNat_eq hamo
    rw [decodeAmo, decodeAmo, h3]
    split
    · exact mnemonic_decodeAmoW (h5 hamo) (h2 hamo)
    · exact mnemonic_decodeAmoD (h5 hamo) (h2 hamo)
    · rfl
  · rename_i hsys
    have hsys : opcodeOf v = 0b1110011#7 := BitVec.eq_of_toNat_eq hsys
    exact mnemonic_decodeSystem h3 (h7 hsys) (hd hsys)
  · rfl

end

/-- The value of every row decodes to its instruction. -/
theorem mnemonicOf_value : ∀ r ∈ opcodeTable, mnemonicOf r.value = some r.mnemonic := by decide +kernel

/-- A word a row accepts decodes to the instruction of the row (R179). -/
theorem mnemonicOf_of_masked {w : BitVec 32} {r : OpcodeRow} (hr : r ∈ opcodeTable) (h : w &&& r.mask = r.value) :
    mnemonicOf w = some r.mnemonic := by
  rw [(sameTested_of_masked hr h).mnemonicOf, mnemonicOf_value r hr]

/-- No two rows name the same instruction. -/
theorem opcodeTable_mnemonic_inj : ∀ r ∈ opcodeTable, ∀ q ∈ opcodeTable, r.mnemonic = q.mnemonic → r = q := by
  decide +kernel

/-- The family `OwnRow`, for every instruction. -/
theorem ownRow : ∀ i : Instr, Laws.OwnRow.Statement i
  | .amoswapW .. => Laws.OwnRow.amoswapW ..
  | .amoswapD .. => Laws.OwnRow.amoswapD ..
  | .amoaddW .. => Laws.OwnRow.amoaddW ..
  | .amoaddD .. => Laws.OwnRow.amoaddD ..
  | .amoxorW .. => Laws.OwnRow.amoxorW ..
  | .amoxorD .. => Laws.OwnRow.amoxorD ..
  | .amoandW .. => Laws.OwnRow.amoandW ..
  | .amoandD .. => Laws.OwnRow.amoandD ..
  | .amoorW .. => Laws.OwnRow.amoorW ..
  | .amoorD .. => Laws.OwnRow.amoorD ..
  | .amominW .. => Laws.OwnRow.amominW ..
  | .amominD .. => Laws.OwnRow.amominD ..
  | .amomaxW .. => Laws.OwnRow.amomaxW ..
  | .amomaxD .. => Laws.OwnRow.amomaxD ..
  | .amominuW .. => Laws.OwnRow.amominuW ..
  | .amominuD .. => Laws.OwnRow.amominuD ..
  | .amomaxuW .. => Laws.OwnRow.amomaxuW ..
  | .amomaxuD .. => Laws.OwnRow.amomaxuD ..
  | .lrW .. => Laws.OwnRow.lrW ..
  | .lrD .. => Laws.OwnRow.lrD ..
  | .scW .. => Laws.OwnRow.scW ..
  | .scD .. => Laws.OwnRow.scD ..
  | .lb .. => Laws.OwnRow.lb ..
  | .lh .. => Laws.OwnRow.lh ..
  | .lw .. => Laws.OwnRow.lw ..
  | .ld .. => Laws.OwnRow.ld ..
  | .lbu .. => Laws.OwnRow.lbu ..
  | .lhu .. => Laws.OwnRow.lhu ..
  | .lwu .. => Laws.OwnRow.lwu ..
  | .sb .. => Laws.OwnRow.sb ..
  | .sh .. => Laws.OwnRow.sh ..
  | .sw .. => Laws.OwnRow.sw ..
  | .sd .. => Laws.OwnRow.sd ..
  | .flw .. => Laws.OwnRow.flw ..
  | .fld .. => Laws.OwnRow.fld ..
  | .flq .. => Laws.OwnRow.flq ..
  | .fsw .. => Laws.OwnRow.fsw ..
  | .fsd .. => Laws.OwnRow.fsd ..
  | .fsq .. => Laws.OwnRow.fsq ..
  | .fence .. => Laws.OwnRow.fence ..
  | .sfenceVma .. => Laws.OwnRow.sfenceVma ..
  | .csrrw .. => Laws.OwnRow.csrrw ..
  | .csrrs .. => Laws.OwnRow.csrrs ..
  | .csrrc .. => Laws.OwnRow.csrrc ..
  | .csrrwi .. => Laws.OwnRow.csrrwi ..
  | .csrrsi .. => Laws.OwnRow.csrrsi ..
  | .csrrci .. => Laws.OwnRow.csrrci ..

/-- A word that decodes is accepted by a row, that of its instruction. -/
theorem exists_row_of_decode {w : BitVec 32} {i : Instr} (h : decode w = some i) :
    ∃ r ∈ opcodeTable, w &&& r.mask = r.value ∧ r.mnemonic = i.mnemonic := by
  have hown : i.mnemonic ∈ (opcodeTable.filter fun r => r.accepts (encode i)).map OpcodeRow.mnemonic := by
    rw [show _ = [i.mnemonic] from ownRow i]
    exact List.mem_singleton_self _
  rw [encode_of_decode h] at hown
  obtain ⟨r, hr, hm⟩ := List.mem_map.1 hown
  obtain ⟨hr, hacc⟩ := List.mem_filter.1 hr
  exact ⟨r, hr, beq_iff_eq.1 hacc, hm⟩

/-- Settles O3: an accepted word decodes to its row, and a word that decodes has a row, the only one of its name. -/
theorem decodeFollowsTable : Obligations.DecodeFollowsTable := by
  unfold Obligations.DecodeFollowsTable
  intro w
  refine ⟨fun r hr => ⟨fun h => ?_, ?_⟩, fun hnone r hr h => ?_, fun hrows => ?_⟩
  · exact Option.map_eq_some_iff.1 (mnemonicOf_of_masked hr h)
  · rintro ⟨i, hi, hm⟩
    obtain ⟨q, hq, hacc, hqm⟩ := exists_row_of_decode hi
    rwa [opcodeTable_mnemonic_inj r hr q hq (hm.symm.trans hqm.symm)]
  · have hsome := mnemonicOf_of_masked hr h
    rw [mnemonicOf, hnone] at hsome
    cases hsome
  · rw [Option.eq_none_iff_forall_ne_some]
    intro i hi
    obtain ⟨r, hr, hacc, -⟩ := exists_row_of_decode hi
    exact hrows r hr hacc

end Sys2Proof

namespace Sys2Proof.Machine

/-! ## Forms that do not exist on the platform (R180 item 4, R259, R296) -/

/-- What does not exist is a 64-bit form on RV32 or an access wider than `FLEN`. -/
theorem wellFormed_eq_false_iff {i : Instr} {c : Cfg} : i.wellFormed c = false ↔
    (i.onlyRv64 = true ∧ (c.mxlen == .rv64) = false) ∨ flen c < i.fpBits := by
  rw [Instr.wellFormed, ← flen_eq_width, Bool.and_eq_false_iff, Bool.or_eq_false_iff, Bool.not_eq_false',
    decide_eq_false_iff_not, not_le]

/-- A 64-bit form on RV32 raises the illegal-instruction exception before it reads anything (R180 item 4). -/
theorem exec_onlyRv64 {i : Instr} {s : State} (hi : i.onlyRv64 = true) (hx : (s.cfg.mxlen == .rv64) = false) :
    exec i s = illegal i s := by
  cases i <;> cases hi
  case amoswapD | amoaddD | amoxorD | amoandD | amoorD | amominD | amomaxD | amominuD | amomaxuD =>
    simp [exec, execAmoswapD, execAmoaddD, execAmoxorD, execAmoandD, execAmoorD, execAmominD, execAmomaxD,
      execAmominuD, execAmomaxuD, amo, hx]
  case lrD => simp [exec, execLrD, loadReserved, hx]
  case scD => simp [exec, execScD, storeConditional, hx]
  case ld | lwu => simp [exec, execLd, execLwu, load, hx]
  case sd => simp [exec, execSd, store, hx]

/-- A floating-point access wider than `FLEN` raises the illegal-instruction exception (R259). -/
theorem exec_of_flen_lt {i : Instr} {s : State} (h : flen s.cfg < i.fpBits) : exec i s = illegal i s := by
  cases i
  case flw | fld | flq | fsw | fsd | fsq => exact if_pos h
  all_goals cases h

/-- Settles O20: by the reason the form does not exist. -/
theorem nonexistentFormsAreIllegal : Obligations.NonexistentFormsAreIllegal := by
  unfold Obligations.NonexistentFormsAreIllegal
  intro i s h
  have hexec : exec i s = illegal i s := by
    rcases wellFormed_eq_false_iff.1 h with ⟨hi, hx⟩ | hwide
    · exact exec_onlyRv64 hi hx
    · exact exec_of_flen_lt hwide
  rw [hexec]
  exact illegal_trapsWith i s

/-! ## `fence` (R180 item 7, R181, R270) -/

/-- Whatever its sets and reserved fields, a `fence` is one move of the pc. -/
theorem exec_fence (fm : BitVec 4) (pred succ : FenceSet) (rd rs1 : Reg) (s : State) :
    exec (.fence fm pred succ rd rs1) s = .next (advance s) := rfl

/-- Settles O58, from what `advance` leaves unchanged. -/
theorem fenceResult : Obligations.FenceResult := by
  unfold Obligations.FenceResult
  intro fm pred succ rd rs1 s
  refine ⟨advance s, exec_fence fm pred succ rd rs1 s, advance_pc_toNat s, ?_, advance_x s, advance_mem s, advance_resv s,
    advance_stored s, advance_events s, advance_draws s, advance_scDraws s⟩
  exact ⟨advance_cfg s, advance_priv s, advance_mprv s, advance_mpp s, advance_pmp s, advance_stale s, advance_trap s⟩

end Sys2Proof.Machine
end

section
/-! # Atomic memory operations (40_amo.md): the words of the spec's examples, completion and result -/

namespace Sys2Proof

/-! ## The words the spec writes out (the examples of R204 to R287) -/

/-- A word that encodes an instruction decodes to it. -/
theorem decode_of_encode_eq {w : BitVec 32} {i : Instr} (h : encode i = w) : decode w = some i := by
  rw [← h, decode_encode]

/-- Settles O4: each word named is the encoding of its instruction, and the last two match no row. -/
theorem knownWords : Obligations.KnownWords := by
  unfold Obligations.KnownWords
  have noFenceI : decode 0x0000100F = none := by decide
  have noCompressed : decode 0x00000001 = none := by decide
  refine ⟨?_, ?_, ?_, ?_, ?_, ?_, ?_, ?_, ?_, ?_, ?_, ?_, ?_, ?_, noFenceI, noCompressed⟩
  all_goals exact decode_of_encode_eq (by decide)

end Sys2Proof

namespace Sys2Proof.Machine

/-! ## The eighteen AMOs (R202, R204 to R221) -/

/-- The model's data operation computes the value each AMO is said to leave (R204 to R221). -/
theorem amoLeaves_amoCombine {k : Nat} (op : AmoOp) (old src : BitVec k) :
    amoLeaves op old src (amoCombine op old src) := by
  cases op with
  | amoswap => rfl
  | amoadd => exact BitVec.toNat_add old src
  | amoxor => simp [amoLeaves, amoCombine]
  | amoand => simp [amoLeaves, amoCombine]
  | amoor => simp [amoLeaves, amoCombine]
  | amomin | amomax =>
    simp only [amoLeaves, amoCombine, BitVec.slt_iff_toInt_lt]
    split <;> omega
  | amominu | amomaxu =>
    simp only [amoLeaves, amoCombine, BitVec.ult_iff_lt, BitVec.lt_def]
    split <;> omega

/-- The 4-byte AMO of an operation is `ExecAMO` of that operation (R202). -/
theorem exec_amoW (op : AmoOp) (aq rl : Bool) (rd rs1 rs2 : Reg) (s : State) :
    exec (amoW op aq rl rd rs1 rs2) s = amo op 4 true (amoW op aq rl rd rs1 rs2) rd rs1 rs2 s := by
  cases op <;> rfl

/-- The 8-byte AMO of an operation is `ExecAMO` of that operation, and exists on RV64 (R180 item 4, R202). -/
theorem exec_amoD (op : AmoOp) (aq rl : Bool) (rd rs1 rs2 : Reg) (s : State) :
    exec (amoD op aq rl rd rs1 rs2) s =
      amo op 8 (s.cfg.mxlen == .rv64) (amoD op aq rl rd rs1 rs2) rd rs1 rs2 s := by
  cases op <;> rfl

theorem SameCore.writeReg {s u : State} (h : SameCore s u) (rd : Reg) (x : Word) :
    SameCore (writeReg rd x s) (writeReg rd x u) := by
  constructor
  case x => simp only [Sys2Proof.Machine.writeReg, h.cfg, h.x]; split <;> simp [h.x]
  all_goals simp [h.cfg, h.pc, h.priv, h.mprv, h.mpp, h.pmp, h.resv, h.stale, h.trap]

/-- What a write of memory after some reads leaves in memory and in the record of stored addresses (R82, R151). -/
theorem Reads.memWrite_storesBytes {s u : State} (h : Reads s u) (hm : Memory.wf s.mem) (pa n : Nat)
    (v : BitVec (8 * n)) : storesBytes s (memWrite pa n v u) pa n v := by
  refine ⟨?_, fun a ha => ?_, fun a => ?_⟩
  · rw [memWrite_mem, Memory.read_write_self (by rwa [h.mem])]
  · rw [memWrite_mem, Memory.get_write_out _ _ ha, h.mem]
  · rw [memWrite_stored, mem_insertAddrs, h.stored]

/-- A read and then a write at one address are both seen by the device there, in that order (R120). -/
theorem memWrite_afterRead_addsEvents (pa n : Nat) (v : BitVec (8 * n)) (s : State) :
    addsEvents s (memWrite pa n v (afterRead pa n s)) pa [⟨pa, n, none⟩, ⟨pa, n, some v.toNat⟩] := by
  rw [addsEvents, memWrite_events, afterRead_events, afterRead_cfg]
  split <;> simp

/-- The state an AMO leaves once its access has passed with state `u`: the new value written, the old one in `rd`
(R202). -/
def amoDone (rd : Reg) (x : Word) (va : Word) {n : Nat} (v : BitVec (8 * n)) (u : State) : State :=
  advance (freeResv (writeReg rd x (memWrite va.toNat n v (afterRead va.toNat n u))))

/-- A granted AMO reads, combines and writes; both sources are those of the state before (R202). -/
theorem amo_of_granted {op : AmoOp} {n : Nat} {i : Instr} {rd rs1 rs2 : Reg} {s : State}
    (h : granted s (.amo op) (readReg s rs1) n = true) :
    amo op n true i rd rs1 rs2 s =
      .next (amoDone rd (sextX s.cfg (valueAt s (readReg s rs1) n)) (readReg s rs1)
        (amoCombine op (valueAt s (readReg s rs1) n) (source s rs2 n)) (afterView s)) := by
  simp only [amo, access_granted h]
  rfl

section
variable (rd : Reg) {x : Word} (va : Word) {n : Nat} (v : BitVec (8 * n)) (s : State)

/-- What an AMO leaves beside memory: `rd` written, the pc moved, the reservation kept or dropped (R202). -/
theorem amoDone_leaves (hx : truncX s.cfg x = x) :
    writesReg s (amoDone rd x va v (afterView s)) rd x ∧ movesOn s (amoDone rd x va v (afterView s)) ∧
      sameControl s (amoDone rd x va v (afterView s)) ∧ resvKeptOrDropped s (amoDone rd x va v (afterView s)) := by
  have hc : SameCore s (memWrite va.toNat n v (afterRead va.toNat n (afterView s))) :=
    (Reads.start.view.read _ _).core.trans (sameCore_memWrite ..)
  obtain ⟨hregs, hpc, -, hresv⟩ := store_leaves (hc.writeReg rd x)
  refine ⟨⟨?_, fun r hne => ?_⟩, ?_, ?_, ?_⟩
  · rw [amoDone, hregs, readReg_writeReg_self, hx]
  · rw [amoDone, hregs, readReg_writeReg_ne _ _ hne]
  · rwa [movesOn, curPc_writeReg, writeReg_cfg] at hpc
  · simp [sameControl, amoDone]
  · rwa [resvKeptOrDropped, writeReg_resv] at hresv

/-- What an AMO leaves in memory and shows a device (R82, R120, R151). -/
theorem amoDone_stores (hm : Memory.wf s.mem) :
    storesBytes s (amoDone rd x va v (afterView s)) va.toNat n v ∧
      addsEvents s (amoDone rd x va v (afterView s)) va.toNat
        [⟨va.toNat, n, none⟩, ⟨va.toNat, n, some v.toNat⟩] := by
  have hbytes := (Reads.start.view.read va.toNat n).memWrite_storesBytes hm va.toNat n v
  have hevents := memWrite_afterRead_addsEvents va.toNat n v (afterView s)
  constructor
  · simpa [storesBytes, sameMemOutside, amoDone] using hbytes
  · simpa [addsEvents, amoDone] using hevents

end

/-- An AMO whose access is granted completes, whatever its width (R202). -/
theorem amo_completes {op : AmoOp} {n : Nat} {i : Instr} {rd rs1 rs2 : Reg} {s : State} (hm : Memory.wf s.mem)
    (h : granted s (.amo op) (readReg s rs1) n = true) :
    ∃ t new, amo op n true i rd rs1 rs2 s = .next t ∧
      amoLeaves op (valueAt s (readReg s rs1) n) ((readReg s rs2).setWidth (8 * n)) new ∧
      writesReg s t rd (sextX s.cfg (valueAt s (readReg s rs1) n)) ∧ storesBytes s t (readReg s rs1).toNat n new ∧
      movesOn s t ∧ sameControl s t ∧ resvKeptOrDropped s t ∧
      addsEvents s t (readReg s rs1).toNat
        [⟨(readReg s rs1).toNat, n, none⟩, ⟨(readReg s rs1).toNat, n, some new.toNat⟩] := by
  obtain ⟨hreg, hpc, hctl, hresv⟩ := amoDone_leaves rd (readReg s rs1)
    (amoCombine op (valueAt s (readReg s rs1) n) (source s rs2 n)) s (truncX_sextX s.cfg (valueAt s (readReg s rs1) n))
  obtain ⟨hbytes, hevents⟩ := amoDone_stores rd (readReg s rs1) _ s hm
  exact ⟨_, _, amo_of_granted h, amoLeaves_amoCombine .., hreg, hbytes, hpc, hctl, hresv, hevents⟩

/-- Settles O42: both widths are `ExecAMO`, which completes when its access is granted. -/
theorem amoResult : Obligations.AmoResult := by
  unfold Obligations.AmoResult
  intro op aq rl rd rs1 rs2 s hm
  refine ⟨fun h => ?_, fun h64 h => ?_⟩
  · rw [exec_amoW]
    exact amo_completes hm h
  · rw [exec_amoD, beq_iff_eq.2 h64]
    exact amo_completes hm h

end Sys2Proof.Machine
end

section
/-! # Load-reserved and store-conditional (41_lrsc.md): completion, result, and what the code tells -/

namespace Sys2Proof.Machine

/-! ## Load-reserved (R231, R238, R239) -/

theorem writeReg_setResv (rd : Reg) (x : Word) (o : Option Reservation) (s : State) :
    writeReg rd x { s with resv := o } = { writeReg rd x s with resv := o } := by
  unfold writeReg
  split <;> rfl

/-- A granted read, its register written and the pc moved, whatever reservation is set then (R231, R245). -/
theorem loadsTo_of_read (s : State) (va : Word) (n : Nat) (rd : Reg) {x : Word} (hx : truncX s.cfg x = x)
    (o : Option Reservation) :
    loadsTo s { advance (writeReg rd x (afterRead va.toNat n (afterView s))) with resv := o } va n rd x := by
  obtain ⟨hreg, hmem, hpc, hctl, -, -⟩ := load_leaves (Reads.start.view.read va.toNat n) rd hx
  refine ⟨hreg, hmem, hpc, hctl, ?_⟩
  simp [addsEvents, afterRead_events]

/-- A load-reserved whose access is granted completes, whatever its width (R231). -/
theorem loadReserved_completes {n : Nat} (i : Instr) {rd rs1 : Reg} {s : State}
    (h : granted s .lr (readReg s rs1) n = true) :
    ∃ t, loadReserved n true i rd rs1 s = .next t ∧
      loadsTo s t (readReg s rs1) n rd (sextX s.cfg (valueAt s (readReg s rs1) n)) ∧
      t.resv = some ⟨(readReg s rs1).toNat, n⟩ := by
  refine ⟨_, ?_, loadsTo_of_read s (readReg s rs1) n rd (truncX_sextX s.cfg (valueAt s (readReg s rs1) n))
    (some ⟨(readReg s rs1).toNat, n⟩), rfl⟩
  simp only [loadReserved, access_granted h]
  rfl

/-- Settles O45: both widths are `ExecLR`, which completes when its access is granted. -/
theorem lrResult : Obligations.LrResult := by
  unfold Obligations.LrResult
  intro aq rl rd rs1 s
  refine ⟨fun h => loadReserved_completes (.lrW aq rl rd rs1) h, fun h64 h => ?_⟩
  have hexec : exec (.lrD aq rl rd rs1) s = loadReserved 8 true (.lrD aq rl rd rs1) rd rs1 s :=
    congrArg (loadReserved 8 · _ rd rs1 s) (beq_iff_eq.2 h64)
  rw [hexec]
  exact loadReserved_completes _ h

/-! ## Store-conditional: when it succeeds and when it fails (R232, R234) -/

/-- At a translatable address the reservation needed is that of the address itself (R81, R232). -/
theorem holdsReservation_iff {s : State} {va : Word} {n : Nat} (hn : 0 < n) (htr : translatable s.cfg va n = true) :
    holdsReservation s va n = true ↔ s.resv = some ⟨va.toNat, n⟩ := by
  have hlt := (translatable_iff.1 htr).2
  rw [holdsReservation, beq_iff_eq, Nat.mod_eq_of_lt (by omega)]

/-- A granted store-conditional is naturally aligned (R102). -/
theorem aligned_of_granted_sc {s : State} {va : Word} {n : Nat} (h : granted s .sc va n = true) : va.toNat % n = 0 := by
  by_contra hmis
  have hwhole := (granted_iff.1 h).2.1
  rw [alignStage_of_stopped ⟨hmis, trivial⟩] at hwhole
  cases hwhole

/-- The checks of a failing store-conditional pass where it is aligned, translatable, and granted if the platform makes
all the checks (R232, R234). -/
theorem scFailTests_passes {s : State} {va : Word} {n : Nat} (htr : translatable s.cfg va n = true)
    (hal : va.toNat % n = 0) (hg : s.cfg.scFailChecks = true → granted s .sc va n = true) :
    ∃ w, scFailTests va n s = .ok () w ∧ Quiet s w := by
  unfold scFailTests
  split
  · rename_i hchecks
    exact ⟨afterView s, by rw [access_granted (hg hchecks)]; rfl, quiet_afterView s⟩
  · exact ⟨s, by simp [alignOnly, htr, hal], .refl s⟩

section
variable {n : Nat} {i : Instr} {rd rs1 rs2 : Reg} {s : State}

/-- Without the reservation, or with `ok` false, a store-conditional whose checks pass fails (R232). -/
theorem storeConditional_fails
    (hno : ¬(holdsReservation s (readReg s rs1) n = true ∧ Config.scOk (readReg s rs1).toNat s.scDraws = true))
    (htr : translatable s.cfg (readReg s rs1) n = true) (hal : (readReg s rs1).toNat % n = 0)
    (hg : s.cfg.scFailChecks = true → granted s .sc (readReg s rs1) n = true) :
    ∃ w, storeConditional n true i rd rs1 rs2 s = .next (scUnstored rd w) ∧ Quiet s w := by
  rcases storeConditional_cases n i rd rs1 rs2 s with ⟨hok, -⟩ | ⟨-, e⟩
  · exact absurd hok hno
  · have hq := quiet_ite_tickSc (holdsReservation s (readReg s rs1) n) s
    have hc := hq.reads.core
    obtain ⟨w, hw, hqw⟩ := scFailTests_passes (by rwa [hc.cfg]) hal (by rwa [hc.cfg, hc.granted])
    refine ⟨w, ?_, hq.trans hqw⟩
    rw [e, scFails, hw]
    rfl

/-- With the reservation, a granted access and `ok` true, a store-conditional stores (R232). -/
theorem storeConditional_succeeds
    (hok : holdsReservation s (readReg s rs1) n = true ∧ Config.scOk (readReg s rs1).toNat s.scDraws = true)
    (hg : granted s .sc (readReg s rs1) n = true) :
    storeConditional n true i rd rs1 rs2 s =
      .next (scStored rd (readReg s rs1) (source s rs2 n) (afterView (tickSc s))) := by
  rcases storeConditional_cases n i rd rs1 rs2 s with ⟨-, e⟩ | ⟨hno, -⟩
  · rw [e, scSucceeds, access_granted (by rwa [granted_tickSc])]
    rfl
  · exact absurd hok hno

end

/-! ## Store-conditional: what it leaves (R232) -/

/-- What an instruction leaves in registers, pc and modes does not depend on the accesses made first. -/
theorem SameCore.leaves {s u t : State} (hc : SameCore s u) {rd : Reg} {x : Word} (hreg : writesReg u t rd x)
    (hpc : movesOn u t) (hctl : sameControl u t) : writesReg s t rd x ∧ movesOn s t ∧ sameControl s t := by
  simp only [writesReg, sameRegsBut, movesOn, sameControl, hc.readReg, hc.curPc, hc.cfg, hc.priv, hc.mprv, hc.mpp,
    hc.pmp, hc.stale, hc.trap] at hreg hpc hctl
  exact ⟨hreg, hpc, hctl⟩

section
variable {s w : State} (hq : Quiet s w) (rd : Reg)
include hq

/-- A store-conditional that fails: code 1, nothing stored, no device sees it (R232). -/
theorem scUnstored_leaves : writesReg s (scUnstored rd w) rd 1 ∧ storesNothing s (scUnstored rd w) ∧
    movesOn s (scUnstored rd w) ∧ sameControl s (scUnstored rd w) ∧ (scUnstored rd w).events = s.events := by
  obtain ⟨hreg, hmem, hpc, hctl, -, -⟩ := load_leaves hq.reads rd (truncX_one s.cfg)
  rw [scUnstored, writeReg_setResv]
  exact ⟨hreg, hmem, hpc, hctl, by simp [hq.events]⟩

/-- A store-conditional that succeeds: code 0, the value stored, one write seen by a device (R120, R232). -/
theorem scStored_leaves (hm : Memory.wf s.mem) (va : Word) {n : Nat} (v : BitVec (8 * n)) :
    (writesReg s (scStored rd va v w) rd 0 ∧ movesOn s (scStored rd va v w) ∧ sameControl s (scStored rd va v w)) ∧
      storesBytes s (scStored rd va v w) va.toNat n v ∧
      addsEvents s (scStored rd va v w) va.toNat [⟨va.toNat, n, some v.toNat⟩] := by
  have hc := hq.reads.core.trans (sameCore_memWrite va.toNat n v w)
  obtain ⟨hreg, -, hpc, hctl, -, -⟩ := load_leaves (.start (s0 := memWrite va.toNat n v w)) rd (truncX_zero _)
  have hbytes := hq.reads.memWrite_storesBytes hm va.toNat n v
  rw [scStored, writeReg_setResv]
  refine ⟨hc.leaves hreg hpc hctl, ?_, ?_⟩
  · simpa [storesBytes, sameMemOutside] using hbytes
  · simp [addsEvents, memWrite_events, hq.events, hq.reads.core.cfg]

end

/-- Settles O46: the checks pass in both cases; the reservation and the free boolean decide between the two ends. -/
theorem scResult : Obligations.ScResult := by
  unfold Obligations.ScResult
  intro aq rl rd rs1 rs2 s i n hm hform
  have hn : 0 < n := by omega
  have hexec : exec i s = storeConditional n true i rd rs1 rs2 s := by
    rcases hform with ⟨rfl, rfl⟩ | ⟨rfl, rfl, h64⟩
    · rfl
    · exact congrArg (storeConditional 8 · _ rd rs1 rs2 s) (beq_iff_eq.2 h64)
  rw [hexec]
  constructor
  · intro hresv htr hal hg
    have hno : holdsReservation s (readReg s rs1) n ≠ true := fun h => hresv (beq_iff_eq.1 h)
    obtain ⟨w, hw, hq⟩ := storeConditional_fails (fun h => hno h.1) htr hal hg
    obtain ⟨hreg, hmem, hpc, hctl, hev⟩ := scUnstored_leaves hq rd
    exact ⟨_, hw, hreg, hmem, scUnstored_resv rd w, hpc, hctl, hev⟩
  · intro hresv hg
    have htr := (granted_iff.1 hg).1
    have hheld := (holdsReservation_iff hn htr).2 hresv
    by_cases hok : Config.scOk (readReg s rs1).toNat s.scDraws = true
    · have hq := (quiet_tickSc s).trans (quiet_afterView _)
      obtain ⟨⟨hreg, hpc, hctl⟩, hbytes, hev⟩ := scStored_leaves hq rd hm (readReg s rs1) (source s rs2 n)
      refine ⟨_, storeConditional_succeeds ⟨hheld, hok⟩ hg, scStored_resv .., hpc, hctl, ?_⟩
      rw [if_pos hok]
      exact ⟨hreg, hbytes, hev⟩
    · obtain ⟨w, hw, hq⟩ := storeConditional_fails (fun h => hok h.2) htr (aligned_of_granted_sc hg) (fun _ => hg)
      obtain ⟨hreg, hmem, hpc, hctl, hev⟩ := scUnstored_leaves hq rd
      refine ⟨_, hw, scUnstored_resv rd w, hpc, hctl, ?_⟩
      rw [if_neg hok]
      exact ⟨hreg, hmem, hev⟩

/-! ## Store-conditional: what its code tells (R232, R233) -/

/-- A data access that completes was to a translatable address (R81, R145). -/
theorem translatable_of_completed {i : Instr} {s t : State} {kind : AccessKind} {va : Word} {n : Nat}
    (hd : dataAccess i s = some (kind, va, n)) (h : exec i s = .next t) (ht : t.trap = none) :
    translatable s.cfg va n = true := by
  rcases illegal_or_performs hd with ⟨-, hill⟩ | hp
  · exact absurd ht (illegal_not_completed (hill ▸ h))
  · by_contra hno
    obtain ⟨u, hu, htrap, -⟩ := hp.untranslatable_traps (Bool.eq_false_of_not_eq_true hno)
    obtain rfl : t = u := Host.Outcome.next.inj (h.symm.trans hu)
    rw [ht] at htrap
    cases htrap

/-- Settles O47, by the two ways a store-conditional completes; the one that stores held its own address, since the
address was translatable. -/
theorem scCodeTellsTheStore : Obligations.ScCodeTellsTheStore := by
  unfold Obligations.ScCodeTellsTheStore
  intro aq rl rd rs1 rs2 s t i n hm hform h ht
  have hn : 0 < n := by omega
  obtain ⟨present, hexec, hdata⟩ : ∃ present, exec i s = storeConditional n present i rd rs1 rs2 s ∧
      dataAccess i s = some (.sc, readReg s rs1, n) := by
    rcases hform with ⟨rfl, rfl⟩ | ⟨rfl, rfl⟩
    · exact ⟨true, rfl, rfl⟩
    · exact ⟨s.cfg.mxlen == .rv64, rfl, rfl⟩
  rcases storeConditional_completed (hexec ▸ h) ht with ⟨⟨hheld, -⟩, rfl⟩ | ⟨-, u, w, hu, hw, rfl⟩
  · have hq := (quiet_tickSc s).trans (quiet_afterView _)
    obtain ⟨-, hbytes, -⟩ := scStored_leaves hq rd hm (readReg s rs1) (source s rs2 n)
    have hresv := (holdsReservation_iff hn (translatable_of_completed hdata h ht)).1 hheld
    exact ⟨scStored_resv .., .inl ⟨scStored_code .., hresv, hbytes⟩⟩
  · have hqu : Quiet s u := hu ▸ quiet_ite_tickSc _ s
    obtain ⟨⟨hcode, -⟩, hmem, -⟩ := scUnstored_leaves (hqu.trans (quiet_of_view hw)) rd
    exact ⟨scUnstored_resv rd w, .inr ⟨hcode, hmem⟩⟩

end Sys2Proof.Machine
end

section
/-! # Loads and stores (42_loads_stores.md): completion and result of the base and the floating-point forms -/

namespace Sys2Proof.Machine

/-! ## The seven base loads (R245, R248 to R254) -/

/-- A granted load reads its value by one memory operation (R140, R245). -/
theorem readData_of_granted {va : Word} {n : Nat} {s : State} (h : granted s .load va n = true) :
    readData va n s = .ok (valueAt s va n) (afterRead va.toNat n (afterView s)) := by
  rw [readData, access_granted h]
  rfl

section
variable (n : Nat) (signed : Bool) (i : Instr) (rd rs1 : Reg) (imm : BitVec 12) {s : State}

/-- What `rd` receives from a granted load (R175, R245). -/
def loadedValue (s : State) : Word :=
  if signed then sextX s.cfg (valueAt s (effAddr s rs1 imm) n) else zextX s.cfg (valueAt s (effAddr s rs1 imm) n)

@[simp] theorem truncX_loadedValue :
    truncX s.cfg (loadedValue n signed rs1 imm s) = loadedValue n signed rs1 imm s := by
  cases signed
  · exact truncX_zextX ..
  · exact truncX_sextX ..

/-- A granted load reads, writes `rd` and moves on (R245). -/
theorem load_of_granted (h : granted s .load (effAddr s rs1 imm) n = true) :
    load n signed true i rd rs1 imm s =
      .next (advance (writeReg rd (loadedValue n signed rs1 imm s)
        (afterRead (effAddr s rs1 imm).toNat n (afterView s)))) := by
  rw [load, readData_of_granted h]
  rfl

/-- A load whose access is granted completes, whatever its width and its extension (R245). -/
theorem load_completes (h : granted s .load (effAddr s rs1 imm) n = true) :
    ∃ t, load n signed true i rd rs1 imm s = .next t ∧ t.resv = s.resv ∧
      loadsTo s t (effAddr s rs1 imm) n rd (loadedValue n signed rs1 imm s) :=
  ⟨_, load_of_granted n signed i rd rs1 imm h, by simp,
    loadsTo_of_read s _ n rd (truncX_loadedValue n signed rs1 imm) (advance _).resv⟩

end

/-- Settles O52: each of the seven is one load of its width and extension; `ld` and `lwu` exist on RV64. -/
theorem loadResult : Obligations.LoadResult := by
  unfold Obligations.LoadResult
  intro rd rs1 imm s
  have hld (h64 : s.cfg.mxlen = .rv64) :
      exec (.ld rd rs1 imm) s = load 8 true true (.ld rd rs1 imm) rd rs1 imm s :=
    congrArg (load 8 true · _ rd rs1 imm s) (beq_iff_eq.2 h64)
  have hlwu (h64 : s.cfg.mxlen = .rv64) :
      exec (.lwu rd rs1 imm) s = load 4 false true (.lwu rd rs1 imm) rd rs1 imm s :=
    congrArg (load 4 false · _ rd rs1 imm s) (beq_iff_eq.2 h64)
  refine ⟨load_completes 1 true (.lb rd rs1 imm) rd rs1 imm, load_completes 2 true (.lh rd rs1 imm) rd rs1 imm,
    load_completes 4 true (.lw rd rs1 imm) rd rs1 imm, fun h64 h => ?_,
    load_completes 1 false (.lbu rd rs1 imm) rd rs1 imm, load_completes 2 false (.lhu rd rs1 imm) rd rs1 imm,
    fun h64 h => ?_⟩
  · rw [hld h64]
    exact load_completes 8 true _ rd rs1 imm h
  · rw [hlwu h64]
    exact load_completes 4 false _ rd rs1 imm h

/-! ## The four base stores (R246, R255 to R258) -/

/-- A granted store writes its value by one memory operation (R140, R246). -/
theorem writeData_of_granted {va : Word} {n : Nat} (v : BitVec (8 * n)) {s : State}
    (h : granted s .store va n = true) : writeData va n v s = .ok () (memWrite va.toNat n v (afterView s)) := by
  rw [writeData, access_granted h]
  rfl

/-- A store whose access is granted completes, whatever its width (R246). -/
theorem store_completes {n : Nat} (i : Instr) {rs1 rs2 : Reg} {imm : BitVec 12} {s : State} (hm : Memory.wf s.mem)
    (h : granted s .store (effAddr s rs1 imm) n = true) :
    ∃ t, store n true i rs1 rs2 imm s = .next t ∧ sameRegs s t ∧
      storesBytes s t (effAddr s rs1 imm).toNat n ((readReg s rs2).setWidth (8 * n)) ∧ movesOn s t ∧
      sameControl s t ∧ resvKeptOrDropped s t ∧
      addsEvents s t (effAddr s rs1 imm).toNat
        [⟨(effAddr s rs1 imm).toNat, n, some ((readReg s rs2).setWidth (8 * n)).toNat⟩] := by
  have hview : Reads s (afterView s) := Reads.start.view
  obtain ⟨hregs, hpc, hctl, hresv⟩ :=
    store_leaves (hview.core.trans (sameCore_memWrite (effAddr s rs1 imm).toNat n (source s rs2 n) _))
  have hbytes := hview.memWrite_storesBytes hm (effAddr s rs1 imm).toNat n (source s rs2 n)
  refine ⟨_, ?_, hregs, ?_, hpc, hctl, hresv, ?_⟩
  · rw [store, writeData_of_granted _ h]
    rfl
  · simpa [storesBytes, sameMemOutside, source] using hbytes
  · simp [addsEvents, memWrite_events, source]

/-- Settles O53: each form that exists is one store of its width. -/
theorem storeResult : Obligations.StoreResult := by
  unfold Obligations.StoreResult
  intro rs1 rs2 imm s i n hm hi h
  have hexec : exec i s = store n true i rs1 rs2 imm s := by
    rcases hi with ⟨rfl, rfl⟩ | ⟨rfl, rfl⟩ | ⟨rfl, rfl⟩ | ⟨rfl, rfl, h64⟩
    · rfl
    · rfl
    · rfl
    · exact congrArg (store 8 · _ rs1 rs2 imm s) (beq_iff_eq.2 h64)
  rw [hexec]
  exact store_completes i hm h

/-! ## The floating-point loads (R259 to R263) -/

/-- A load of any width, made whole or in parts, that succeeds whichever way it is made has only read (R262). -/
theorem loadAccess_done {va : Word} {n : Nat} {s : State} (hn : 0 < n) (h : accessSucceeds s .load va n) :
    LoadsAll va.toNat n s (loadAccess va n s) := by
  unfold loadAccess
  split
  · exact readData_done hn h.1
  · rename_i hwide
    exact wideRead_done hn (Nat.lt_of_not_le hwide) h

/-- A floating-point load the hart's `FLEN` allows makes its access, and then only the pc moves (R259). -/
theorem floatLoad_of_flen {n : Nat} (i : Instr) (rs1 : Reg) (imm : BitVec 12) {s : State} (hf : 8 * n ≤ flen s.cfg) :
    floatLoad n i rs1 imm s = ((loadAccess (effAddr s rs1 imm) n s).bind fun _ u => complete u).finish :=
  if_neg (Nat.not_lt.2 hf)

/-- What an instruction that has only read and moved on leaves: no register, no byte and no reservation changed. -/
theorem Reads.advance_leaves {s u : State} (h : Reads s u) :
    sameRegs s (advance u) ∧ storesNothing s (advance u) ∧ movesOn s (advance u) ∧ sameControl s (advance u) ∧
      (advance u).resv = s.resv ∧ eventsExtend s (advance u) := by
  have hc := h.core
  refine ⟨fun r => by simp [hc.readReg], ⟨fun a => by simp [h.mem], by simp [h.stored]⟩, ?_, ?_, by simp [hc.resv], ?_⟩
  · rw [movesOn, advance_pc_toNat, hc.cfg, hc.curPc]
  · simp [sameControl, hc.cfg, hc.priv, hc.mprv, hc.mpp, hc.pmp, hc.stale, hc.trap]
  · simpa [eventsExtend] using h.events

/-- Settles O56: the value is discarded, so a floating-point load is an access that only reads. -/
theorem floatLoadResult : Obligations.FloatLoadResult := by
  unfold Obligations.FloatLoadResult
  intro fd rs1 imm s i n hi hf h
  have hexec : exec i s = floatLoad n i rs1 imm s := by
    rcases hi with ⟨rfl, rfl⟩ | ⟨rfl, rfl⟩ | ⟨rfl, rfl⟩ <;> rfl
  obtain ⟨v, u, hu, hr, -⟩ := loadAccess_done (by omega) h
  refine ⟨advance u, ?_, hr.advance_leaves⟩
  rw [hexec, floatLoad_of_flen i rs1 imm hf, hu]
  rfl

/-! ## The floating-point stores (R259, R262, R264 to R266) -/

/-- A store of any width, made whole or in parts, that succeeds whichever way it is made leaves what one write would
have (R262). -/
theorem storeAccess_done {va : Word} {n : Nat} (v : BitVec (8 * n)) {s : State} (hm : Memory.wf s.mem)
    (h : accessSucceeds s .store va n) : StoresAll va.toNat v s (storeAccess va n v s) := by
  unfold storeAccess
  split
  · exact writeData_done hm h.1
  · rename_i hwide
    exact wideWrite_done hm (Nat.lt_of_not_le hwide) h

/-- Success does not depend on the free values drawn before the access. -/
theorem SameCore.accessSucceeds {s u : State} (hc : SameCore s u) {kind : AccessKind} {va : Word} {n : Nat}
    (h : accessSucceeds s kind va n) : accessSucceeds u kind va n := by
  refine ⟨hc.oneSucceeds h.1, fun hwide off m hm hlen hpart => hc.oneSucceeds ?_⟩
  rw [hc.cfg] at hwide hpart
  exact h.2 hwide off m hm hlen hpart

/-- A floating-point store the hart's `FLEN` allows draws its value, makes its access, frees the reservation or not, and
moves on (R259). -/
theorem floatStore_of_flen {n : Nat} (i : Instr) (rs1 : Reg) (imm : BitVec 12) {s : State} (hf : 8 * n ≤ flen s.cfg) :
    floatStore n i rs1 imm s =
      ((storeAccess (effAddr s rs1 imm) n ((Config.fpStoreValue s.draws).setWidth (8 * n)) (tick s)).bind
        fun _ u => complete (freeResv u)).finish :=
  if_neg (Nat.not_lt.2 hf)

/-- Settles O57: the value is drawn first, then stored by an access that succeeds after the draw as before it. -/
theorem floatStoreResult : Obligations.FloatStoreResult := by
  unfold Obligations.FloatStoreResult
  intro rs1 fs2 imm s i n hm hi hf h
  have hexec : exec i s = floatStore n i rs1 imm s := by
    rcases hi with ⟨rfl, rfl⟩ | ⟨rfl, rfl⟩ | ⟨rfl, rfl⟩ <;> rfl
  obtain ⟨u, hu, hc, -, hev, hbytes⟩ := (storeAccess_done ((Config.fpStoreValue s.draws).setWidth (8 * n))
    (s := tick s) hm ((sameCore_tick s).accessSucceeds h)).from Reads.start.tick
  obtain ⟨hregs, hpc, hctl, hresv⟩ := store_leaves hc
  refine ⟨advance (freeResv u), ?_, hregs, ?_, hpc, hctl, hresv, ?_⟩
  · rw [hexec, floatStore_of_flen i rs1 imm hf, hu]
    rfl
  · simpa [storesBytes, sameMemOutside] using hbytes
  · simpa [eventsExtend] using hev

end Sys2Proof.Machine
end

section
/-! # CSR instructions (44_csr.md): completion and result on the PMP CSRs -/

namespace Sys2Proof.Machine

/-! ## The value read has XLEN bits (R41, R42, R55) -/

theorem truncX_of_lt {c : Cfg} {v : Word} (h : v.toNat < 2 ^ xlen c) : truncX c v = v :=
  BitVec.eq_of_toNat_eq ((truncX_toNat c v).trans (Nat.mod_eq_of_lt h))

/-- A `pmpcfgN` packs `XLEN / 8` bytes (R41, R42). -/
theorem readCfgCsr_lt (c : Cfg) (p : PmpRegs) (n : Nat) : (readCfgCsr c p n).toNat < 2 ^ xlen c := by
  have hpack := leNat_lt ((List.range (xlen c / 8)).map fun k => readLane c p (4 * n + k))
  have hlen : 8 * (xlen c / 8) = xlen c := by
    rcases xlen_eq c with h | h <;> rw [h]
  rw [List.length_map, List.length_range, hlen] at hpack
  rw [readCfgCsr, BitVec.toNat_ofNat]
  exact (Nat.mod_le ..).trans_lt hpack

/-- A register takes the value of a PMP CSR whole (R58). -/
@[simp] theorem truncX_csrRead (c : Cfg) (p : PmpRegs) (a : Nat) : truncX c (csrRead c p a) = csrRead c p a := by
  unfold csrRead
  split
  · exact truncX_of_lt (readCfgCsr_lt ..)
  · exact truncX_of_lt (readAddr_lt ..)

/-! ## The six instructions (R281, R283 to R288) -/

/-- A write of `x0` changes nothing (R31). -/
@[simp] theorem writeReg_zero (v : Word) (s : State) : writeReg 0 v s = s := if_pos rfl

/-- The state after the write of a CSR instruction, if there is one: the new PMP registers, and the snapshots of a hart
with paged virtual memory (R59, R64, R281). -/
def csrAfterWrite (csr : BitVec 12) (writes : Bool) (new : Word) (s : State) : State :=
  { s with
    pmp := if writes then csrWriteRegs s.cfg csr.toNat new s.pmp else s.pmp
    stale := if writes && s.cfg.hasPagedVM then s.stale ++ [s.pmp] else s.stale }

@[simp] theorem csrAfterWrite_cfg (csr : BitVec 12) (writes : Bool) (new : Word) (s : State) :
    (csrAfterWrite csr writes new s).cfg = s.cfg := rfl

theorem csrAfterWrite_eq (csr : BitVec 12) (writes : Bool) (new : Word) (s : State) :
    csrAfterWrite csr writes new s = if writes then csrWrite csr.toNat new s else s := by
  cases writes <;> rfl

/-- That `csrrw` and `csrrwi` with `rd = x0` do not read is no case of its own: `x0` takes no value, and a read of a PMP
CSR has no effect (R281, R31). -/
theorem csrInstr_eq_writeReg {s : State} {csr : BitVec 12} (h : csrReady s csr = true) (op : CsrOp) (i : Instr)
    (rd : Reg) (src : Word) (z : Bool) :
    csrInstr op i rd csr src z s = .next (advance (writeReg rd (csrRead s.cfg s.pmp csr.toNat)
      (csrAfterWrite csr (op == .write || !z) (csrNew op (csrRead s.cfg s.pmp csr.toNat) src) s))) := by
  rw [csrInstr_of_ready h, csrAfterWrite_eq]
  split
  · rfl
  · rename_i hdiscard
    obtain ⟨-, rfl⟩ : op = .write ∧ rd = 0 := by simpa using hdiscard
    rw [writeReg_zero]

/-- The register takes the value read before the write, and the write touches the PMP registers and their snapshots
alone (R59, R281). -/
theorem csrDone_csrAfterWrite (s : State) (rd : Reg) (csr : BitVec 12) (writes : Bool) (new : Word) :
    csrDone s (advance (writeReg rd (csrRead s.cfg s.pmp csr.toNat) (csrAfterWrite csr writes new s))) rd csr writes
      new := by
  refine ⟨⟨?_, fun r hne => ?_⟩, ⟨fun a => ?_, ?_⟩, ?_, ?_⟩
  · rw [readReg_advance, readReg_writeReg_self, csrAfterWrite_cfg, truncX_csrRead]
  · rw [readReg_advance, readReg_writeReg_ne _ _ hne]
    exact readReg_congr rfl rfl r
  · simp [csrAfterWrite]
  · simp [csrAfterWrite]
  · rw [movesOn, advance_pc_toNat, curPc_writeReg, writeReg_cfg]
    rfl
  · simp [csrAfterWrite]

/-- A CSR instruction that may execute completes with the value read and the value its operation writes (R281). -/
theorem csrInstr_done {s : State} {csr : BitVec 12} (h : csrReady s csr = true) (op : CsrOp) (i : Instr) (rd : Reg)
    (src : Word) (z : Bool) :
    ∃ t, csrInstr op i rd csr src z s = .next t ∧
      csrDone s t rd csr (op == .write || !z) (csrNew op (csrRead s.cfg s.pmp csr.toNat) src) :=
  ⟨_, csrInstr_eq_writeReg h op i rd src z, csrDone_csrAfterWrite ..⟩

/-- Settles O40: each form is `ExecCsr` of its operation, its source and whether that source is `x0` or a zero
immediate. -/
theorem csrResult : Obligations.CsrResult := by
  unfold Obligations.CsrResult
  intro rd rs1 uimm csr s h
  exact ⟨csrInstr_done h .write (.csrrw rd csr rs1) rd (readReg s rs1) false,
    csrInstr_done h .set (.csrrs rd csr rs1) rd (readReg s rs1) (rs1 == 0),
    csrInstr_done h .clear (.csrrc rd csr rs1) rd (readReg s rs1) (rs1 == 0),
    csrInstr_done h .write (.csrrwi rd csr uimm) rd (uimmValue uimm) false,
    csrInstr_done h .set (.csrrsi rd csr uimm) rd (uimmValue uimm) (uimm == 0),
    csrInstr_done h .clear (.csrrci rd csr uimm) rd (uimmValue uimm) (uimm == 0)⟩

end Sys2Proof.Machine
end

section
/-! # Exceptions (60_exceptions.md): the codes, a fetch that fails, the standard trap entry and return -/

namespace Sys2Proof.Machine

/-! ## Codes and kinds (R290, R141, R292) -/

/-- Settles O19: both tables by computation, and every AMO is checked as a write. -/
theorem exceptionCodes : Obligations.ExceptionCodes := by
  unfold Obligations.ExceptionCodes
  exact ⟨rfl, rfl, rfl, rfl, rfl, rfl, rfl, rfl, rfl, rfl, rfl, rfl, fun _ => rfl⟩

/-! ## A fetch that fails (R294, R302, R303) -/

/-- An aligned fetch is one memory operation (R105). -/
theorem alignStage_fetch {s : State} (hal : (curPc s).toNat % 4 = 0) :
    alignStage s.cfg .fetch (curPc s) 4 = .whole := if_pos hal

/-- A fetch makes its `Access` first, so it raises what that raises (R83, R140). -/
theorem fetch_raises {s : State} {τ : Trap} (h : Raises s (access .fetch (curPc s) 4 s) τ) : Raises s (fetch s) τ :=
  h.bind _

/-- A step whose fetch raises is that trap and nothing else (R303). -/
theorem step_of_fetch_raises {s : State} {τ : Trap} (htr : s.trap = none) (hal : (curPc s).toNat % 4 = 0)
    (h : Raises s (fetch s) τ) : TrapsTo s (step s) τ := by
  obtain ⟨u, hu, hq⟩ := h
  have hstep : step s = (Res.raise τ u : Res Unit).finish := by simp [step, htr, hal, hu]
  rw [hstep]
  exact Raises.finish ⟨u, rfl, hq⟩

/-- Settles O8: the `Access` of the fetch raises, untranslatable or denied, since an aligned fetch has no exception for
alignment that could come first. -/
theorem fetchFailureTraps : Obligations.FetchFailureTraps := by
  unfold Obligations.FetchFailureTraps
  intro s htr hal hfail
  have hacc : Raises s (access .fetch (curPc s) 4 s) ⟨.accessFault .execute, curPc s⟩ := by
    rcases hfail with huntr | hden
    · exact access_untranslatable huntr
    · exact access_denied hden (.inl (alignStage_fetch hal))
  exact step_of_fetch_raises htr hal (fetch_raises hacc)

/-! ## The standard trap entry and `mret` (R305, notes/assumptions/20.md) -/

/-- What the trap entry to M-mode does with the trap a state holds (R305). -/
theorem enterMachineTrap_of_trap {s : State} {τ : Trap} (h : s.trap = some τ) (r : TrapCsrs) :
    enterMachineTrap r s =
      ({ r with mepc := curPc s, mcause := Exc.code τ.exc, mtval := τ.tval, mpie := r.mie, mie := false },
        { s with mpp := s.priv, priv := .machine, pc := truncX s.cfg r.mtvecBase, trap := none }) := by
  simp [enterMachineTrap, h]

/-- The pc read has XLEN bits, so a return that cuts it to XLEN bits restores it (R32). -/
@[simp] theorem truncX_curPc (s : State) : truncX s.cfg (curPc s) = curPc s := truncX_truncX s.cfg s.pc

/-- `mret` to a less privileged mode clears MPRV (R305). -/
theorem returnFromMachineTrap_mprv {s : State} (h : s.mpp ≠ .machine) (r : TrapCsrs) :
    (returnFromMachineTrap r s).2.mprv = false := if_neg h

/-- Settles O24: the entry saves each value where the return takes it from. -/
theorem trapEntryAndReturn : Obligations.TrapEntryAndReturn := by
  unfold Obligations.TrapEntryAndReturn
  intro r s τ h
  rw [enterMachineTrap_of_trap h]
  exact ⟨rfl, rfl, rfl, rfl, rfl, rfl, rfl, rfl, rfl, rfl, truncX_curPc s, rfl,
    fun hpriv => returnFromMachineTrap_mprv hpriv _⟩

end Sys2Proof.Machine
end
